-- ==== Sys2Proof/Word.lean ====
section
/-! DEFINITION. The word types of the device (00_scope.md R7). -/

namespace Sys2Proof

/-- A byte of LMEM, `u8` (R7). -/
abbrev Byte := BitVec 8

/-- A 32-bit register or command word, `u32`, also the pattern of an `i32` (R7, R31). -/
abbrev Word := BitVec 32

/-- The bit pattern of an IEEE 754 binary64 value, `f64` (R7, R8). -/
abbrev Double := BitVec 64

end Sys2Proof
end

