-- ==== Sys2Proof/Config.lean ====
section
/-! DEFINITION. What the spec leaves to a draw (60_exceptions.md R353, 70_reset_and_hazards.md R401, R402;
93_implementation_defined.md I4, I6, I7). Neither constant has a body, so a statement about them holds for every draw. -/

namespace Sys2Proof

/-- The draws, numbered in the order the machine makes them: the byte a failed HENC or HDEC (R353), or a command a
soft reset aborted (R402), leaves at one address of its dst region. `State.drawCount` numbers the next one (DESIGN CHOICE, log 5). -/
opaque Config.drawByte : Nat → Byte

/-- What the host's window reads at an LMEM address whose byte holds no value (R401). One value per address, because a
byte read twice with no write between returns the same value (R88) (DEDUCED, log 4). -/
opaque Config.unwrittenByte : Nat → Byte

end Sys2Proof
end

