-- ==== Sys2Proof/Syntax.lean ====
section
/-! DEFINITION. The 14 commands of CORE-CMD revision 1 (30_encoding.md R121, R123), one constructor per row of
spec/opcode_table.json. An `Instr` is a LEGAL command word; an illegal word (R124) is no `Instr`. The operands
LARG0..LARG3 are not in the word: a meaning reads them from the command latch (10_state.md R44). -/

namespace Sys2Proof

/-- The subsampling modes (R121, 44_chroma.md R300). -/
inductive Mode where
  | m444
  | m422
  | m420
  | m411
deriving DecidableEq, Repr

/-- A legal command word. `q` is the quality in IMM, read unsigned (R122); `ct` is IMM bit 0 of TBUILD. -/
inductive Instr where
  | nop
  | fdct
  | idct
  | qtab (q : Nat)
  | quant (q : Nat)
  | dequant (q : Nat)
  | zzenc
  | zzdec
  | hist
  | tbuild (ct : Bool)
  | henc
  | hdec
  | subs (mode : Mode)
  | ups (mode : Mode)
deriving DecidableEq, Repr

end Sys2Proof
end

