-- ==== Sys2Proof/WellFormed.lean ====
section
/-! DEFINITION. Which terms of `Instr` are commands of the hardware: the immediate must fit the IMM field
(30_encoding.md R120, R121). A quality outside 1..100 is well formed: its word is legal and completes with E_QUALITY
(R124). -/

namespace Sys2Proof

/-- The quality fits the 8 bits of IMM (R120). -/
abbrev qualityFits (q : Nat) : Prop := q < 256

/-- A well-formed command: one that a 32-bit word encodes. -/
def Instr.wf : Instr → Bool
  | .nop => true
  | .fdct => true
  | .idct => true
  | .qtab q => decide (qualityFits q)
  | .quant q => decide (qualityFits q)
  | .dequant q => decide (qualityFits q)
  | .zzenc => true
  | .zzdec => true
  | .hist => true
  | .tbuild _ => true
  | .henc => true
  | .hdec => true
  | .subs _ => true
  | .ups _ => true

end Sys2Proof
end

