-- ==== Sys2Proof/Decode.lean ====
section
/-! DEFINITION. The decoder and the encoder of the command word (30_encoding.md R120 to R125). -/

namespace Sys2Proof

/-- Why a command word is illegal (R124). -/
inductive Illegal where
  | reservedOpcode (op : Nat)     -- OP is in 0x0E..0xFF
  | reservedField                 -- RSV is not 0
  | reservedImmediate (imm : Nat) -- an IMM bit that must be 0 is 1
deriving DecidableEq, Repr

/-- OP, bits [7:0] (R120). -/
def opField (w : Word) : Nat := w.toNat % 256

/-- IMM, bits [15:8], read unsigned (R120, R122). -/
def immField (w : Word) : Nat := w.toNat / 256 % 256

/-- RSV, bits [31:16] (R120). -/
def rsvField (w : Word) : Nat := w.toNat / 65536

/-- The MODE code of R121: 0 = 444, 1 = 422, 2 = 420, 3 = 411. -/
def Mode.code : Mode → Nat
  | .m444 => 0
  | .m422 => 1
  | .m420 => 2
  | .m411 => 3

/-- The mode of a code. -/
def modeOfCode : Nat → Option Mode
  | 0 => some .m444
  | 1 => some .m422
  | 2 => some .m420
  | 3 => some .m411
  | _ => none

/-- A command whose IMM must be 0x00 (R121). -/
def noImmediate (imm : Nat) (i : Instr) : Except Illegal Instr :=
  if imm = 0 then .ok i else .error (.reservedImmediate imm)

/-- A command whose IMM bits 1:0 are MODE and whose bits 7:2 must be 0 (R121). -/
def modeImmediate (imm : Nat) (i : Mode → Instr) : Except Illegal Instr :=
  match modeOfCode imm with
  | some m => .ok (i m)
  | none => .error (.reservedImmediate imm)

/-- TBUILD's IMM: bit 0 is CT and bits 7:1 must be 0 (R121). -/
def flagImmediate (imm : Nat) (i : Bool → Instr) : Except Illegal Instr :=
  match imm with
  | 0 => .ok (i false)
  | 1 => .ok (i true)
  | _ => .error (.reservedImmediate imm)

/-- The opcode map (R123) over OP and IMM. -/
def decodeFields (op imm : Nat) : Except Illegal Instr :=
  match op with
  | 0x00 => noImmediate imm .nop
  | 0x01 => noImmediate imm .fdct
  | 0x02 => noImmediate imm .idct
  | 0x03 => .ok (.qtab imm)
  | 0x04 => .ok (.quant imm)
  | 0x05 => .ok (.dequant imm)
  | 0x06 => noImmediate imm .zzenc
  | 0x07 => noImmediate imm .zzdec
  | 0x08 => noImmediate imm .hist
  | 0x09 => flagImmediate imm .tbuild
  | 0x0A => noImmediate imm .henc
  | 0x0B => noImmediate imm .hdec
  | 0x0C => modeImmediate imm .subs
  | 0x0D => modeImmediate imm .ups
  | _ => .error (.reservedOpcode op)

/-- The decoder (R123, R124): total on every 32-bit word. -/
def decode (w : Word) : Except Illegal Instr :=
  if rsvField w = 0 then decodeFields (opField w) (immField w) else .error .reservedField

/-- The opcode of a command (R123). -/
def Instr.opcode : Instr → Nat
  | .nop => 0x00
  | .fdct => 0x01
  | .idct => 0x02
  | .qtab _ => 0x03
  | .quant _ => 0x04
  | .dequant _ => 0x05
  | .zzenc => 0x06
  | .zzdec => 0x07
  | .hist => 0x08
  | .tbuild _ => 0x09
  | .henc => 0x0A
  | .hdec => 0x0B
  | .subs _ => 0x0C
  | .ups _ => 0x0D

/-- The IMM field of a command (R121). -/
def Instr.immediate : Instr → Nat
  | .nop => 0
  | .fdct => 0
  | .idct => 0
  | .qtab q => q
  | .quant q => q
  | .dequant q => q
  | .zzenc => 0
  | .zzdec => 0
  | .hist => 0
  | .tbuild ct => if ct then 1 else 0
  | .henc => 0
  | .hdec => 0
  | .subs m => m.code
  | .ups m => m.code

/-- The command word `(IMM << 8) | OP` (R127). -/
def encode (i : Instr) : Word := BitVec.ofNat 32 (i.immediate * 256 + i.opcode)

/-- The command the decoder reads from a word numbered as spec/opcode_table.json numbers its bits. A command is one
32-bit word (R125), so bits above 31 make it none. -/
def decodeTableWord (nbits w : Nat) : Option Instr :=
  if nbits ≤ 32 ∧ w < 2 ^ 32 then (decode (BitVec.ofNat 32 w)).toOption else none

end Sys2Proof
end

