-- ==== Sys2Proof/Machine/State.lean ====
section
/-! DEFINITION. The state of the device as plain data (10_state.md, 70_reset_and_hazards.md R400), the reasons a step
can stop, and the state after power-on reset. INVENTORY.md, heading State, lists every field with its rule. -/

namespace Sys2Proof.Machine

/-- The machine stops with a fault. -/
inductive Fault where
  /-- A command read an LMEM byte that holds no value (R401: "a fault of the model"). Raised by every command that
  reads LMEM, through `State.readByte`. Safe: the spec makes no claim of such a run. -/
  | noValue (addr : Nat)
  /-- A command's write would fall outside 0..LMEM_SIZE−1, where no byte exists (R80). Raised by `complete` alone; the
  range check (R83) keeps every command from it. Safe. -/
  | outsideLmem (addr : Nat)
deriving DecidableEq, Repr

/-- No meaning for what was asked. -/
inductive Refusal where
  /-- An arm of `exec` without a meaning; raised by no arm of this model. Safe. -/
  | notModelled (mnemonic : String)
  /-- A host access outside the host interface: misaligned, of another width, or outside both windows (R32, R88, I8).
  Raised by the host's moves alone. Safe. -/
  | hostAccess (addr width : Nat)
deriving DecidableEq, Repr

/-- LMEM as the bytes that hold a value. An address that is not listed holds no value (R400; DEDUCED,
log 3). -/
abbrev Memory := List Host.Cell

/-- The parameters of the device and its platform (00_scope.md R6). No step changes them (DESIGN CHOICE, log 2). -/
structure Platform where
  /-- LMEM_SIZE, bytes of local memory. -/
  lmemSize : Nat
  /-- REG_BASE, the host address of the register block. -/
  regBase : Nat
  /-- LMEM_BASE, the host address of the LMEM window. -/
  lmemBase : Nat
deriving DecidableEq, Repr

/-- Four operand words: ARG0..ARG3 (R36) or LARG0..LARG3 (R44). -/
structure Args where
  a0 : Word
  a1 : Word
  a2 : Word
  a3 : Word
deriving DecidableEq, Repr

/-- The command latch: LCMD and LARG0..LARG3 (R44). -/
structure Latch where
  cmd : Word
  args : Args
deriving DecidableEq, Repr

/-- The fields of STATUS that are held (R35). ERR and TREE_VALID are computed (DEDUCED, log 14). -/
structure Status where
  busy : Bool
  done : Bool
  malformed : Bool
  wlost : Bool
  errCode : Byte
deriving DecidableEq, Repr

/-- One entry of the node arena (R39). A LEAF has left = right = NONE. -/
inductive Node where
  | leaf (sym : Byte) (freq : Nat)
  | internal (freq : Nat) (left right : Option Nat)
deriving DecidableEq, Repr

/-- The installed Huffman tree and code table: the arena entries in use (R39), the tree scalars (R40), and CODE for
symbols 0..255, first bit first (R41). CODE_LEN[s] is the length of CODE[s] (DEDUCED, log 18). -/
structure Huffman where
  nodes : List Node
  root : Nat
  nodeCount : Nat
  maxLen : Nat
  codes : List (List Bool)
deriving DecidableEq, Repr

/-- What moves next (R30, R126). `read`, `write`, `wait` and `check` are the host's actions; `engine` is the place of
the engine's completion step among them (R412; DESIGN CHOICE, log 1). -/
inductive Move where
  /-- A host read of `width` bytes at a host address. -/
  | read (addr width : Nat)
  /-- A host write of the `width` low bytes of `value` at a host address. -/
  | write (addr width : Nat) (value : BitVec 64)
  /-- WAIT: STATUS reads until BUSY reads 0. -/
  | wait
  /-- CHECK: a STATUS read; the host's program stops unless ERRCODE is 0. -/
  | check
  /-- The engine's step. -/
  | engine
deriving DecidableEq, Repr

/-- Everything the spec gives the machine, and the model's own fields (drawCount, schedule, responses, hostStop). -/
structure State where
  /-- LMEM_SIZE, REG_BASE, LMEM_BASE (R6). -/
  platform : Platform
  /-- CTRL.IE (R34). -/
  ie : Bool
  /-- STATUS (R35). -/
  status : Status
  /-- CMD, the last accepted word (R36). -/
  cmd : Word
  /-- ARG0..ARG3 (R36). -/
  args : Args
  /-- RES0 (R37). -/
  res0 : Word
  /-- RES1 (R37). -/
  res1 : Word
  /-- PREVDC_ENC, the pattern of an i32 (R38). -/
  prevDcEnc : Word
  /-- PREVDC_DEC, the pattern of an i32 (R38). -/
  prevDcDec : Word
  /-- The command latch (R44). -/
  latch : Latch
  /-- The installed tree; `none` is TREE_VALID = 0, when the tree state holds no value (R42, R400; DEDUCED, log 10). -/
  huffman : Option Huffman
  /-- LMEM (R46). -/
  lmem : Memory
  /-- The model's own: the number of the next draw (DESIGN CHOICE, log 5). -/
  drawCount : Nat
  /-- The model's own: the moves to come, first one first (DESIGN CHOICE, log 1). -/
  schedule : List Move
  /-- The model's own: what the host's reads returned, newest first (DESIGN CHOICE, log 16). -/
  responses : List (BitVec 64)
  /-- The model's own: the ERRCODE a CHECK stopped the host's program with (DESIGN CHOICE, log 8). -/
  hostStop : Option Byte
deriving DecidableEq, Repr

/-- STATUS with every field 0 (R400). -/
def Status.zero : Status := ⟨false, false, false, false, 0⟩

/-- Four zero operands (R400). -/
def Args.zero : Args := ⟨0, 0, 0, 0⟩

/-- The latch after reset (R44, R400). -/
def Latch.zero : Latch := ⟨0, Args.zero⟩

/-- The default LMEM_SIZE (R6), and the base addresses the model names for the OPEN platform parameters (DESIGN CHOICE, log 2). -/
def Platform.default : Platform := ⟨65536, 0, 0x10000000⟩

/-- The machine after power-on reset on a given platform (R400): every register 0, no tree, and no LMEM byte holding a
value. -/
def State.resetOn (p : Platform) : State where
  platform := p
  ie := false
  status := Status.zero
  cmd := 0
  args := Args.zero
  res0 := 0
  res1 := 0
  prevDcEnc := 0
  prevDcDec := 0
  latch := Latch.zero
  huffman := none
  lmem := []
  drawCount := 0
  schedule := []
  responses := []
  hostStop := none

/-- The machine after power-on reset (R400, R401) with the default LMEM_SIZE (R6). -/
def State.reset : State := State.resetOn Platform.default

end Sys2Proof.Machine
end

