-- ==== Sys2Proof/Machine/Flags.lean ====
section
/-! DEFINITION. The error codes (60_exceptions.md R350), every change of STATUS (10_state.md R35, R36; 60_exceptions.md
R355), STATUS as a word, and the IRQ output (R360). -/

namespace Sys2Proof.Machine

/-- The error codes of R350. -/
inductive ErrCode where
  | ok
  | illegal
  | quality
  | geometry
  | range
  | align
  | overlap
  | noTable
  | nonFinite
  | capacity
  | empty
  | noSymbols
  | badTable
  | noCode
  | corrupt
  | truncated
deriving DecidableEq, Repr

/-- The value of ERRCODE for each code (R350). -/
def ErrCode.code : ErrCode → Byte
  | .ok => 0x00
  | .illegal => 0x01
  | .quality => 0x02
  | .geometry => 0x03
  | .range => 0x04
  | .align => 0x05
  | .overlap => 0x06
  | .noTable => 0x07
  | .nonFinite => 0x08
  | .capacity => 0x09
  | .empty => 0x0A
  | .noSymbols => 0x0B
  | .badTable => 0x0C
  | .noCode => 0x0D
  | .corrupt => 0x0E
  | .truncated => 0x0F

/-- STATUS.ERR, which "always equals ERRCODE ≠ 0" (R35). -/
def Status.err (st : Status) : Bool := st.errCode != 0

/-- STATUS at the acceptance of a command: DONE, ERR, MALFORMED and ERRCODE cleared, BUSY set (R36). -/
def Status.accept (st : Status) : Status :=
  { st with busy := true, done := false, malformed := false, errCode := 0 }

/-- STATUS at a completion with code `e` (R355). WLOST is unchanged (R352). -/
def Status.complete (st : Status) (e : ErrCode) (malformed : Bool) : Status :=
  { st with busy := false, done := true, malformed := malformed, errCode := e.code }

/-- STATUS after a write was ignored because BUSY = 1 (R35, R36, R38). -/
def Status.lose (st : Status) : Status := { st with wlost := true }

/-- A host write of `v` to STATUS: 1 clears DONE (bit 1) and WLOST (bit 5), all else is ignored (R35). -/
def Status.write (st : Status) (v : Word) : Status :=
  { st with done := st.done && !v.getLsbD 1, wlost := st.wlost && !v.getLsbD 5 }

/-- The hidden bit TREE_VALID (R42). -/
def State.treeValid (s : State) : Bool := s.huffman.isSome

/-- A status bit at its place in the word. -/
def bitAt (k : Nat) (b : Bool) : Nat := if b then 2 ^ k else 0

/-- STATUS as the host reads it (R35). -/
def State.statusWord (s : State) : Word :=
  BitVec.ofNat 32 (bitAt 0 s.status.busy + bitAt 1 s.status.done + bitAt 2 s.status.err + bitAt 3 s.status.malformed
    + bitAt 4 s.treeValid + bitAt 5 s.status.wlost + 256 * s.status.errCode.toNat)

/-- CTRL as the host reads it: IE in bit 0, all else 0 (R34). -/
def State.ctrlWord (s : State) : Word := BitVec.ofNat 32 (bitAt 0 s.ie)

/-- The IRQ output, `CTRL.IE ∧ STATUS.DONE` (R360). -/
def State.irq (s : State) : Bool := s.ie && s.status.done

end Sys2Proof.Machine
end

