-- ==== Sys2Proof/Machine/Operands.lean ====
section
/-! DEFINITION. What a command takes from its latched operands: the subsampling factors (44_chroma.md R300), the operand
regions of every command (20_memory.md R82), their range, alignment and overlap (R83 to R85), and the checks of argument
values (60_exceptions.md R351, step 2). -/

namespace Sys2Proof.Machine

/-- fx of R300. -/
def factorX : Mode → Nat
  | .m444 => 1
  | .m422 => 2
  | .m420 => 2
  | .m411 => 4

/-- fy of R300. -/
def factorY : Mode → Nat
  | .m444 => 1
  | .m422 => 1
  | .m420 => 2
  | .m411 => 1

/-- An operand region: start address, length in bytes, alignment of the start (R82). -/
structure Region where
  start : Nat
  len : Nat
  align : Nat
deriving DecidableEq, Repr

/-- The region in range: the sum is exact and never wraps (R83). -/
def Region.inRange (size : Nat) (r : Region) : Bool := decide (r.start + r.len ≤ size)

/-- The region's start meets its alignment (R84). -/
def Region.aligned (r : Region) : Bool := decide (r.start % r.align = 0)

/-- Two regions share an address, both being longer than 0 (R85). -/
def Region.overlaps (r q : Region) : Bool :=
  decide (0 < r.len ∧ 0 < q.len ∧ r.start < q.start + q.len ∧ q.start < r.start + r.len)

/-- The src region of a command (R82). -/
def srcRegion (i : Instr) (l : Args) : Option Region :=
  match i with
  | .nop => none
  | .fdct => some ⟨l.a0.toNat, 256, 4⟩
  | .idct => some ⟨l.a0.toNat, 512, 8⟩
  | .qtab _ => none
  | .quant _ => some ⟨l.a0.toNat, 512, 8⟩
  | .dequant _ => some ⟨l.a0.toNat, 256, 4⟩
  | .zzenc => some ⟨l.a0.toNat, 256, 4⟩
  | .zzdec => some ⟨l.a0.toNat, l.a1.toNat, 1⟩
  | .hist => some ⟨l.a0.toNat, l.a1.toNat, 1⟩
  | .tbuild _ => some ⟨l.a0.toNat, 8 * l.a1.toNat, 4⟩
  | .henc => some ⟨l.a0.toNat, l.a1.toNat, 1⟩
  | .hdec => some ⟨l.a0.toNat, (l.a1.toNat + 7) / 8, 1⟩
  | .subs _ => some ⟨l.a0.toNat, l.a1.toNat * l.a2.toNat, 1⟩
  | .ups _ => some ⟨l.a0.toNat, l.a1.toNat * l.a2.toNat, 1⟩

/-- The dst region of a command (R82). For SUBS each quotient of R82's length that is not
exact is rounded down, which shows only when a soft reset aborts the command (DESIGN CHOICE, unsafe, log 22). -/
def dstRegion (i : Instr) (l : Args) : Option Region :=
  match i with
  | .nop => none
  | .fdct => some ⟨l.a1.toNat, 512, 8⟩
  | .idct => some ⟨l.a1.toNat, 256, 4⟩
  | .qtab _ => some ⟨l.a0.toNat, 64, 1⟩
  | .quant _ => some ⟨l.a1.toNat, 256, 4⟩
  | .dequant _ => some ⟨l.a1.toNat, 512, 8⟩
  | .zzenc => some ⟨l.a1.toNat, l.a2.toNat, 1⟩
  | .zzdec => some ⟨l.a2.toNat, 256, 4⟩
  | .hist => some ⟨l.a2.toNat, 2048, 4⟩
  | .tbuild ct => if ct then some ⟨l.a2.toNat, 10240, 4⟩ else none
  | .henc => some ⟨l.a2.toNat, l.a3.toNat, 1⟩
  | .hdec => some ⟨l.a2.toNat, l.a3.toNat, 1⟩
  | .subs m => some ⟨l.a3.toNat, l.a1.toNat / factorX m * (l.a2.toNat / factorY m), 1⟩
  | .ups m => some ⟨l.a3.toNat, l.a1.toNat * factorX m * (l.a2.toNat * factorY m), 1⟩

/-- Every operand region of a command. -/
def regions (i : Instr) (l : Args) : List Region := (srcRegion i l).toList ++ (dstRegion i l).toList

/-- The stream and plane commands, whose src and dst may not overlap (R85). TBUILD without a code table has no dst. -/
def refusesOverlap : Instr → Bool
  | .nop => false
  | .fdct => false
  | .idct => false
  | .qtab _ => false
  | .quant _ => false
  | .dequant _ => false
  | .zzenc => false
  | .zzdec => false
  | .hist => true
  | .tbuild ct => ct
  | .henc => true
  | .hdec => true
  | .subs _ => true
  | .ups _ => true

/-- The src and dst regions of a command overlap (R85). -/
def srcDstOverlap (i : Instr) (l : Args) : Bool :=
  match srcRegion i l, dstRegion i l with
  | some r, some q => r.overlaps q
  | _, _ => false

/-- The commands that need an installed tree (R351, step 6). -/
def needsTree : Instr → Bool
  | .nop => false
  | .fdct => false
  | .idct => false
  | .qtab _ => false
  | .quant _ => false
  | .dequant _ => false
  | .zzenc => false
  | .zzdec => false
  | .hist => false
  | .tbuild _ => false
  | .henc => true
  | .hdec => true
  | .subs _ => false
  | .ups _ => false

/-- E_QUALITY unless 1 ≤ q ≤ 100 (R351). -/
def qualityError (q : Nat) : Option ErrCode := if 1 ≤ q ∧ q ≤ 100 then none else some .quality

/-- Step 2 of the check order (R351): the argument values. -/
def argError (i : Instr) (l : Args) : Option ErrCode :=
  match i with
  | .nop => none
  | .fdct => none
  | .idct => none
  | .qtab q => qualityError q
  | .quant q => qualityError q
  | .dequant q => qualityError q
  | .zzenc => none
  | .zzdec => if l.a1.toNat = 0 then some .empty else none
  | .hist => none
  | .tbuild _ => if l.a1.toNat = 0 then some .noSymbols else if 256 < l.a1.toNat then some .badTable else none
  | .henc => none
  | .hdec => none
  | .subs m =>
    if 0 < l.a1.toNat ∧ 0 < l.a2.toNat ∧ l.a1.toNat % (8 * factorX m) = 0 ∧ l.a2.toNat % (8 * factorY m) = 0 then none
    else some .geometry
  | .ups _ => if 0 < l.a1.toNat ∧ 0 < l.a2.toNat then none else some .geometry

/-- Steps 2 to 6 of the check order (R351), the first failing one: argument values, E_RANGE, E_ALIGN, E_OVERLAP,
E_NOTABLE. Step 1, E_ILLEGAL, is the decoder's: an `Instr` is a legal word. -/
def precheck (i : Instr) (s : State) : Option ErrCode :=
  match argError i s.latch.args with
  | some e => some e
  | none =>
    if (regions i s.latch.args).all (Region.inRange s.platform.lmemSize) then
      if (regions i s.latch.args).all Region.aligned then
        if refusesOverlap i && srcDstOverlap i s.latch.args then some .overlap
        else if needsTree i && !s.treeValid then some .noTable
        else none
      else some .align
    else some .range

end Sys2Proof.Machine
end

