-- ==== Sys2Proof/Machine/Ops.lean ====
section
/-! DEFINITION. The named operations over memory and registers: reads and writes of LMEM (00_scope.md R9, 20_memory.md
R81), draws (R353, R402), the acceptance of a command (10_state.md R36), and its completion, with success or with an
error, as one shared operation (60_exceptions.md R351 to R355). The device takes no trap: a completion with an error code
is all an error does (R361). -/

namespace Sys2Proof.Machine

/-! ### Memory -/

/-- The byte an address holds; `none` when it holds no value (R400, R401). -/
def Memory.get? (m : Memory) (a : Nat) : Option Byte := m.lookup a

/-- The bytes `bs` at addresses a, a+1, … -/
def cellsAt (a : Nat) : List Byte → Memory
  | [] => []
  | b :: bs => (a, b) :: cellsAt (a + 1) bs

/-- Write the bytes `bs` at a, a+1, …, leaving every other byte; writing no byte changes nothing. -/
def Memory.put (m : Memory) (a : Nat) (bs : List Byte) : Memory :=
  match bs with
  | [] => m
  | b :: bs' =>
    m.filter (fun c => decide (c.1 < a)) ++ cellsAt a (b :: bs')
      ++ m.filter (fun c => decide (a + (bs'.length + 1) ≤ c.1))

/-- The canonical form of memory: addresses strictly rising. A listed byte always holds a value, and an unlisted one
reads as no value, so no entry equals what an unlisted address reads as. -/
abbrev Memory.wf (m : Memory) : Prop := m.Pairwise (fun c d => c.1 < d.1)

/-- Every listed byte lies in 0..size−1 (R46). -/
abbrev Memory.within (m : Memory) (size : Nat) : Prop := ∀ c ∈ m, c.1 < size

/-- The number whose little-endian bytes these are (R81). -/
def leValue : List Byte → Nat
  | [] => 0
  | b :: bs => b.toNat + 256 * leValue bs

/-- The n low-order bytes of v, least significant first (R81). -/
def leBytes : Nat → Nat → List Byte
  | 0, _ => []
  | n + 1, v => BitVec.ofNat 8 v :: leBytes n (v / 256)

/-- The bytes of an i32 element: v mod 2^32, little-endian (R9). -/
def i32Bytes (v : Int) : List Byte := leBytes 4 (BitVec.ofInt 32 v).toNat

/-- The bytes of an f64 element (R9). -/
def f64Bytes (x : Double) : List Byte := leBytes 8 x.toNat

/-! ### Saturation (R7) -/

/-- `sat(v, lo, hi)`. -/
def sat (v lo hi : Int) : Int := if v < lo then lo else if hi < v then hi else v

/-- `sat32`. -/
def sat32 (v : Int) : Int := sat v (-2147483648) 2147483647

/-- `sat8`. -/
def sat8 (v : Int) : Int := sat v (-128) 127

/-! ### Single updates of the state -/

def State.withPlatform (s : State) (v : Platform) : State := { s with platform := v }
def State.withIe (s : State) (v : Bool) : State := { s with ie := v }
def State.withStatus (s : State) (v : Status) : State := { s with status := v }
def State.withCmd (s : State) (v : Word) : State := { s with cmd := v }
def State.withArgs (s : State) (v : Args) : State := { s with args := v }
def State.withRes (s : State) (v0 v1 : Word) : State := { s with res0 := v0, res1 := v1 }
def State.withPrevDcEnc (s : State) (v : Word) : State := { s with prevDcEnc := v }
def State.withPrevDcDec (s : State) (v : Word) : State := { s with prevDcDec := v }
def State.withLatch (s : State) (v : Latch) : State := { s with latch := v }
def State.withHuffman (s : State) (v : Option Huffman) : State := { s with huffman := v }
def State.withLmem (s : State) (v : Memory) : State := { s with lmem := v }
def State.withDrawCount (s : State) (v : Nat) : State := { s with drawCount := v }
def State.withSchedule (s : State) (v : List Move) : State := { s with schedule := v }
def State.withResponses (s : State) (v : List (BitVec 64)) : State := { s with responses := v }
def State.withHostStop (s : State) (v : Option Byte) : State := { s with hostStop := v }

/-! ### A command's reads -/

/-- How a command's execute phase ends early: `raise E_X` (R11), or the model's fault (R401). -/
inductive Stop where
  | raise (e : ErrCode)
  | fault (f : Fault)
deriving DecidableEq, Repr

/-- RdU8: a byte that holds no value is a fault of the model (R401). -/
def State.readByte (s : State) (a : Nat) : Except Stop Byte :=
  match s.lmem.get? a with
  | some b => .ok b
  | none => .error (.fault (.noValue a))

/-- The n bytes at a, a+1, …, in that order (DESIGN CHOICE, log 21). -/
def State.readBytes (s : State) (a : Nat) : Nat → Except Stop (List Byte)
  | 0 => .ok []
  | n + 1 =>
    match s.readByte a with
    | .error e => .error e
    | .ok b =>
      match s.readBytes (a + 1) n with
      | .error e => .error e
      | .ok bs => .ok (b :: bs)

/-- Read an item for each index, in order; the first stop ends the reading. -/
def readEach {α : Type} (f : Nat → Except Stop α) : List Nat → Except Stop (List α)
  | [] => .ok []
  | k :: ks =>
    match f k with
    | .error e => .error e
    | .ok v =>
      match readEach f ks with
      | .error e => .error e
      | .ok vs => .ok (v :: vs)

/-- RdU32 (R9). -/
def State.readU32 (s : State) (a : Nat) : Except Stop Nat := (s.readBytes a 4).map leValue

/-- RdI32 (R9). -/
def State.readI32 (s : State) (a : Nat) : Except Stop Int :=
  (s.readBytes a 4).map fun bs => (BitVec.ofNat 32 (leValue bs)).toInt

/-- RdF64 (R9). -/
def State.readF64 (s : State) (a : Nat) : Except Stop Double :=
  (s.readBytes a 8).map fun bs => BitVec.ofNat 64 (leValue bs)

/-- The 64 i32 elements of a block (R10). -/
def State.readI32Block (s : State) (a : Nat) : Except Stop (List Int) :=
  readEach (fun i => s.readI32 (a + 4 * i)) (List.range 64)

/-- The 64 f64 elements of a block (R10). -/
def State.readF64Block (s : State) (a : Nat) : Except Stop (List Double) :=
  readEach (fun i => s.readF64 (a + 8 * i)) (List.range 64)

/-! ### What LMEM holds -/

/-- LMEM holds the bytes `bs` at a, a+1, … -/
abbrev State.holds (s : State) (a : Nat) (bs : List Byte) : Prop :=
  ∀ j, j < bs.length → s.lmem.get? (a + j) = bs[j]?

/-- LMEM holds a block of 64 i32 elements at a (R10). -/
abbrev State.holdsI32Block (s : State) (a : Nat) (z : List Int) : Prop :=
  z.length = 64 ∧ (∀ v ∈ z, -2147483648 ≤ v ∧ v ≤ 2147483647) ∧ s.holds a (z.flatMap i32Bytes)

/-- LMEM holds a block of 64 f64 elements at a (R10). -/
abbrev State.holdsF64Block (s : State) (a : Nat) (f : List Double) : Prop :=
  f.length = 64 ∧ s.holds a (f.flatMap f64Bytes)

/-! ### Draws -/

/-- The next n draws, the first of them number k. -/
def drawBytes (k n : Nat) : List Byte := (List.range n).map fun j => Config.drawByte (k + j)

/-- How many bytes of a region exist in LMEM (DEDUCED, log 6). -/
def Region.lenIn (size : Nat) (r : Region) : Nat := min (r.start + r.len) size - r.start

/-- Every byte of the region takes a drawn value (R353, R402). -/
def State.drawRegion (s : State) (r : Region) : State :=
  let n := r.lenIn s.platform.lmemSize
  (s.withLmem (s.lmem.put r.start (drawBytes s.drawCount n))).withDrawCount (s.drawCount + n)

/-- Every byte of the command's dst region takes a drawn value. -/
def State.drawDst (s : State) (i : Instr) : State :=
  match dstRegion i s.latch.args with
  | some r => s.drawRegion r
  | none => s

/-! ### Completion -/

/-- What a successful command does (R355): RES0 and RES1, the bytes it writes from `base` on, and its side effects. -/
structure Effect where
  res0 : Word
  res1 : Word
  base : Nat
  bytes : List Byte
  prevDcEnc : Option Word
  prevDcDec : Option Word
  huffman : Option Huffman
  malformed : Bool
deriving DecidableEq, Repr

/-- A success that writes bytes and results and has no side effect. -/
def plainEffect (r0 r1 base : Nat) (bytes : List Byte) : Effect :=
  ⟨BitVec.ofNat 32 r0, BitVec.ofNat 32 r1, base, bytes, none, none, none, false⟩

/-- The state after a successful completion (R355). -/
def State.succeed (s : State) (e : Effect) : State :=
  { s with
    status := s.status.complete .ok e.malformed
    res0 := e.res0
    res1 := e.res1
    prevDcEnc := e.prevDcEnc.getD s.prevDcEnc
    prevDcDec := e.prevDcDec.getD s.prevDcDec
    huffman := e.huffman.or s.huffman
    lmem := s.lmem.put e.base e.bytes }

/-- The completion step of a successful command (R355). A write outside LMEM is no byte's (DESIGN CHOICE, log 15). -/
def complete (s : State) (e : Effect) : Host.Outcome State Fault Refusal :=
  if e.base + e.bytes.length ≤ s.platform.lmemSize then .next (s.succeed e)
  else .fault (.outsideLmem (e.base + e.bytes.length - 1))

/-- The completion step of a command that ends with an error (R352): the code, and 0 in RES0 and RES1. -/
def State.failWith (s : State) (e : ErrCode) : State :=
  (s.withStatus (s.status.complete e false)).withRes 0 0

/-- TBUILD, the one command whose errors clear TREE_VALID (R42, R252). -/
def dropsTree : Instr → Bool
  | .tbuild _ => true
  | .nop | .fdct | .idct | .qtab _ | .quant _ | .dequant _ | .zzenc | .zzdec | .hist | .henc | .hdec | .subs _
  | .ups _ => false

/-- The commands whose execute-phase errors leave the dst region to draws (R353). -/
def drawsOnError : Instr → Bool
  | .henc | .hdec => true
  | .nop | .fdct | .idct | .qtab _ | .quant _ | .dequant _ | .zzenc | .zzdec | .hist | .tbuild _ | .subs _
  | .ups _ => false

/-- A failure at steps 2 to 6 (R351): LMEM unchanged; TBUILD clears the tree. -/
def State.failCommand (s : State) (i : Instr) (e : ErrCode) : State :=
  (if dropsTree i then s.withHuffman none else s).failWith e

/-- A failure in the execute phase (R353). -/
def State.failExecute (s : State) (i : Instr) (e : ErrCode) : State :=
  (if drawsOnError i then s.drawDst i else s).failCommand i e

/-- An illegal word's completion: E_ILLEGAL, nothing else (R124). -/
def State.failIllegal (s : State) : State := s.failWith .illegal

/-- The completion step of a legal command (R351, R355): the prechecks, then the execute phase, which either succeeds with
an effect, raises a code, or reads a byte holding no value. -/
def runCommand (i : Instr) (s : State) (body : State → Except Stop Effect) : Host.Outcome State Fault Refusal :=
  match precheck i s with
  | some e => .next (s.failCommand i e)
  | none =>
    match body s with
    | .ok eff => complete s eff
    | .error (.raise e) => .next (s.failExecute i e)
    | .error (.fault f) => .fault f

/-- The acceptance of a command word (R36): CMD, the latch and STATUS. -/
def State.accept (s : State) (w : Word) : State :=
  ((s.withCmd w).withLatch ⟨w, s.args⟩).withStatus s.status.accept

end Sys2Proof.Machine
end

