-- ==== Sys2Proof/Machine/Chroma.lean ====
section
/-! DEFINITION. YCbCr_chroma_subsampler and YCbCr_chroma_upsampler (44_chroma.md): SUBS and UPS. -/

namespace Sys2Proof.Machine

/-- The samples of cell (i, j) of a plane of width w: b outer over fy rows, a inner over fx columns (R301). -/
def cellAddrs (m : Mode) (src w i j : Nat) : List Nat :=
  (List.range (factorY m)).flatMap fun b =>
    (List.range (factorX m)).map fun a => src + (factorY m * j + b) * w + (factorX m * i + a)

/-- The average of a cell of n samples with sum t, rounded half up (R302). -/
def average (t n : Nat) : Nat := (t + n / 2) / n

/-- One output sample of SUBS (R301). -/
def subsSample (m : Mode) (s : State) (src w i j : Nat) : Except Stop Byte :=
  match readEach s.readByte (cellAddrs m src w i j) with
  | .error e => .error e
  | .ok bs => .ok (BitVec.ofNat 8 (average ((bs.map BitVec.toNat).sum) (factorX m * factorY m)))

/-- SUBS's execute phase (R301): output sample j·w + i, in that order. -/
def subsBody (m : Mode) (s : State) : Except Stop Effect :=
  let wSrc := s.latch.args.a1.toNat
  let w := wSrc / factorX m
  let h := s.latch.args.a2.toNat / factorY m
  match readEach (fun t => subsSample m s s.latch.args.a0.toNat wSrc (t % w) (t / w)) (List.range (w * h)) with
  | .error e => .error e
  | .ok bs => .ok (plainEffect w h s.latch.args.a3.toNat bs)

/-- UPS's execute phase (R303): output sample Y·W + X is source sample (Y div fy, X div fx). -/
def upsBody (m : Mode) (s : State) : Except Stop Effect :=
  let w := s.latch.args.a1.toNat
  let wDst := w * factorX m
  let hDst := s.latch.args.a2.toNat * factorY m
  match readEach (fun t => s.readByte (s.latch.args.a0.toNat + t / wDst / factorY m * w + t % wDst / factorX m))
      (List.range (wDst * hDst)) with
  | .error e => .error e
  | .ok bs => .ok (plainEffect wDst hDst s.latch.args.a3.toNat bs)

/-- SUBS (R301). -/
def execSubs (m : Mode) (s : State) : Host.Outcome State Fault Refusal := runCommand (.subs m) s (subsBody m)

/-- UPS (R303). -/
def execUps (m : Mode) (s : State) : Host.Outcome State Fault Refusal := runCommand (.ups m) s (upsBody m)

end Sys2Proof.Machine
end

