-- ==== Sys2Proof/Machine/Huffman.lean ====
section
/-! DEFINITION. canonical_Huffman_tree_builder, Huffman_bit_encoder and Huffman_bit_decoder (43_huffman.md): HIST, TBUILD,
HENC and HDEC. "Canonical" is read as deterministic (90_conflicts.md C3). -/

namespace Sys2Proof.Machine

/-! ### HIST -/

/-- How often the byte value s occurs. -/
def countSymbol (bs : List Byte) (s : Nat) : Nat := bs.countP fun b => b.toNat == s

/-- The pairs (symbol, count) of the symbols that occur, in ascending symbol order (R250). -/
def histogram (bs : List Byte) : List (Nat × Nat) :=
  ((List.range 256).map fun s => (s, countSymbol bs s)).filter fun p => decide (0 < p.2)

/-- One symbol-table entry: the symbol, three bytes 0, the frequency as u32 (R250). -/
def tableEntry (p : Nat × Nat) : List Byte := BitVec.ofNat 8 p.1 :: 0 :: 0 :: 0 :: leBytes 4 p.2

/-- HIST's execute phase (R250). -/
def histBody (s : State) : Except Stop Effect :=
  match s.readBytes s.latch.args.a0.toNat s.latch.args.a1.toNat with
  | .error e => .error e
  | .ok bs =>
    let t := histogram bs
    .ok (plainEffect t.length (8 * t.length) s.latch.args.a2.toNat (t.flatMap tableEntry))

/-! ### TBUILD -/

/-- The frequency of an arena node (R39). -/
def nodeFreq : Node → Nat
  | .leaf _ f => f
  | .internal f _ _ => f

/-- The left child, NONE for a leaf (R39). -/
def nodeLeft : Node → Option Nat
  | .leaf _ _ => none
  | .internal _ l _ => l

/-- The right child, NONE for a leaf (R39). -/
def nodeRight : Node → Option Nat
  | .leaf _ _ => none
  | .internal _ _ r => r

/-- The symbol of a leaf, none for an internal node. -/
def nodeSym : Node → Option Byte
  | .leaf s _ => some s
  | .internal _ _ _ => none

/-- The frequency of the node at an index. -/
def freqAt (nodes : List Node) (i : Nat) : Nat := (nodes[i]?.map nodeFreq).getD 0

/-- `(freq, index)` of i comes before that of j (R251). -/
def comesBefore (nodes : List Node) (i j : Nat) : Bool :=
  decide (freqAt nodes i < freqAt nodes j ∨ (freqAt nodes i = freqAt nodes j ∧ i < j))

/-- The argmin of `(freq, index)` over a live set whose first element is i (R251). -/
def argmin (nodes : List Node) (i : Nat) : List Nat → Nat
  | [] => i
  | j :: js => if comesBefore nodes j i then argmin nodes j js else argmin nodes i js

/-- The merging loop of R251, once for each merge: the first node removed becomes the left child. -/
def mergeLoop : Nat → List Node → List Nat → List Node
  | 0, nodes, _ => nodes
  | _ + 1, nodes, [] => nodes
  | n + 1, nodes, i :: is =>
    let a := argmin nodes i is
    match (i :: is).erase a with
    | [] => nodes
    | j :: js =>
      let b := argmin nodes j js
      mergeLoop n (nodes ++ [.internal (freqAt nodes a + freqAt nodes b) (some a) (some b)])
        ((j :: js).erase b ++ [nodes.length])

/-- The leaves, in table order (R251). -/
def leafNodes (t : List (Byte × Nat)) : List Node := t.map fun p => .leaf p.1 p.2

/-- The arena `Build` leaves (R251); the root is its last node. -/
def buildNodes (t : List (Byte × Nat)) : List Node :=
  if t.length = 1 then leafNodes t ++ [.internal (freqAt (leafNodes t) 0) (some 0) none]
  else mergeLoop (t.length - 1) (leafNodes t) (List.range t.length)

/-- The leaves reachable from node i, each with its path of edges, 0 for left and 1 for right (R253). `depth` bounds the
recursion: a child stands before its parent in the arena. -/
def leafPaths (nodes : List Node) : Nat → Nat → List (Byte × List Bool)
  | 0, _ => []
  | depth + 1, i =>
    match nodes[i]? with
    | none => []
    | some (.leaf s _) => [(s, [])]
    | some (.internal _ l r) =>
      (match l with
        | none => []
        | some j => (leafPaths nodes depth j).map fun p => (p.1, false :: p.2))
      ++ (match r with
        | none => []
        | some j => (leafPaths nodes depth j).map fun p => (p.1, true :: p.2))

/-- CODE[s] for s in 0..255, empty where s has no code (R253). -/
def codeTable (nodes : List Node) (root : Nat) : List (List Bool) :=
  let ps := leafPaths nodes nodes.length root
  (List.range 256).map fun s => ((ps.find? fun p => p.1.toNat == s).map Prod.snd).getD []

/-- MAXLEN, the longest code length (R253). -/
def longest (codes : List (List Bool)) : Nat := codes.foldl (fun m c => max m c.length) 0

/-- The tree, the tree scalars and the code table of a symbol table (R251, R253). -/
def buildTree (t : List (Byte × Nat)) : Huffman :=
  let nodes := buildNodes t
  let codes := codeTable nodes (nodes.length - 1)
  { nodes := nodes, root := nodes.length - 1, nodeCount := nodes.length, maxLen := longest codes, codes := codes }

/-- Bit k of a bit string, 0 past its end, as a number. -/
def bitOf (bits : List Bool) (k : Nat) : Nat := if bits.getD k false then 1 else 0

/-- Byte j of a packed bit string: bit 8j is its most significant bit (R257). -/
def packedByte (bits : List Bool) (j : Nat) : Byte :=
  BitVec.ofNat 8 (((List.range 8).map fun b => bitOf bits (8 * j + b) * 2 ^ (7 - b)).sum)

/-- The first n bytes of a packed bit string, the bits past its end being 0 (R253, R256). -/
def packBits (n : Nat) (bits : List Bool) : List Byte := (List.range n).map (packedByte bits)

/-- One 40-byte entry of the code table's write-out (R253). -/
def codeEntry (c : List Bool) : List Byte :=
  BitVec.ofNat 8 c.length :: (List.replicate 7 0 ++ packBits 32 c)

/-- Entry t of a symbol table: bytes 1 to 3 are not read (R252). -/
def readEntry (s : State) (t : Nat) : Except Stop (Byte × Nat) :=
  match s.readByte (s.latch.args.a0.toNat + 8 * t) with
  | .error e => .error e
  | .ok b =>
    match s.readU32 (s.latch.args.a0.toNat + 8 * t + 4) with
    | .error e => .error e
    | .ok f => .ok (b, f)

/-- No symbol stands twice in the table (R252). -/
def distinctSymbols (t : List (Byte × Nat)) : Bool := decide (t.map Prod.fst).Nodup

/-- TBUILD's execute phase (R252): the duplicate check comes before any write. -/
def tbuildBody (ct : Bool) (s : State) : Except Stop Effect :=
  match readEach (readEntry s) (List.range s.latch.args.a1.toNat) with
  | .error e => .error e
  | .ok t =>
    if distinctSymbols t then
      let h := buildTree t
      let out := if ct then h.codes.flatMap codeEntry else []
      .ok { plainEffect h.nodeCount h.maxLen (if ct then s.latch.args.a2.toNat else 0) out with huffman := some h }
    else .error (.raise .badTable)

/-! ### HENC -/

/-- The code of a byte (R41). -/
def codeOf (h : Huffman) (b : Byte) : List Bool := h.codes.getD b.toNat []

/-- The bit string of the n bytes at a, each read and looked up in turn (R256). -/
def encodeBits (h : Huffman) (s : State) (a : Nat) : Nat → Except Stop (List Bool)
  | 0 => .ok []
  | n + 1 =>
    match s.readByte a with
    | .error e => .error e
    | .ok b =>
      if (codeOf h b).length = 0 then .error (.raise .noCode)
      else
        match encodeBits h s (a + 1) n with
        | .error e => .error e
        | .ok bits => .ok (codeOf h b ++ bits)

/-- HENC's execute phase (R256). The precheck has seen a tree. -/
def hencBody (s : State) : Except Stop Effect :=
  match s.huffman with
  | none => .error (.raise .noTable)
  | some h =>
    match encodeBits h s s.latch.args.a0.toNat s.latch.args.a1.toNat with
    | .error e => .error e
    | .ok bits =>
      let n := (bits.length + 7) / 8
      if s.latch.args.a3.toNat < n then .error (.raise .capacity)
      else .ok (plainEffect n bits.length s.latch.args.a2.toNat (packBits n bits))

/-! ### HDEC -/

/-- Payload bit k: bit 7 − (k mod 8) of payload byte k div 8 (R257). -/
def readBit (s : State) (src k : Nat) : Except Stop Bool :=
  match s.readByte (src + k / 8) with
  | .error e => .error e
  | .ok b => .ok (b.getLsbD (7 - k % 8))

/-- The child of a node an edge leads to; NONE where there is no such node (DESIGN CHOICE, log 19). -/
def childOf (h : Huffman) (node : Nat) (bit : Bool) : Option Nat :=
  match h.nodes[node]? with
  | none => none
  | some n => if bit then nodeRight n else nodeLeft n

/-- The symbol of the node at an index when it is a leaf. -/
def leafAt (h : Huffman) (node : Nat) : Option Byte := h.nodes[node]?.bind nodeSym

/-- The loop of R258: `n` bits still to read from bit k on, the cursor at `node`, `m` symbols written so far. Gives the
symbols still to come and the cursor at the end. -/
def decodeBits (h : Huffman) (s : State) (src cap : Nat) : Nat → Nat → Nat → Nat → Except Stop (List Byte × Nat)
  | 0, _, node, _ => .ok ([], node)
  | n + 1, k, node, m =>
    match readBit s src k with
    | .error e => .error e
    | .ok bit =>
      match childOf h node bit with
      | none => .error (.raise .corrupt)
      | some nxt =>
        match leafAt h nxt with
        | none => decodeBits h s src cap n (k + 1) nxt m
        | some sym =>
          if m = cap then .error (.raise .capacity)
          else
            match decodeBits h s src cap n (k + 1) h.root (m + 1) with
            | .error e => .error e
            | .ok (syms, final) => .ok (sym :: syms, final)

/-- HDEC's execute phase (R258). The precheck has seen a tree. -/
def hdecBody (s : State) : Except Stop Effect :=
  match s.huffman with
  | none => .error (.raise .noTable)
  | some h =>
    match decodeBits h s s.latch.args.a0.toNat s.latch.args.a3.toNat s.latch.args.a1.toNat 0 h.root 0 with
    | .error e => .error e
    | .ok (syms, final) =>
      if final = h.root then
        .ok (plainEffect syms.length s.latch.args.a1.toNat s.latch.args.a2.toNat syms)
      else .error (.raise .truncated)

/-- HIST (R250). -/
def execHist (s : State) : Host.Outcome State Fault Refusal := runCommand .hist s histBody

/-- TBUILD (R252). -/
def execTbuild (ct : Bool) (s : State) : Host.Outcome State Fault Refusal := runCommand (.tbuild ct) s (tbuildBody ct)

/-- HENC (R256). -/
def execHenc (s : State) : Host.Outcome State Fault Refusal := runCommand .henc s hencBody

/-- HDEC (R258). -/
def execHdec (s : State) : Host.Outcome State Fault Refusal := runCommand .hdec s hdecBody

end Sys2Proof.Machine
end

