-- ==== Sys2Proof/Machine/Binary64.lean ====
section
/-! DEFINITION. Binary64 arithmetic (00_scope.md R8): every operation is the exact result rounded once by RN64. A finite
value is a sign and a magnitude counted in units of 2^-1074, the smallest binary64 step, so exact sums are integer sums.
IEEE 754's own rules for infinities, NaN and signed zeros are taken from general knowledge, as R8 says (PRESUMED, log 12). -/

namespace Sys2Proof.Machine

/-- The sign bit. -/
def f64Neg (x : Double) : Bool := x.getLsbD 63

/-- The exponent field. -/
def f64Exp (x : Double) : Nat := x.toNat / 2 ^ 52 % 2048

/-- The fraction field. -/
def f64Frac (x : Double) : Nat := x.toNat % 2 ^ 52

/-- `finite(a)` (R8). -/
def f64Finite (x : Double) : Bool := f64Exp x != 2047

/-- A NaN. -/
def f64IsNan (x : Double) : Bool := f64Exp x == 2047 && f64Frac x != 0

/-- An infinity. -/
def f64IsInf (x : Double) : Bool := f64Exp x == 2047 && f64Frac x == 0

/-- The magnitude of a finite value in units of 2^-1074. -/
def f64Mag (x : Double) : Nat :=
  if f64Exp x = 0 then f64Frac x else (2 ^ 52 + f64Frac x) * 2 ^ (f64Exp x - 1)

/-- The finite value as an integer number of units of 2^-1074. -/
def f64Units (x : Double) : Int := if f64Neg x then -(f64Mag x : Int) else (f64Mag x : Int)

/-- n/d to the nearest integer, ties to even. -/
def divTiesEven (n d : Nat) : Nat :=
  let q := n / d
  let r := n % d
  if d < 2 * r ∨ (2 * r = d ∧ q % 2 = 1) then q + 1 else q

/-- The pattern of an infinity without its sign. -/
def f64InfBits : Nat := 0x7FF0000000000000

/-- RN64 of the magnitude n/d units of 2^-1074, as a pattern without its sign: the significand rounded to 53 bits, or to
a whole unit below 2^53 units; infinity from 2^1024 on. A significand rounded up to 2^53 carries into the exponent. -/
def roundMag (n d : Nat) : Nat :=
  let k := (n / d).log2 - 52
  min (k * 2 ^ 52 + divTiesEven n (d * 2 ^ k)) f64InfBits

/-- A pattern from its sign and the rest. -/
def f64Make (neg : Bool) (bits : Nat) : Double := BitVec.ofNat 64 ((if neg then 2 ^ 63 else 0) + bits)

/-- The one NaN the operations make; no command stores one (PRESUMED, log 12). -/
def f64Nan : Double := 0x7FF8000000000000

/-- `a ⊕ b` (R8). An exact zero sum is +0.0 unless both operands are negative. -/
def f64Add (x y : Double) : Double :=
  if f64IsNan x ∨ f64IsNan y then f64Nan
  else if f64IsInf x then (if f64IsInf y ∧ f64Neg x ≠ f64Neg y then f64Nan else x)
  else if f64IsInf y then y
  else
    let z := f64Units x + f64Units y
    if z = 0 then f64Make (f64Neg x && f64Neg y) 0
    else f64Make (decide (z < 0)) (roundMag z.natAbs 1)

/-- `a ⊗ b` (R8). -/
def f64Mul (x y : Double) : Double :=
  let neg := f64Neg x != f64Neg y
  if f64IsNan x ∨ f64IsNan y then f64Nan
  else if f64IsInf x ∨ f64IsInf y then
    if (f64Finite x ∧ f64Mag x = 0) ∨ (f64Finite y ∧ f64Mag y = 0) then f64Nan else f64Make neg f64InfBits
  else f64Make neg (roundMag (f64Mag x * f64Mag y) (2 ^ 1074))

/-- `a ⊘ b` (R8). -/
def f64Div (x y : Double) : Double :=
  let neg := f64Neg x != f64Neg y
  if f64IsNan x ∨ f64IsNan y then f64Nan
  else if f64IsInf x then (if f64IsInf y then f64Nan else f64Make neg f64InfBits)
  else if f64IsInf y then f64Make neg 0
  else if f64Mag y = 0 then (if f64Mag x = 0 then f64Nan else f64Make neg f64InfBits)
  else f64Make neg (roundMag (f64Mag x * 2 ^ 1074) (f64Mag y))

/-- `f64(n)` (R8). -/
def f64OfInt (n : Int) : Double := f64Make (decide (n < 0)) (roundMag (n.natAbs * 2 ^ 1074) 1)

/-- `rhaz(r)` of a finite value: the nearest integer, ties away from zero (R8). -/
def rhaz (x : Double) : Int :=
  let m : Nat := (2 * f64Mag x + 2 ^ 1074) / 2 ^ 1075
  if f64Neg x then -(m : Int) else (m : Int)

end Sys2Proof.Machine
end

