-- ==== Sys2Proof/Machine/Quantizer.lean ====
section
/-! DEFINITION. quantization_table_builder (41_quantizer.md): QTAB, QUANT and DEQUANT. The table is no state: each command
computes it from its own quality (R190, 10_state.md R45). -/

namespace Sys2Proof.Machine

/-- `BASE`, row by row, index 8i + j (R191). -/
def quantBase : List Nat :=
  [16, 11, 10, 16, 24, 40, 51, 61,
   12, 12, 14, 19, 26, 58, 60, 55,
   14, 13, 16, 24, 40, 57, 69, 56,
   14, 17, 22, 29, 51, 87, 80, 62,
   18, 22, 37, 56, 68, 109, 103, 77,
   24, 35, 55, 64, 81, 104, 113, 92,
   49, 64, 78, 87, 103, 121, 120, 101,
   72, 92, 95, 98, 112, 100, 103, 99]

/-- `lambda` (R190): integer division below 50. -/
def quantScale (q : Nat) : Nat := if q < 50 then 5000 / q else 200 - 2 * q

/-- `Qtab(q)`, index 8i + j (R190). -/
def quantTable (q : Nat) : List Nat :=
  quantBase.map fun b => max 1 (min 255 ((b * quantScale q + 50) / 100))

/-- QTAB's execute phase (R192). -/
def qtabBody (q : Nat) (s : State) : Except Stop Effect :=
  .ok (plainEffect 0 0 s.latch.args.a0.toNat ((quantTable q).map (BitVec.ofNat 8)))

/-- One quantized coefficient: a binary64 division, then rhaz, then saturation (R193). -/
def quantize (x : Double) (d : Nat) : Int := sat32 (rhaz (f64Div x (f64OfInt d)))

/-- QUANT's execute phase (R193): the E_NONFINITE check comes before any write. -/
def quantBody (q : Nat) (s : State) : Except Stop Effect :=
  match s.readF64Block s.latch.args.a0.toNat with
  | .error e => .error e
  | .ok f =>
    if f.all f64Finite then
      .ok (plainEffect 0 0 s.latch.args.a1.toNat ((List.zipWith quantize f (quantTable q)).flatMap i32Bytes))
    else .error (.raise .nonFinite)

/-- DEQUANT's execute phase (R194): the exact integer product as f64. -/
def dequantBody (q : Nat) (s : State) : Except Stop Effect :=
  match s.readI32Block s.latch.args.a0.toNat with
  | .error e => .error e
  | .ok z =>
    .ok (plainEffect 0 0 s.latch.args.a1.toNat
      ((List.zipWith (fun (v : Int) (d : Nat) => f64OfInt (v * (d : Int))) z (quantTable q)).flatMap f64Bytes))

/-- QTAB (R192). -/
def execQtab (q : Nat) (s : State) : Host.Outcome State Fault Refusal := runCommand (.qtab q) s (qtabBody q)

/-- QUANT (R193). -/
def execQuant (q : Nat) (s : State) : Host.Outcome State Fault Refusal := runCommand (.quant q) s (quantBody q)

/-- DEQUANT (R194). -/
def execDequant (q : Nat) (s : State) : Host.Outcome State Fault Refusal := runCommand (.dequant q) s (dequantBody q)

end Sys2Proof.Machine
end

