-- ==== Sys2Proof/Machine/System.lean ====
section
/-! DEFINITION. The system command (45_system.md): NOP. -/

namespace Sys2Proof.Machine

/-- NOP's execute phase: `complete(0, 0)` (R330). -/
def nopBody (_s : State) : Except Stop Effect := .ok (plainEffect 0 0 0 [])

/-- NOP (R330). -/
def execNop (s : State) : Host.Outcome State Fault Refusal := runCommand .nop s nopBody

end Sys2Proof.Machine
end

