-- ==== Sys2Proof/Machine/Transform.lean ====
section
/-! DEFINITION. 8x8_DCT_transform (40_block_transform.md): FDCT and IDCT. -/

namespace Sys2Proof.Machine

/-- The cosine ROM `c_k` (R161). -/
def cosRom : List Double :=
  [0x3FF0000000000000, 0x3FEF6297CFF75CB0, 0x3FED906BCF328D46, 0x3FEA9B66290EA1A3,
   0x3FE6A09E667F3BCD, 0x3FE1C73B39AE68C8, 0x3FD87DE2A6AEA963, 0x3FC8F8B83C69A60B]

/-- The negation of a binary64 value: its sign bit turned. -/
def f64Negate (x : Double) : Double := x ^^^ 0x8000000000000000

/-- `T[m]`, m in 0..31 (R161). -/
def cosTable (m : Nat) : Double :=
  if m = 8 ∨ m = 24 then 0
  else if m ≤ 7 then cosRom.getD m 0
  else if m ≤ 16 then f64Negate (cosRom.getD (16 - m) 0)
  else if m ≤ 23 then f64Negate (cosRom.getD (m - 16) 0)
  else cosRom.getD (32 - m) 0

/-- The kernel value `COS(x, u)` (R161). -/
def cosKernel (x u : Nat) : Double := cosTable ((2 * x + 1) * u % 32)

/-- `CU(u)`, also read as CV (R162). -/
def scaleCU (u : Nat) : Double := if u = 0 then 0x3FE6A09E667F3BCD else 0x3FF0000000000000

/-- 0.25. -/
def f64Quarter : Double := 0x3FD0000000000000

/-- `F[8u+v]` of R163: x outer and y inner, in the order of the element index 8x + y. -/
def fdctCoefficient (b : List Int) (u v : Nat) : Double :=
  let s := (List.range 64).foldl
    (fun s i => f64Add s (f64Mul (f64Mul (f64OfInt (b.getD i 0)) (cosKernel (i / 8) u)) (cosKernel (i % 8) v))) 0
  f64Mul (f64Mul (f64Mul f64Quarter (scaleCU u)) (scaleCU v)) s

/-- The frequency block of R163. -/
def fdctBlock (b : List Int) : List Double := (List.range 64).map fun k => fdctCoefficient b (k / 8) (k % 8)

/-- `r[8x+y]` of R164: u outer and v inner, in the order of the element index 8u + v. -/
def idctSample (f : List Double) (x y : Nat) : Double :=
  let s := (List.range 64).foldl
    (fun s i => f64Add s (f64Mul (f64Mul (f64Mul (f64Mul (scaleCU (i / 8)) (scaleCU (i % 8))) (f.getD i 0))
      (cosKernel x (i / 8))) (cosKernel y (i % 8)))) 0
  f64Mul f64Quarter s

/-- The unrounded spatial block of R164. -/
def idctBlock (f : List Double) : List Double := (List.range 64).map fun k => idctSample f (k / 8) (k % 8)

/-- FDCT's execute phase (R163). -/
def fdctBody (s : State) : Except Stop Effect :=
  match s.readI32Block s.latch.args.a0.toNat with
  | .error e => .error e
  | .ok b => .ok (plainEffect 0 0 s.latch.args.a1.toNat ((fdctBlock b).flatMap f64Bytes))

/-- IDCT's execute phase (R164): both E_NONFINITE checks come before any write. -/
def idctBody (s : State) : Except Stop Effect :=
  match s.readF64Block s.latch.args.a0.toNat with
  | .error e => .error e
  | .ok f =>
    if f.all f64Finite then
      let r := idctBlock f
      if r.all f64Finite then
        .ok (plainEffect 0 0 s.latch.args.a1.toNat (r.flatMap fun x => i32Bytes (sat32 (rhaz x))))
      else .error (.raise .nonFinite)
    else .error (.raise .nonFinite)

/-- FDCT (R163). -/
def execFdct (s : State) : Host.Outcome State Fault Refusal := runCommand .fdct s fdctBody

/-- IDCT (R164). -/
def execIdct (s : State) : Host.Outcome State Fault Refusal := runCommand .idct s idctBody

end Sys2Proof.Machine
end

