-- ==== Sys2Proof/Machine/Zigzag.lean ====
section
/-! DEFINITION. zigzag_run_length_coder (42_zigzag_rle.md): ZZENC and ZZDEC. -/

namespace Sys2Proof.Machine

/-- `ZZ[k]`, the natural element index of zigzag position k (R220). -/
def zigzag : List Nat :=
  [0, 1, 8, 16, 9, 2, 3, 10, 17, 24, 32, 25, 18, 11, 4, 5,
   12, 19, 26, 33, 40, 48, 41, 34, 27, 20, 13, 6, 7, 14, 21, 28,
   35, 42, 49, 56, 57, 50, 43, 36, 29, 22, 15, 23, 30, 37, 44, 51,
   58, 59, 52, 45, 38, 31, 39, 46, 53, 60, 61, 54, 47, 55, 62, 63]

/-- `byte(v)`, the 8-bit pattern of an integer (R7). -/
def byteOf (v : Int) : Byte := BitVec.ofInt 8 v

/-- The bytes emitted before a nonzero value after `run` zeros: a filler for each full 16, then the remaining run (R222). -/
def runBytes (run : Nat) : List Byte :=
  (List.replicate (run / 16) [(0x0F : Byte), 0x00]).flatten ++ [BitVec.ofNat 8 (run % 16)]

/-- The AC pairs of the values at positions 1..63, `run` zeros being pending, and the EOB (R222). -/
def encodeAc (run : Nat) : List Int → List Byte
  | [] => [0x00, 0x00]
  | v :: vs =>
    if v = 0 then encodeAc (run + 1) vs
    else runBytes run ++ [byteOf (sat8 v)] ++ encodeAc 0 vs

/-- The values at zigzag positions 1..63. -/
def acValues (z : List Int) : List Int := (zigzag.drop 1).map fun i => z.getD i 0

/-- The stream of one block (R221, R222). -/
def encodeBlock (z : List Int) (prev : Int) : List Byte :=
  byteOf (sat8 (z.getD 0 0 - prev)) :: encodeAc 0 (acValues z)

/-- ZZENC's execute phase (R222): the stream is staged before any write. -/
def zzencBody (s : State) : Except Stop Effect :=
  match s.readI32Block s.latch.args.a0.toNat with
  | .error e => .error e
  | .ok z =>
    let out := encodeBlock z s.prevDcEnc.toInt
    let dst := s.latch.args.a1.toNat
    if s.latch.args.a2.toNat < out.length then .error (.raise .capacity)
    else .ok { plainEffect out.length (dst + out.length) dst out with
      prevDcEnc := some (BitVec.ofInt 32 (z.getD 0 0)) }

/-- What the decoder has when a block ends: the block, the bytes consumed, and whether it was malformed. -/
structure DecodedBlock where
  block : List Int
  consumed : Nat
  malformed : Bool
deriving DecidableEq, Repr

/-- The loop of R224: z the block so far, i the bytes consumed, cur the next zigzag position. Every pair that does not end
the block moves cur by 1 or more and cur stays at most 64, so 64 rounds always reach an end; `rounds` only bounds the
recursion. -/
def decodePairs (s : State) (src len : Nat) : Nat → List Int → Nat → Nat → Except Stop DecodedBlock
  | 0, z, i, _ => .ok ⟨z, i, true⟩
  | rounds + 1, z, i, cur =>
    if i = len then .ok ⟨z, i, true⟩
    else
      match s.readByte (src + i) with
      | .error e => .error e
      | .ok rb =>
        if i + 1 = len then .ok ⟨z, i + 1, true⟩
        else
          match s.readByte (src + i + 1) with
          | .error e => .error e
          | .ok vb =>
            let r := rb.toNat
            let v := vb.toInt
            if r = 0 ∧ v = 0 then .ok ⟨z, i + 2, false⟩
            else if r = 15 ∧ v = 0 then
              if 64 < cur + 16 then .ok ⟨z, i + 2, true⟩
              else decodePairs s src len rounds z (i + 2) (cur + 16)
            else if 63 < cur + r then .ok ⟨z, i + 2, true⟩
            else decodePairs s src len rounds (z.set (zigzag.getD (cur + r) 0) v) (i + 2) (cur + r + 1)

/-- ZZDEC's execute phase (R224, R226). -/
def zzdecBody (s : State) : Except Stop Effect :=
  let src := s.latch.args.a0.toNat
  match s.readByte src with
  | .error e => .error e
  | .ok b =>
    let dc := sat32 (s.prevDcDec.toInt + b.toInt)
    match decodePairs s src s.latch.args.a1.toNat 64 (dc :: List.replicate 63 0) 1 1 with
    | .error e => .error e
    | .ok d =>
      .ok { plainEffect d.consumed (src + d.consumed) s.latch.args.a2.toNat (d.block.flatMap i32Bytes) with
        prevDcDec := some (BitVec.ofInt 32 dc)
        malformed := d.malformed }

/-- ZZENC (R222). -/
def execZzenc (s : State) : Host.Outcome State Fault Refusal := runCommand .zzenc s zzencBody

/-- ZZDEC (R224). -/
def execZzdec (s : State) : Host.Outcome State Fault Refusal := runCommand .zzdec s zzdecBody

end Sys2Proof.Machine
end

