-- ==== Sys2Proof/Machine/Dispatch.lean ====
section
/-! DEFINITION. One arm per command (30_encoding.md R123): the completion step of the command the engine holds. -/

namespace Sys2Proof.Machine

def exec (i : Instr) (s : State) : Host.Outcome State Fault Refusal :=
  match i with
  | .nop => Sys2Proof.Machine.execNop s
  | .fdct => Sys2Proof.Machine.execFdct s
  | .idct => Sys2Proof.Machine.execIdct s
  | .qtab q => Sys2Proof.Machine.execQtab q s
  | .quant q => Sys2Proof.Machine.execQuant q s
  | .dequant q => Sys2Proof.Machine.execDequant q s
  | .zzenc => Sys2Proof.Machine.execZzenc s
  | .zzdec => Sys2Proof.Machine.execZzdec s
  | .hist => Sys2Proof.Machine.execHist s
  | .tbuild ct => Sys2Proof.Machine.execTbuild ct s
  | .henc => Sys2Proof.Machine.execHenc s
  | .hdec => Sys2Proof.Machine.execHdec s
  | .subs m => Sys2Proof.Machine.execSubs m s
  | .ups m => Sys2Proof.Machine.execUps m s

end Sys2Proof.Machine
end

