-- ==== Sys2Proof/Machine/Interface.lean ====
section
/-! DEFINITION. The host's side of the device: the register block (10_state.md R31 to R38), the LMEM window (20_memory.md
R80, R87, R88), soft reset (70_reset_and_hazards.md R402), the host's moves (30_encoding.md R126) and the
pseudo-instructions they make up (R127). -/

namespace Sys2Proof.Machine

/-! ### Register block -/

/-- ID_VALUE (R33). -/
def idValue : Word := 0x4A504743

/-- Byte offsets of the registers (R31). -/
def offCtrl : Nat := 0x04
def offStatus : Nat := 0x08
def offCmd : Nat := 0x0C
def offArg0 : Nat := 0x10
def offArg1 : Nat := 0x14
def offArg2 : Nat := 0x18
def offArg3 : Nat := 0x1C
def offPrevDcEnc : Nat := 0x28
def offPrevDcDec : Nat := 0x2C

/-- A register read; a reserved offset reads 0 (R31, R32). A read changes nothing in the device. -/
def State.readReg (s : State) (off : Nat) : Word :=
  match off with
  | 0x00 => idValue
  | 0x04 => s.ctrlWord
  | 0x08 => s.statusWord
  | 0x0C => s.cmd
  | 0x10 => s.args.a0
  | 0x14 => s.args.a1
  | 0x18 => s.args.a2
  | 0x1C => s.args.a3
  | 0x20 => s.res0
  | 0x24 => s.res1
  | 0x28 => s.prevDcEnc
  | 0x2C => s.prevDcDec
  | 0x30 => BitVec.ofNat 32 s.platform.lmemSize
  | _ => 0

/-- The abort of a running command by soft reset: every byte of its dst region takes a draw (R402; DEDUCED, log 6). An illegal
word has no regions. A SUBS whose plane is no multiple of its factors has the length of log 22 (DESIGN CHOICE). -/
def State.abort (s : State) : State :=
  match decode s.latch.cmd with
  | .ok i => s.drawDst i
  | .error _ => s

/-- Soft reset (R402, R400): the running command is aborted, and every register and hidden state item takes its reset
value. LMEM stays, but for the abort's draws. -/
def State.softReset (s : State) : State :=
  let t := if s.status.busy then s.abort else s
  { t with
    ie := false
    status := Status.zero
    cmd := 0
    args := Args.zero
    res0 := 0
    res1 := 0
    prevDcEnc := 0
    prevDcDec := 0
    latch := Latch.zero
    huffman := none }

/-- A write ignored because BUSY = 1, which sets WLOST (R36, R38). -/
def State.loseWrite (s : State) : State := s.withStatus s.status.lose

/-- A register write; one to a read-only or reserved offset has no effect (R32). -/
def State.writeReg (s : State) (off : Nat) (v : Word) : State :=
  match off with
  | 0x04 => if v.getLsbD 1 then s.softReset else s.withIe (v.getLsbD 0)
  | 0x08 => s.withStatus (s.status.write v)
  | 0x0C => if s.status.busy then s.loseWrite else s.accept v
  | 0x10 => s.withArgs { s.args with a0 := v }
  | 0x14 => s.withArgs { s.args with a1 := v }
  | 0x18 => s.withArgs { s.args with a2 := v }
  | 0x1C => s.withArgs { s.args with a3 := v }
  | 0x28 => if s.status.busy then s.loseWrite else s.withPrevDcEnc v
  | 0x2C => if s.status.busy then s.loseWrite else s.withPrevDcDec v
  | _ => s

/-! ### LMEM window -/

/-- The byte the host's window reads at an LMEM address; a byte with no value reads a draw (R401; DEDUCED, log 4). -/
def State.windowByte (s : State) (a : Nat) : Byte := (s.lmem.get? a).getD (Config.unwrittenByte a)

/-- A host read of n bytes of LMEM, little-endian (R81, R88). It has no side effect. -/
def State.readWindow (s : State) (a n : Nat) : BitVec 64 :=
  BitVec.ofNat 64 (leValue ((List.range n).map fun j => s.windowByte (a + j)))

/-- A host write of n bytes of LMEM, little-endian (R81, R88). -/
def State.writeWindow (s : State) (a n : Nat) (v : BitVec 64) : State := s.withLmem (s.lmem.put a (leBytes n v.toNat))

/-! ### The host's accesses -/

/-- What a host access reaches. -/
inductive Target where
  | reg (off : Nat)
  | lmem (addr : Nat)
deriving DecidableEq, Repr

/-- The defined host accesses: 32-bit aligned register accesses (R32), and 1, 2, 4 or 8 byte naturally aligned accesses
with every byte inside LMEM (R88). Alignment is that of the offset in the window (DESIGN CHOICE, log 9). -/
def Platform.route (p : Platform) (addr width : Nat) : Option Target :=
  if p.regBase ≤ addr ∧ addr < p.regBase + 256 then
    if width = 4 ∧ (addr - p.regBase) % 4 = 0 then some (.reg (addr - p.regBase)) else none
  else if p.lmemBase ≤ addr ∧ addr + width ≤ p.lmemBase + p.lmemSize ∧ width ∈ [1, 2, 4, 8]
      ∧ (addr - p.lmemBase) % width = 0 then
    some (.lmem (addr - p.lmemBase))
  else none

/-- The access reaches LMEM. -/
def Platform.reachesLmem (p : Platform) (addr width : Nat) : Bool :=
  match p.route addr width with
  | some (.lmem _) => true
  | some (.reg _) => false
  | none => false

/-- The move is held until the running command completes: an LMEM access stalls (R87) and WAIT goes on reading STATUS
(R126; DESIGN CHOICE, log 7). -/
def State.stalls (s : State) : Move → Bool
  | .read addr width => s.status.busy && s.platform.reachesLmem addr width
  | .write addr width _ => s.status.busy && s.platform.reachesLmem addr width
  | .wait => s.status.busy
  | .check => false
  | .engine => false

/-- A host read returns a value (DESIGN CHOICE, log 16). -/
def State.respond (s : State) (v : BitVec 64) : State := s.withResponses (v :: s.responses)

/-- A host read (R32, R88). -/
def State.hostRead (s : State) (addr width : Nat) : Host.Outcome State Fault Refusal :=
  match s.platform.route addr width with
  | some (.reg off) => .next (s.respond ((s.readReg off).setWidth 64))
  | some (.lmem a) => .next (s.respond (s.readWindow a width))
  | none => .refused (.hostAccess addr width)

/-- A host write (R32, R88). -/
def State.hostWrite (s : State) (addr width : Nat) (v : BitVec 64) : Host.Outcome State Fault Refusal :=
  match s.platform.route addr width with
  | some (.reg off) => .next (s.writeReg off (v.setWidth 32))
  | some (.lmem a) => .next (s.writeWindow a width v)
  | none => .refused (.hostAccess addr width)

/-- CHECK (R126): a STATUS read; unless ERRCODE is 0 the host's program stops with that code and issues nothing more
(DESIGN CHOICE, log 8). -/
def State.hostCheck (s : State) : State :=
  let t := s.respond (s.statusWord.setWidth 64)
  if s.status.errCode = 0 then t else (t.withSchedule []).withHostStop (some s.status.errCode)

/-- A move of the host that does not stall, taken off the schedule already. The engine's own move is not the host's. -/
def State.hostMove (s : State) : Move → Host.Outcome State Fault Refusal
  | .read addr width => s.hostRead addr width
  | .write addr width v => s.hostWrite addr width v
  | .wait => .next (s.respond (s.statusWord.setWidth 64))
  | .check => .next s.hostCheck
  | .engine => .next s

/-- The end of a run (R415): no access left, BUSY = 0, and so nothing stalled. -/
def State.runEnded (s : State) : Bool := s.schedule.isEmpty && !s.status.busy

/-! ### Pseudo-instructions (R126, R127) -/

/-- `W REG, v`. -/
def Platform.writeRegMove (p : Platform) (off : Nat) (v : Word) : Move := .write (p.regBase + off) 4 (v.setWidth 64)

/-- `R REG`. -/
def Platform.readRegMove (p : Platform) (off : Nat) : Move := .read (p.regBase + off) 4

/-- `WM.n a, v`. -/
def Platform.writeMemMove (p : Platform) (n a : Nat) (v : BitVec 64) : Move := .write (p.lmemBase + a) n v

/-- `RM.n a`. -/
def Platform.readMemMove (p : Platform) (n a : Nat) : Move := .read (p.lmemBase + a) n

/-- The operand writes of a command, ARG0 first, then `W CMD, word; WAIT` (R127). -/
def Platform.issue (p : Platform) (i : Instr) (ops : List Word) : List Move :=
  List.zipWith p.writeRegMove [offArg0, offArg1, offArg2, offArg3] ops ++ [p.writeRegMove offCmd (encode i), .wait]

def Platform.asmNop (p : Platform) : List Move := p.issue .nop []
def Platform.asmFdct (p : Platform) (src dst : Word) : List Move := p.issue .fdct [src, dst]
def Platform.asmIdct (p : Platform) (src dst : Word) : List Move := p.issue .idct [src, dst]
def Platform.asmQtab (p : Platform) (q : Nat) (dst : Word) : List Move := p.issue (.qtab q) [dst]
def Platform.asmQuant (p : Platform) (q : Nat) (src dst : Word) : List Move := p.issue (.quant q) [src, dst]
def Platform.asmDequant (p : Platform) (q : Nat) (src dst : Word) : List Move := p.issue (.dequant q) [src, dst]
def Platform.asmZzenc (p : Platform) (src dst cap : Word) : List Move := p.issue .zzenc [src, dst, cap]
def Platform.asmZzdec (p : Platform) (src len dst : Word) : List Move := p.issue .zzdec [src, len, dst]
def Platform.asmHist (p : Platform) (src len dst : Word) : List Move := p.issue .hist [src, len, dst]
def Platform.asmTbuild (p : Platform) (tab n : Word) : List Move := p.issue (.tbuild false) [tab, n]
def Platform.asmTbuildCt (p : Platform) (tab n ct : Word) : List Move := p.issue (.tbuild true) [tab, n, ct]
def Platform.asmHenc (p : Platform) (src len dst cap : Word) : List Move := p.issue .henc [src, len, dst, cap]
def Platform.asmHdec (p : Platform) (src nbits dst cap : Word) : List Move := p.issue .hdec [src, nbits, dst, cap]
def Platform.asmSubs (p : Platform) (m : Mode) (src w h dst : Word) : List Move := p.issue (.subs m) [src, w, h, dst]
def Platform.asmUps (p : Platform) (m : Mode) (src w h dst : Word) : List Move := p.issue (.ups m) [src, w, h, dst]

/-- `CMD 0xhhhhhhhh`: a bare word, which writes no ARG register (R127). -/
def Platform.asmWord (p : Platform) (w : Word) : List Move := [p.writeRegMove offCmd w, .wait]

/-- `SETDC e, d` (R127). -/
def Platform.asmSetDc (p : Platform) (e d : Word) : List Move :=
  [p.writeRegMove offPrevDcEnc e, p.writeRegMove offPrevDcDec d]

/-- `ACK` (R127). -/
def Platform.asmAck (p : Platform) : List Move := [p.writeRegMove offStatus 0x00000002]

end Sys2Proof.Machine
end

