-- ==== Sys2Proof/Machine/Engine.lean ====
section
/-! DEFINITION. The engine's step (70_reset_and_hazards.md R412) and what moves next (10_state.md R30). -/

namespace Sys2Proof.Machine

/-- The engine's step: while BUSY = 1 it completes the latched command (60_exceptions.md R355), an illegal word with
E_ILLEGAL (R124, R351 step 1); while BUSY = 0 the device is idle (R375, R403;
DESIGN CHOICE, log 20). -/
def engineStep (s : State) : Host.Outcome State Fault Refusal :=
  if s.status.busy then
    match decode s.latch.cmd with
    | .ok i => exec i s
    | .error _ => .next s.failIllegal
  else .next s

/-- The next move (DESIGN CHOICE, log 1): the first of the schedule, unless it is held until the running command completes; with nothing
scheduled, the engine. -/
def nextMove (s : State) : Host.Outcome State Fault Refusal :=
  match s.schedule with
  | [] => engineStep s
  | .engine :: rest => engineStep (s.withSchedule rest)
  | m :: rest => if s.stalls m then engineStep s else (s.withSchedule rest).hostMove m

/-- The command word w accepted as a CMD write accepts it (R36), with the engine's step next (DESIGN CHOICE, log 11). -/
def State.placeCommand (s : State) (w : Word) : State := (s.withSchedule (.engine :: s.schedule)).accept w

end Sys2Proof.Machine
end

