-- ==== Sys2Proof/Machine/Step.lean ====
section
/-! DEFINITION. One step of the machine: a host access or the engine's completion step (10_state.md R30), as the schedule
in State says (DESIGN CHOICE, log 1). -/

namespace Sys2Proof.Machine

/-- One step. -/
def step (s : State) : Host.Outcome State Fault Refusal := nextMove s

/-- The device fetches nothing (R43, R94): the instruction step runs next is the word an accepted CMD write latched. The
bits of w above nbits are 0 (DESIGN CHOICE, log 11). -/
def State.withFetchWord (s : State) (nbits w : Nat) : State := s.placeCommand (BitVec.ofNat 32 (w % 2 ^ nbits))

end Sys2Proof.Machine
end

