-- ==== Sys2Proof/Safety.lean ====
section
/-! DEFINITION. What counts as a safe run, and the invariants every step keeps. A run in which the model faulted "has no
end state and is excluded from every claim" (70_reset_and_hazards.md R415). -/

namespace Sys2Proof.Machine

/-- A legal platform (00_scope.md R6): LMEM_SIZE a multiple of 8 in 16384..2^28, the two windows apart. -/
abbrev Platform.legal (p : Platform) : Prop :=
  16384 ≤ p.lmemSize ∧ p.lmemSize ≤ 2 ^ 28 ∧ p.lmemSize % 8 = 0 ∧
    (p.regBase + 256 ≤ p.lmemBase ∨ p.lmemBase + p.lmemSize ≤ p.regBase)

/-- LMEM is in canonical form and lies in 0..LMEM_SIZE−1 (R46). -/
abbrev State.lmemInv (s : State) : Prop := s.lmem.wf ∧ s.lmem.within s.platform.lmemSize

/-- STATUS (R35, R36, R350, R355): no completion shows while a command runs, ERRCODE is one of the 16 codes, and a
malformed block is no error. -/
abbrev State.statusInv (s : State) : Prop :=
  (s.status.busy = true → s.status.done = false ∧ s.status.malformed = false ∧ s.status.errCode = 0) ∧
    s.status.errCode.toNat < 16 ∧ (s.status.malformed = true → s.status.errCode = 0)

/-- CMD reads back LCMD (R44). -/
abbrev State.latchInv (s : State) : Prop := s.cmd = s.latch.cmd

/-- The installed tree (R39 to R41): NODE_COUNT in 2..511 entries, ROOT one of them, and 256 codes. -/
abbrev Huffman.wf (h : Huffman) : Prop :=
  h.nodeCount = h.nodes.length ∧ 2 ≤ h.nodeCount ∧ h.nodeCount ≤ 511 ∧ h.root + 1 = h.nodeCount ∧ h.codes.length = 256

/-- Whatever tree is installed is well formed. -/
abbrev State.treeInv (s : State) : Prop := ∀ h ∈ s.huffman, h.wf

/-- The invariant of the device. -/
abbrev State.Inv (s : State) : Prop :=
  s.platform.legal ∧ s.lmemInv ∧ s.statusInv ∧ s.latchInv ∧ s.treeInv

/-- A run of k steps that no fault ends. -/
def Safe (k : Nat) (s : State) : Prop := ∀ f, Sys2Proof.core.run k s ≠ .fault f

end Sys2Proof.Machine
end

