-- ==== Sys2Proof/Certificates/Slice0/Obligations.lean ====
section
/-! DEFINITION. The statements for the provers, as `Obligations.<Name>`, after the vocabulary they are said in
(`Sys2Proof.Statements`): the state after a completion, a host access as one step, and the command rules of
spec/40_block_transform.md to spec/44_chroma.md written once more, over lists, as the rules' own pseudocode reads. -/

namespace Sys2Proof.Statements

open Sys2Proof.Machine

/-! ### Operands and regions -/

/-- LARG0 to LARG3 as unsigned numbers (R122). -/
abbrev larg0 (s : State) : Nat := s.latch.args.a0.toNat
abbrev larg1 (s : State) : Nat := s.latch.args.a1.toNat
abbrev larg2 (s : State) : Nat := s.latch.args.a2.toNat
abbrev larg3 (s : State) : Nat := s.latch.args.a3.toNat

/-- The region of n bytes at a is in range (R83). -/
abbrev InRange (s : State) (a n : Nat) : Prop := a + n ≤ s.platform.lmemSize

/-- The regions share no address (R85). -/
abbrev Apart (a n b m : Nat) : Prop := n = 0 ∨ m = 0 ∨ a + n ≤ b ∨ b + m ≤ a

/-! ### Completions -/

/-- The state after a success that wrote the bytes bs at a, with the results r0 and r1 (R355). Nothing else changes. -/
def succeeded (s : State) (r0 r1 a : Nat) (bs : List Byte) : State :=
  { s with
    status := ⟨false, true, false, s.status.wlost, 0x00⟩
    res0 := BitVec.ofNat 32 r0
    res1 := BitVec.ofNat 32 r1
    lmem := s.lmem.put a bs }

/-- The state after an error that wrote nothing (R352). -/
def failed (s : State) (code : Byte) : State :=
  { s with status := ⟨false, true, false, s.status.wlost, code⟩, res0 := 0, res1 := 0 }

/-- The state after an error that left a draw in each of the n bytes at a (R353). -/
def failedWithDraws (s : State) (code : Byte) (a n : Nat) : State :=
  { failed s code with lmem := s.lmem.put a (drawBytes s.drawCount n), drawCount := s.drawCount + n }

/-- The state after an error of TBUILD, which leaves no tree (R252). -/
def failedNoTree (s : State) (code : Byte) : State := { failed s code with huffman := none }

/-- The completion step of the command the engine holds (R355). -/
def completion (s : State) : Host.Outcome State Fault Refusal :=
  match decode s.latch.cmd with
  | .ok i => exec i s
  | .error _ => .next (failed s 0x01)

/-- A function of the next state. -/
def mapNext (f : State → State) : Host.Outcome State Fault Refusal → Host.Outcome State Fault Refusal
  | .next t => .next (f t)
  | .fault r => .fault r
  | .refused r => .refused r

/-- Another command held by the engine, its operands latched. -/
def holding (s : State) (i : Instr) (a0 a1 a2 a3 : Word) : State := { s with latch := ⟨encode i, ⟨a0, a1, a2, a3⟩⟩ }

/-! ### The host -/

/-- One step in which the move m is the first of the schedule. -/
def does (s : State) (m : Move) : Host.Outcome State Fault Refusal := step { s with schedule := m :: s.schedule }

/-- A 32-bit write of v to the register at an offset. -/
def writes (s : State) (off : Nat) (v : Word) : Host.Outcome State Fault Refusal :=
  does s (.write (s.platform.regBase + off) 4 (v.setWidth 64))

/-- A 32-bit read of the register at an offset. -/
def reads (s : State) (off : Nat) : Host.Outcome State Fault Refusal := does s (.read (s.platform.regBase + off) 4)

/-- A host read that returned v and changed nothing in the device. -/
def answered (s : State) (v : BitVec 64) : State := { s with responses := v :: s.responses }

/-- A register read that returned v. -/
def answeredWord (s : State) (v : Word) : State := answered s (v.setWidth 64)

/-- The acceptance of the word w (R36). -/
def accepted (s : State) (w : Word) : State :=
  { s with cmd := w, latch := ⟨w, s.args⟩, status := ⟨true, false, false, s.status.wlost, 0x00⟩ }

/-- A write dropped because BUSY = 1 (R36, R38). -/
def lost (s : State) : State := { s with status := { s.status with wlost := true } }

/-- A defined register access (R32). -/
abbrev RegisterAccess (p : Platform) (addr width : Nat) : Prop :=
  width = 4 ∧ p.regBase ≤ addr ∧ addr < p.regBase + 256 ∧ (addr - p.regBase) % 4 = 0

/-- A defined access of the LMEM window (R88). -/
abbrev WindowAccess (p : Platform) (addr width : Nat) : Prop :=
  width ∈ [1, 2, 4, 8] ∧ p.lmemBase ≤ addr ∧ addr + width ≤ p.lmemBase + p.lmemSize ∧ (addr - p.lmemBase) % width = 0

/-- The dst region a soft reset leaves to draws: the running command's (R402), as long as the model's dst region is
(log 22). -/
def abortedRegion (s : State) : Option Region :=
  if s.status.busy then (decode s.latch.cmd).toOption.bind fun i => dstRegion i s.latch.args else none

/-- The state after a soft reset (R400, R402). -/
def afterSoftReset (s : State) : State :=
  { State.resetOn s.platform with
    lmem :=
      match abortedRegion s with
      | some r => s.lmem.put r.start (drawBytes s.drawCount (r.lenIn s.platform.lmemSize))
      | none => s.lmem
    drawCount :=
      match abortedRegion s with
      | some r => s.drawCount + r.lenIn s.platform.lmemSize
      | none => s.drawCount
    schedule := s.schedule
    responses := s.responses
    hostStop := s.hostStop }

/-- The step from s to t is a soft reset: the host's next access writes SRST = 1 to CTRL (R34, R402). -/
abbrev SoftResetStep (s t : State) : Prop :=
  t.status = Status.zero ∧ ∃ v rest, s.schedule = .write (s.platform.regBase + 0x04) 4 v :: rest ∧ v.getLsbD 1 = true

/-- The step from s to t is a completion (R355). -/
abbrev CompletionStep (s t : State) : Prop :=
  s.status.busy = true ∧ t.status.busy = false ∧ t.status.done = true

/-- The bytes a window read of n bytes at LMEM address a finds: those LMEM holds, a free value for each byte that holds none
(R401, log 4). -/
def windowBytes (s : State) (a n : Nat) : List Byte :=
  (List.range n).map fun j => (s.lmem.get? (a + j)).getD (Config.unwrittenByte (a + j))

/-- `W REG, v` (R126). -/
def regWrite (p : Platform) (off : Nat) (v : Word) : Move := .write (p.regBase + off) 4 (v.setWidth 64)

/-- code(m) of R127. -/
def modeCode : Mode → Nat
  | .m444 => 0
  | .m422 => 1
  | .m420 => 2
  | .m411 => 3

/-- The commands that read every byte of their src region (R163, R164, R193, R194, R222, R250, R301, R303). -/
def readsWholeSrc : Instr → Bool
  | .fdct | .idct | .quant _ | .dequant _ | .zzenc | .hist | .subs _ | .ups _ => true
  | .nop | .qtab _ | .zzdec | .tbuild _ | .henc | .hdec => false

/-! ### 8x8_DCT_transform (R161 to R164) -/

/-- T[m], m = 0..31, written out (R161). -/
def cosines : List Double :=
  [0x3FF0000000000000, 0x3FEF6297CFF75CB0, 0x3FED906BCF328D46, 0x3FEA9B66290EA1A3,
   0x3FE6A09E667F3BCD, 0x3FE1C73B39AE68C8, 0x3FD87DE2A6AEA963, 0x3FC8F8B83C69A60B,
   0x0000000000000000, 0xBFC8F8B83C69A60B, 0xBFD87DE2A6AEA963, 0xBFE1C73B39AE68C8,
   0xBFE6A09E667F3BCD, 0xBFEA9B66290EA1A3, 0xBFED906BCF328D46, 0xBFEF6297CFF75CB0,
   0xBFF0000000000000, 0xBFEF6297CFF75CB0, 0xBFED906BCF328D46, 0xBFEA9B66290EA1A3,
   0xBFE6A09E667F3BCD, 0xBFE1C73B39AE68C8, 0xBFD87DE2A6AEA963, 0xBFC8F8B83C69A60B,
   0x0000000000000000, 0x3FC8F8B83C69A60B, 0x3FD87DE2A6AEA963, 0x3FE1C73B39AE68C8,
   0x3FE6A09E667F3BCD, 0x3FEA9B66290EA1A3, 0x3FED906BCF328D46, 0x3FEF6297CFF75CB0]

/-- COS(x, u) (R161). -/
def cosOf (x u : Nat) : Double := cosines.getD ((2 * x + 1) * u % 32) 0

/-- CU(u) (R162). -/
def cuOf (u : Nat) : Double :=
  match u with
  | 0 => 0x3FE6A09E667F3BCD
  | _ => 0x3FF0000000000000

/-- The sum s of R163, x outer and y inner. -/
def fdctSum (b : List Int) (u v : Nat) : Double :=
  (List.range 8).foldl (fun s x =>
    (List.range 8).foldl (fun s y =>
      f64Add s (f64Mul (f64Mul (f64OfInt (b.getD (8 * x + y) 0)) (cosOf x u)) (cosOf y v))) s) 0

/-- F of R163. -/
def fdctOut (b : List Int) : List Double :=
  (List.range 8).flatMap fun u => (List.range 8).map fun v =>
    f64Mul (f64Mul (f64Mul 0x3FD0000000000000 (cuOf u)) (cuOf v)) (fdctSum b u v)

/-- The sum s of R164, u outer and v inner. -/
def idctSum (f : List Double) (x y : Nat) : Double :=
  (List.range 8).foldl (fun s u =>
    (List.range 8).foldl (fun s v =>
      f64Add s (f64Mul (f64Mul (f64Mul (f64Mul (cuOf u) (cuOf v)) (f.getD (8 * u + v) 0)) (cosOf x u)) (cosOf y v))) s) 0

/-- r of R164. -/
def idctOut (f : List Double) : List Double :=
  (List.range 8).flatMap fun x => (List.range 8).map fun y => f64Mul 0x3FD0000000000000 (idctSum f x y)

/-! ### Quantizer (R190, R191) -/

/-- BASE, row by row (R191). -/
def baseRows : List (List Nat) :=
  [[16, 11, 10, 16, 24, 40, 51, 61],
   [12, 12, 14, 19, 26, 58, 60, 55],
   [14, 13, 16, 24, 40, 57, 69, 56],
   [14, 17, 22, 29, 51, 87, 80, 62],
   [18, 22, 37, 56, 68, 109, 103, 77],
   [24, 35, 55, 64, 81, 104, 113, 92],
   [49, 64, 78, 87, 103, 121, 120, 101],
   [72, 92, 95, 98, 112, 100, 103, 99]]

/-- lambda of R190. -/
def lambdaOf (q : Nat) : Int := if q < 50 then 5000 / (q : Int) else 200 - 2 * (q : Int)

/-- Qtab(q)[i][j] of R190, as the rule writes it. -/
def qtabEntry (q i j : Nat) : Int := sat ((((baseRows.getD i []).getD j 0 : Nat) * lambdaOf q + 50) / 100) 1 255

/-- Element k of Qtab(q), k = 8i + j. -/
def qtabAt (q k : Nat) : Int := qtabEntry q (k / 8) (k % 8)

/-! ### Zigzag (R220 to R224) -/

/-- The zigzag order by its generating rule: the anti-diagonals, rows downwards on an even one, upwards on an odd one
(R220). -/
def zigzagWalk : List Nat :=
  (List.range 15).flatMap fun d =>
    let rows := (List.range 8).filter fun r => decide (r ≤ d ∧ d - r < 8)
    (if d % 2 = 0 then rows.reverse else rows).map fun r => 8 * r + (d - r)

/-- ZZ[k]. -/
def zz (k : Nat) : Nat := zigzagWalk.getD k 0

/-- One byte of the stream (R7, `byte`). -/
def streamByte (v : Int) : Byte := BitVec.ofInt 8 (sat8 v)

/-- The fillers and the pair for a nonzero value after `run` zeros: the `while run ≥ 16` of R222; `n` bounds its rounds,
and a block needs at most 3. -/
def pairBytes (n run : Nat) (v : Int) : List Byte :=
  match n with
  | 0 => [BitVec.ofNat 8 run, streamByte v]
  | n + 1 => if 16 ≤ run then [0x0F, 0x00] ++ pairBytes n (run - 16) v else [BitVec.ofNat 8 run, streamByte v]

/-- The loop of R222 at position k: the bytes so far and the pending run. -/
def zigzagStep (z : List Int) (st : List Byte × Nat) (k : Nat) : List Byte × Nat :=
  if z.getD (zz k) 0 = 0 then (st.1, st.2 + 1) else (st.1 ++ pairBytes 4 st.2 (z.getD (zz k) 0), 0)

/-- The stream of a block (R222). -/
def streamOf (z : List Int) (prev : Int) : List Byte :=
  (((List.range 63).map (· + 1)).foldl (zigzagStep z) ([streamByte (z.getD 0 0 - prev)], 0)).1 ++ [0x00, 0x00]

/-- What the loop of R224 finds in the bytes that follow the DC byte: the values placed with their positions, the bytes
consumed, and whether the block was malformed. -/
structure Placed where
  values : List (Nat × Int)
  consumed : Nat
  malformed : Bool
deriving DecidableEq, Repr

/-- The loop of R224 from zigzag position cur. -/
def placePairs : List Byte → Nat → Placed
  | [], _ => ⟨[], 0, true⟩
  | [_], _ => ⟨[], 1, true⟩
  | rb :: vb :: rest, cur =>
    if rb.toNat = 0 ∧ vb.toInt = 0 then ⟨[], 2, false⟩
    else if rb.toNat = 15 ∧ vb.toInt = 0 then
      if 64 < cur + 16 then ⟨[], 2, true⟩
      else
        let p := placePairs rest (cur + 16)
        ⟨p.values, p.consumed + 2, p.malformed⟩
    else if 63 < cur + rb.toNat then ⟨[], 2, true⟩
    else
      let p := placePairs rest (cur + rb.toNat + 1)
      ⟨(cur + rb.toNat, vb.toInt) :: p.values, p.consumed + 2, p.malformed⟩

/-- The block a list of placements makes: DC at 0, then z[ZZ[p]] <- v in order. -/
def placedBlock (dc : Int) (values : List (Nat × Int)) : List Int :=
  values.foldl (fun z pv => z.set (zz pv.1) pv.2) (dc :: List.replicate 63 0)

/-! ### Huffman (R250 to R258) -/

/-- cnt[c] of R250. -/
def occurrences (bs : List Byte) (c : Nat) : Nat := bs.count (BitVec.ofNat 8 c)

/-- The symbols that occur, in ascending order (R250). -/
def occurring (bs : List Byte) : List Nat := (List.range 256).filter fun c => decide (BitVec.ofNat 8 c ∈ bs)

/-- The symbol table HIST writes (R250). -/
def histogramBytes (bs : List Byte) : List Byte :=
  (occurring bs).flatMap fun c => [BitVec.ofNat 8 c, 0, 0, 0] ++ leBytes 4 (occurrences bs c)

/-- The entries of the symbol table HIST writes. -/
def histogramOf (bs : List Byte) : List (Byte × Nat) := (occurring bs).map fun c => (BitVec.ofNat 8 c, occurrences bs c)

/-- LMEM holds a symbol table at a: byte 0 and bytes 4 to 7 of each entry; bytes 1 to 3 may be anything (R252). -/
abbrev HoldsTable (s : State) (a : Nat) (t : List (Byte × Nat)) : Prop :=
  ∀ k, (h : k < t.length) →
    s.lmem.get? (a + 8 * k) = some t[k].1 ∧ t[k].2 < 2 ^ 32 ∧ s.holds (a + 8 * k + 4) (leBytes 4 t[k].2)

/-- The table of a symbol table: 1 to 256 entries, no symbol twice (R251). -/
abbrev IsTable (t : List (Byte × Nat)) : Prop := 1 ≤ t.length ∧ t.length ≤ 256 ∧ (t.map Prod.fst).Nodup

/-- The frequency of node i. -/
def freqOf (nodes : List Node) (i : Nat) : Nat :=
  match nodes[i]? with
  | some (.leaf _ f) => f
  | some (.internal f _ _) => f
  | none => 0

/-- a is the argmin of (freq, index) over the live set (R251). -/
def IsArgmin (nodes : List Node) (live : List Nat) (a : Nat) : Prop :=
  a ∈ live ∧ ∀ i ∈ live, freqOf nodes a < freqOf nodes i ∨ (freqOf nodes a = freqOf nodes i ∧ a ≤ i)

/-- The loop of R251 from an arena and a live set to the arena it ends with. -/
inductive Merges : List Node → List Nat → List Node → Prop
  | done (nodes : List Node) (root : Nat) : Merges nodes [root] nodes
  | merge (nodes : List Node) (live : List Nat) (a b : Nat) (out : List Node) :
      IsArgmin nodes live a → IsArgmin nodes (live.erase a) b →
      Merges (nodes ++ [.internal (freqOf nodes a + freqOf nodes b) (some a) (some b)])
        ((live.erase a).erase b ++ [nodes.length]) out →
      Merges nodes live out

/-- The path of edges p leads from node i to node j, false being a left edge and true a right one (R253). -/
inductive Path (nodes : List Node) : Nat → List Bool → Nat → Prop
  | here (i : Nat) : Path nodes i [] i
  | left (i f k j : Nat) (r : Option Nat) (p : List Bool) :
      nodes[i]? = some (.internal f (some k) r) → Path nodes k p j → Path nodes i (false :: p) j
  | right (i f k j : Nat) (l : Option Nat) (p : List Bool) :
      nodes[i]? = some (.internal f l (some k)) → Path nodes k p j → Path nodes i (true :: p) j

/-- The code of symbol c in a code table. -/
def codeAt (h : Huffman) (c : Nat) : List Bool := h.codes.getD c []

/-- Bit k of a bit string as a number, 0 past its end. -/
def bitNumber (bits : List Bool) (k : Nat) : Nat := (bits.getD k false).toNat

/-- The n bytes of a packed bit string, most significant bit first (R256, R257). -/
def packed (n : Nat) (bits : List Bool) : List Byte :=
  (List.range n).map fun j => BitVec.ofNat 8
    (bitNumber bits (8 * j) * 128 + bitNumber bits (8 * j + 1) * 64 + bitNumber bits (8 * j + 2) * 32
      + bitNumber bits (8 * j + 3) * 16 + bitNumber bits (8 * j + 4) * 8 + bitNumber bits (8 * j + 5) * 4
      + bitNumber bits (8 * j + 6) * 2 + bitNumber bits (8 * j + 7))

/-- The code table's write-out (R253): 256 entries of 40 bytes. -/
def codeTableBytes (h : Huffman) : List Byte :=
  (List.range 256).flatMap fun c =>
    [BitVec.ofNat 8 (codeAt h c).length, 0, 0, 0, 0, 0, 0, 0] ++ packed 32 (codeAt h c)

/-- The loop of R256 over the bytes: the bits, or none at a byte with no code; and the bytes read. -/
def encodeBytes (h : Huffman) : List Byte → Option (List Bool) × Nat
  | [] => (some [], 0)
  | b :: bs =>
    if (codeAt h b.toNat).length = 0 then (none, 1)
    else ((encodeBytes h bs).1.map (codeAt h b.toNat ++ ·), (encodeBytes h bs).2 + 1)

/-- How the loop of R258 ends. -/
inductive Decoded where
  | symbols (syms : List Byte)
  | raised (code : Byte)
deriving DecidableEq, Repr

/-- The symbol before those still to come. -/
def Decoded.prepend (b : Byte) : Decoded → Decoded
  | .symbols syms => .symbols (b :: syms)
  | .raised code => .raised code

/-- The loop of R258 over the bits, from a node, with room for `room` more symbols: how it ends, and the bits read. -/
def decodeWalk (h : Huffman) : List Bool → Nat → Nat → Decoded × Nat
  | [], node, _ => (if node = h.root then .symbols [] else .raised 0x0F, 0)
  | bit :: bits, node, room =>
    match h.nodes[node]? with
    | some (.internal _ l r) =>
      match if bit then r else l with
      | none => (.raised 0x0E, 1)
      | some nxt =>
        match h.nodes[nxt]? with
        | some (.leaf sym _) =>
          match room with
          | 0 => (.raised 0x09, 1)
          | room + 1 =>
            ((decodeWalk h bits h.root room).1.prepend sym, (decodeWalk h bits h.root room).2 + 1)
        | _ => ((decodeWalk h bits nxt room).1, (decodeWalk h bits nxt room).2 + 1)
    | _ => (.raised 0x0E, 1)

/-- Payload bit k of the bytes (R257). -/
def payloadBit (bs : List Byte) (k : Nat) : Bool := (bs.getD (k / 8) 0).getLsbD (7 - k % 8)

/-- The first n payload bits of the bytes. -/
def payloadBits (bs : List Byte) (n : Nat) : List Bool := (List.range n).map (payloadBit bs)

/-! ### Chroma (R300 to R303) -/

/-- fx and fy of R300. -/
def factors : Mode → Nat × Nat
  | .m444 => (1, 1)
  | .m422 => (2, 1)
  | .m420 => (2, 2)
  | .m411 => (4, 1)

/-- A sample of a plane of width w (R300). -/
def sampleAt (p : List Byte) (w x y : Nat) : Nat := (p.getD (y * w + x) 0).toNat

/-- The plane SUBS writes (R301, R302). -/
def subsampled (m : Mode) (p : List Byte) (W H : Nat) : List Byte :=
  let fx := (factors m).1
  let fy := (factors m).2
  let n := fx * fy
  (List.range (H / fy)).flatMap fun j => (List.range (W / fx)).map fun i =>
    let sum := ((List.range fy).map fun b => ((List.range fx).map fun a => sampleAt p W (fx * i + a) (fy * j + b)).sum).sum
    BitVec.ofNat 8 ((sum + n / 2) / n)

/-- The plane UPS writes (R303). -/
def upsampled (m : Mode) (p : List Byte) (w h : Nat) : List Byte :=
  let fx := (factors m).1
  let fy := (factors m).2
  (List.range (h * fy)).flatMap fun y => (List.range (w * fx)).map fun x =>
    BitVec.ofNat 8 (sampleAt p w (x / fx) (y / fy))

/-! ### Binary64 (R8) -/

/-- z is RN64 of n/d units of 2^-1074 (d > 0): a finite z is a nearest finite value, the one with an even fraction on a
tie; from half a step above the largest finite value on, z is the infinity of n's sign. -/
def Rounds (n : Int) (d : Nat) (z : Double) : Prop :=
  if n.natAbs < d * ((2 ^ 54 - 1) * 2 ^ 2044) then
    f64Finite z = true ∧ ∀ w : Double, f64Finite w = true →
      (d * f64Units z - n).natAbs ≤ (d * f64Units w - n).natAbs ∧
      ((d * f64Units z - n).natAbs = (d * f64Units w - n).natAbs → f64Units w ≠ f64Units z → f64Frac z % 2 = 0)
  else f64IsInf z = true ∧ f64Neg z = decide (n < 0)

/-- The zero of a sign. -/
def signedZero (neg : Bool) : Double := if neg then 0x8000000000000000 else 0

/-- The infinity of a sign. -/
def infinity (neg : Bool) : Double := if neg then 0xFFF0000000000000 else 0x7FF0000000000000

end Sys2Proof.Statements

open Sys2Proof Sys2Proof.Machine Sys2Proof.Statements

/-! ### Encoding (spec/30_encoding.md) -/

/-- R120, R121, R123: the decoder inverts the encoder on every well-formed command. -/
def Obligations.DecodeInvertsEncode : Prop := ∀ i : Instr, i.wf = true → decode (encode i) = .ok i

/-- R123: a word the decoder reads as a command is well formed and is that command's one word. -/
def Obligations.EncodeInvertsDecode : Prop := ∀ (w : Word) (i : Instr), decode w = .ok i → i.wf = true ∧ encode i = w

/-- R121, R123: words of R127's table decode to the commands they stand for. -/
def Obligations.OpcodeWordsDecode : Prop :=
  decode 0x00000000 = .ok .nop ∧ decode 0x00000001 = .ok .fdct ∧ decode 0x00000002 = .ok .idct ∧
  decode 0x00003203 = .ok (.qtab 50) ∧ decode 0x00004B04 = .ok (.quant 75) ∧ decode 0x00006405 = .ok (.dequant 100) ∧
  decode 0x00000006 = .ok .zzenc ∧ decode 0x00000007 = .ok .zzdec ∧ decode 0x00000008 = .ok .hist ∧
  decode 0x00000009 = .ok (.tbuild false) ∧ decode 0x00000109 = .ok (.tbuild true) ∧ decode 0x0000000A = .ok .henc ∧
  decode 0x0000000B = .ok .hdec ∧ decode 0x0000020C = .ok (.subs .m420) ∧ decode 0x0000030D = .ok (.ups .m411)

/-- R124: exactly the three kinds of illegal word; each is accepted by CMD and completes with E_ILLEGAL, with no LMEM
byte, PREVDC register or hidden state written; a quality outside 1..100 is legal and completes with E_QUALITY. -/
def Obligations.IllegalWords : Prop :=
  (∀ w : Word, (∃ e, decode w = .error e) ↔
    0x0E ≤ (w.extractLsb' 0 8).toNat ∨ w.extractLsb' 16 16 ≠ 0 ∨
    ((w.extractLsb' 0 8).toNat ∈ [0x00, 0x01, 0x02, 0x06, 0x07, 0x08, 0x0A, 0x0B] ∧ w.extractLsb' 8 8 ≠ 0) ∨
    ((w.extractLsb' 0 8).toNat = 0x09 ∧ w.extractLsb' 9 7 ≠ 0) ∨
    ((w.extractLsb' 0 8).toNat ∈ [0x0C, 0x0D] ∧ w.extractLsb' 10 6 ≠ 0)) ∧
  (∀ (s : State) (w : Word), s.status.busy = false → writes s 0x0C w = .next (accepted s w)) ∧
  (∀ (s : State) (e : Illegal), decode s.latch.cmd = .error e → s.status.busy = true →
    does s .engine = .next (failed s 0x01)) ∧
  (∀ (s : State) (q : Nat), (q < 1 ∨ 100 < q) → exec (.qtab q) s = .next (failed s 0x02) ∧
    exec (.quant q) s = .next (failed s 0x02) ∧ exec (.dequant q) s = .next (failed s 0x02))

/-! ### The step (spec/10_state.md, spec/70_reset_and_hazards.md) -/

/-- R412, R355, R351 step 1: while BUSY = 1 the engine's step is `exec` of the command the latched word decodes to, when
nothing is scheduled, when the schedule says so (its entry is taken off), and when the next move is held back; while
BUSY = 0 the engine does nothing; and the word withFetchWord places is the next thing step runs, in the state R36's
acceptance of it leaves, whatever BUSY was (a CMD write while BUSY = 1 would be dropped). The model's choices here are the
schedule (log 1), withFetchWord (log 11), and that an idle device with nothing scheduled steps to itself (log 20). -/
def Obligations.StepRunsTheLatchedCommand : Prop :=
  (∀ (s : State) (i : Instr), decode s.latch.cmd = .ok i → s.status.busy = true →
    (s.schedule = [] → step s = exec i s) ∧
    (∀ rest, s.schedule = .engine :: rest → step s = exec i { s with schedule := rest }) ∧
    (∀ m rest, s.schedule = m :: rest → s.stalls m = true → step s = exec i s)) ∧
  (∀ s : State, s.status.busy = false → s.schedule = [] → step s = .next s) ∧
  (∀ (s : State) (nbits w : Nat) (i : Instr), nbits ≤ 32 → w < 2 ^ nbits → decode (BitVec.ofNat 32 w) = .ok i →
    step (s.withFetchWord nbits w) = exec i (accepted s (BitVec.ofNat 32 w)))

/-- R32: the defined accesses of the register block are the 32-bit aligned ones; reads have no side effect; writes to
read-only registers and to reserved offsets have none; reserved offsets read 0; whatever BUSY is. That alignment is counted
from REG_BASE, and that an address in the register block is never one of the LMEM window, is the model's choice (log 9). -/
def Obligations.RegisterAccesses : Prop :=
  ∀ (s : State) (off : Nat),
    (off < 256 → off % 4 = 0 → ∃ v : Word, reads s off = .next (answeredWord s v)) ∧
    (0x34 ≤ off → off < 256 → off % 4 = 0 →
      reads s off = .next (answeredWord s 0) ∧ ∀ v, writes s off v = .next s) ∧
    (off ∈ [0x00, 0x20, 0x24, 0x30] → ∀ v, writes s off v = .next s) ∧
    (∀ (width : Nat) (v : BitVec 64), off < 256 → ¬ (width = 4 ∧ off % 4 = 0) →
      does s (.read (s.platform.regBase + off) width) = .refused (.hostAccess (s.platform.regBase + off) width) ∧
      does s (.write (s.platform.regBase + off) width v) = .refused (.hostAccess (s.platform.regBase + off) width))

/-- R33: ID and LMEMSZ read their constants, which no write and no step changes. -/
def Obligations.IdentityRegisters : Prop :=
  ∀ s : State,
    reads s 0x00 = .next (answeredWord s 0x4A504743) ∧
    reads s 0x30 = .next (answeredWord s (BitVec.ofNat 32 s.platform.lmemSize)) ∧
    (∀ v, writes s 0x00 v = .next s ∧ writes s 0x30 v = .next s) ∧
    (∀ t, step s = .next t → t.platform = s.platform)

/-- R34: CTRL reads IE in bit 0 and 0 elsewhere; a write with SRST = 0 writes IE, also while BUSY = 1; a write with
SRST = 1 performs the soft reset, which leaves IE = 0. What the soft reset leaves in a dst region that passes the end of
LMEM is the model's reading (log 6), and so is the length of an aborted SUBS's dst region where fx or fy does not divide W or
H (DESIGN CHOICE, log 22). -/
def Obligations.ControlRegister : Prop :=
  ∀ s : State,
    reads s 0x04 = .next (answeredWord s (if s.ie then 1 else 0)) ∧
    (∀ v : Word, v.getLsbD 1 = false → writes s 0x04 v = .next { s with ie := v.getLsbD 0 }) ∧
    (∀ v : Word, v.getLsbD 1 = true → writes s 0x04 v = .next (afterSoftReset s) ∧ (afterSoftReset s).ie = false)

/-- R35: every bit of STATUS as the host reads it, and what a host write to STATUS does. -/
def Obligations.StatusRegister : Prop :=
  ∀ s : State,
    (∃ v : Word, reads s 0x08 = .next (answeredWord s v) ∧
      v.getLsbD 0 = s.status.busy ∧ v.getLsbD 1 = s.status.done ∧ v.getLsbD 2 = decide (s.status.errCode ≠ 0) ∧
      v.getLsbD 3 = s.status.malformed ∧ v.getLsbD 4 = s.treeValid ∧ v.getLsbD 5 = s.status.wlost ∧
      v.extractLsb' 6 2 = 0 ∧ v.extractLsb' 8 8 = s.status.errCode ∧ v.extractLsb' 16 16 = 0) ∧
    (∀ w : Word, writes s 0x08 w =
      .next { s with status := ⟨s.status.busy, if w.getLsbD 1 then false else s.status.done, s.status.malformed,
        if w.getLsbD 5 then false else s.status.wlost, s.status.errCode⟩ })

/-- R36: acceptance; a CMD write while BUSY = 1; reads of CMD and ARG0..ARG3; ARG writes, also while BUSY = 1; the running
command uses its latched copies, and no command writes ARG0..ARG3; an illegal word is accepted and completes with
E_ILLEGAL. -/
def Obligations.CommandRegisters : Prop :=
  (∀ (s : State) (w : Word), s.status.busy = false → writes s 0x0C w = .next (accepted s w)) ∧
  (∀ (s : State) (w : Word), s.status.busy = true → writes s 0x0C w = .next (lost s)) ∧
  (∀ s : State, reads s 0x0C = .next (answeredWord s s.cmd) ∧ reads s 0x10 = .next (answeredWord s s.args.a0) ∧
    reads s 0x14 = .next (answeredWord s s.args.a1) ∧ reads s 0x18 = .next (answeredWord s s.args.a2) ∧
    reads s 0x1C = .next (answeredWord s s.args.a3)) ∧
  (∀ (s : State) (v : Word), writes s 0x10 v = .next { s with args := { s.args with a0 := v } } ∧
    writes s 0x14 v = .next { s with args := { s.args with a1 := v } } ∧
    writes s 0x18 v = .next { s with args := { s.args with a2 := v } } ∧
    writes s 0x1C v = .next { s with args := { s.args with a3 := v } }) ∧
  (∀ (s : State) (i : Instr) (a : Args),
    exec i { s with args := a } = mapNext (fun t => { t with args := a }) (exec i s)) ∧
  (∀ (s t : State) (i : Instr), exec i s = .next t → t.args = s.args) ∧
  (∀ (s : State) (w : Word) (e : Illegal), decode w = .error e → s.status.busy = false →
    does (accepted s w) .engine = .next (failed (accepted s w) 0x01)) ∧
  State.reset.cmd = 0

/-- R37: RES0 and RES1 are readable and read-only, and a step changes them only by completing a command or by a write of
SRST = 1; a command that ends with an error leaves 0 in both. -/
def Obligations.ResultRegisters : Prop :=
  (∀ s : State, reads s 0x20 = .next (answeredWord s s.res0) ∧ reads s 0x24 = .next (answeredWord s s.res1) ∧
    ∀ v, writes s 0x20 v = .next s ∧ writes s 0x24 v = .next s) ∧
  (∀ s t : State, step s = .next t → (t.res0 ≠ s.res0 ∨ t.res1 ≠ s.res1) →
    CompletionStep s t ∨ (SoftResetStep s t ∧ t.res0 = 0 ∧ t.res1 = 0)) ∧
  (∀ (s t : State) (i : Instr), exec i s = .next t → t.status.errCode ≠ 0 → t.res0 = 0 ∧ t.res1 = 0)

/-- R38: host reads and writes of PREVDC_ENC and PREVDC_DEC, and the only other steps that change them: the completion
of a ZZENC, or of a ZZDEC, that succeeds, and a write of SRST = 1. -/
def Obligations.PreviousDcRegisters : Prop :=
  (∀ s : State, reads s 0x28 = .next (answeredWord s s.prevDcEnc) ∧ reads s 0x2C = .next (answeredWord s s.prevDcDec)) ∧
  (∀ (s : State) (v : Word), s.status.busy = false → writes s 0x28 v = .next { s with prevDcEnc := v } ∧
    writes s 0x2C v = .next { s with prevDcDec := v }) ∧
  (∀ (s : State) (v : Word), s.status.busy = true → writes s 0x28 v = .next (lost s) ∧ writes s 0x2C v = .next (lost s)) ∧
  (∀ s t : State, step s = .next t → t.prevDcEnc ≠ s.prevDcEnc →
    (s.status.busy = false ∧ ∃ v rest, s.schedule = .write (s.platform.regBase + 0x28) 4 v :: rest ∧
      t.prevDcEnc = v.setWidth 32) ∨
    (CompletionStep s t ∧ decode s.latch.cmd = .ok .zzenc ∧ t.status.errCode = 0) ∨
    (SoftResetStep s t ∧ t.prevDcEnc = 0)) ∧
  (∀ s t : State, step s = .next t → t.prevDcDec ≠ s.prevDcDec →
    (s.status.busy = false ∧ ∃ v rest, s.schedule = .write (s.platform.regBase + 0x2C) 4 v :: rest ∧
      t.prevDcDec = v.setWidth 32) ∨
    (CompletionStep s t ∧ decode s.latch.cmd = .ok .zzdec ∧ t.status.errCode = 0) ∨
    (SoftResetStep s t ∧ t.prevDcDec = 0))

/-- R39, R40, R41, R42: only a TBUILD's completion, or a write of SRST = 1, changes the tree, the tree scalars or the code
table. -/
def Obligations.OnlyTbuildWritesTheTree : Prop :=
  ∀ s t : State, step s = .next t → t.huffman ≠ s.huffman →
    (CompletionStep s t ∧ ∃ ct, decode s.latch.cmd = .ok (.tbuild ct)) ∨ (SoftResetStep s t ∧ t.huffman = none)

/-- R42: TREE_VALID after a reset, after a TBUILD, after an illegal word and after every other command; its mirror; and
E_NOTABLE while it is 0. -/
def Obligations.TreeValid : Prop :=
  (∀ p : Platform, (State.resetOn p).treeValid = false) ∧
  (∀ (s : State) (v : Word), v.getLsbD 1 = true → ∃ t, writes s 0x04 v = .next t ∧ t.treeValid = false) ∧
  (∀ (s t : State) (ct : Bool), exec (.tbuild ct) s = .next t → t.treeValid = decide (t.status.errCode = 0)) ∧
  (∀ (s : State) (e : Illegal), decode s.latch.cmd = .error e → s.status.busy = true →
    ∃ t, does s .engine = .next t ∧ t.treeValid = s.treeValid) ∧
  (∀ (s t : State) (i : Instr), (∀ ct, i ≠ .tbuild ct) → exec i s = .next t → t.huffman = s.huffman) ∧
  (∀ s : State, s.statusWord.getLsbD 4 = s.treeValid) ∧
  (∀ s : State, s.treeValid = false → InRange s (larg2 s) (larg3 s) →
    (InRange s (larg0 s) (larg1 s) → Apart (larg0 s) (larg1 s) (larg2 s) (larg3 s) →
      exec .henc s = .next (failed s 0x07)) ∧
    (InRange s (larg0 s) ((larg1 s + 7) / 8) → Apart (larg0 s) ((larg1 s + 7) / 8) (larg2 s) (larg3 s) →
      exec .hdec s = .next (failed s 0x07)))

/-! ### Memory and the host interface (spec/20_memory.md) -/

/-- R87: a window access while BUSY = 1 is not performed: the step is the running command's completion, after which the
access is still the next move and BUSY = 0; then it is performed against the contents that stand there: a read answers the
little-endian value of the bytes LMEM holds. The place of the completion among the host's accesses is the model's schedule
(log 1); what a byte with no value reads as is log 4. -/
def Obligations.StalledAccessWaits : Prop :=
  ∀ (s : State) (addr width : Nat) (v : BitVec 64), s.platform.legal → WindowAccess s.platform addr width →
    (s.status.busy = true → ∀ m ∈ [Move.read addr width, Move.write addr width v],
      does s m = completion { s with schedule := m :: s.schedule } ∧
      ∀ t, does s m = .next t → t.status.busy = false ∧ t.schedule = m :: s.schedule) ∧
    (s.status.busy = false →
      (∀ bs, bs.length = width → s.holds (addr - s.platform.lmemBase) bs →
        does s (.read addr width) = .next (answered s (BitVec.ofNat 64 (leValue bs)))) ∧
      does s (.read addr width) =
        .next (answered s (BitVec.ofNat 64 (leValue (windowBytes s (addr - s.platform.lmemBase) width)))) ∧
      does s (.write addr width v) =
        .next { s with lmem := s.lmem.put (addr - s.platform.lmemBase) (leBytes width v.toNat) })

/-- R88: a host access is refused exactly when it is neither a defined register access nor a defined access of the LMEM
window. That alignment is counted from the window's base is the model's choice (log 9). -/
def Obligations.OtherAccessesAreRefused : Prop :=
  ∀ (s : State) (addr width : Nat) (v : BitVec 64), s.platform.legal →
    ((∃ r, does s (.read addr width) = .refused r) ↔
      ¬ (RegisterAccess s.platform addr width ∨ WindowAccess s.platform addr width)) ∧
    ((∃ r, does s (.write addr width v) = .refused r) ↔
      ¬ (RegisterAccess s.platform addr width ∨ WindowAccess s.platform addr width))

/-- R81, R88, R401: a window read answers the little-endian value of the bytes LMEM holds, whatever put them there; a write
stores its value's bytes, least significant first, so a read of the same bytes returns it, and touches no other byte;
reading twice returns the same value; and a byte that holds no value reads as a draw, which stays
a byte without a value. That one draw stands for an address until a write is the model's reading (log 4). -/
def Obligations.WindowReadsBackWrites : Prop :=
  ∀ (s : State) (addr width : Nat) (v : BitVec 64), s.platform.legal → WindowAccess s.platform addr width →
    s.status.busy = false →
    (∀ bs, bs.length = width → s.holds (addr - s.platform.lmemBase) bs →
      does s (.read addr width) = .next (answered s (BitVec.ofNat 64 (leValue bs)))) ∧
    (∃ t, does s (.write addr width v) = .next t ∧ t.holds (addr - s.platform.lmemBase) (leBytes width v.toNat) ∧
      does t (.read addr width) = .next (answered t (BitVec.ofNat 64 (v.toNat % 256 ^ width))) ∧
      ∀ a, ¬ (addr ≤ s.platform.lmemBase + a ∧ s.platform.lmemBase + a < addr + width) →
        t.lmem.get? a = s.lmem.get? a) ∧
    (∃ x, does s (.read addr width) = .next (answered s x) ∧
      does (answered s x) (.read addr width) = .next (answered (answered s x) x)) ∧
    (s.lmem.get? (addr - s.platform.lmemBase) = none → does s (.read addr 1) =
      .next (answered s ((Config.unwrittenByte (addr - s.platform.lmemBase)).setWidth 64)))

/-- R126: WAIT goes on until BUSY reads 0, and CHECK goes on exactly when ERRCODE is 0. That WAIT's reads of BUSY = 1 leave
no trace, and what a stopped program leaves, are the model's choices (log 7, log 8). -/
def Obligations.WaitAndCheck : Prop :=
  ∀ s : State,
    (s.status.busy = true → does s .wait = completion { s with schedule := .wait :: s.schedule }) ∧
    (s.status.busy = false → ∃ v : Word, does s .wait = .next (answeredWord s v) ∧ v.getLsbD 0 = false) ∧
    (s.status.errCode = 0 → does s .check = .next (answeredWord s s.statusWord)) ∧
    (s.status.errCode ≠ 0 → does s .check =
      .next { answeredWord s s.statusWord with schedule := [], hostStop := some s.status.errCode })

/-- R127: the expansion of every mnemonic, of a bare word, of SETDC and of ACK; from an idle device, the moves of a command's
pseudo-instruction leave its operands in ARG0 and on, its word accepted, and WAIT to come, and the next step is the
command's completion; a bare word writes no ARG register; SETDC sets both previous DCs; ACK clears DONE. That WAIT is one
move, held while BUSY = 1, is the model's choice (log 7), and so is the schedule that holds the moves (log 1). -/
def Obligations.PseudoInstructionIssuesItsCommand : Prop :=
  (∀ (s : State) (i : Instr) (ops : List Word), i.wf = true → ops.length ≤ 4 → s.status.busy = false →
    s.schedule = [] →
    ∃ t, Sys2Proof.core.run (ops.length + 1) { s with schedule := s.platform.issue i ops } = .next t ∧
      t = accepted { s with
        args := ⟨ops.getD 0 s.args.a0, ops.getD 1 s.args.a1, ops.getD 2 s.args.a2, ops.getD 3 s.args.a3⟩
        schedule := [.wait] } (encode i) ∧
      step t = exec i t) ∧
  (∀ (p : Platform) (a b c d : Word) (q : Nat) (m : Mode),
    let args1 := [regWrite p 0x10 a]
    let args2 := [regWrite p 0x10 a, regWrite p 0x14 b]
    let args3 := [regWrite p 0x10 a, regWrite p 0x14 b, regWrite p 0x18 c]
    let args4 := [regWrite p 0x10 a, regWrite p 0x14 b, regWrite p 0x18 c, regWrite p 0x1C d]
    let cmd := fun w : Nat => [regWrite p 0x0C (BitVec.ofNat 32 w), .wait]
    p.asmNop = cmd 0x00000000 ∧ p.asmFdct a b = args2 ++ cmd 0x00000001 ∧ p.asmIdct a b = args2 ++ cmd 0x00000002 ∧
    p.asmQtab q a = args1 ++ cmd (256 * q + 0x03) ∧ p.asmQuant q a b = args2 ++ cmd (256 * q + 0x04) ∧
    p.asmDequant q a b = args2 ++ cmd (256 * q + 0x05) ∧ p.asmZzenc a b c = args3 ++ cmd 0x00000006 ∧
    p.asmZzdec a b c = args3 ++ cmd 0x00000007 ∧ p.asmHist a b c = args3 ++ cmd 0x00000008 ∧
    p.asmTbuild a b = args2 ++ cmd 0x00000009 ∧ p.asmTbuildCt a b c = args3 ++ cmd 0x00000109 ∧
    p.asmHenc a b c d = args4 ++ cmd 0x0000000A ∧ p.asmHdec a b c d = args4 ++ cmd 0x0000000B ∧
    p.asmSubs m a b c d = args4 ++ cmd (256 * modeCode m + 0x0C) ∧
    p.asmUps m a b c d = args4 ++ cmd (256 * modeCode m + 0x0D) ∧
    p.asmWord a = [regWrite p 0x0C a, .wait] ∧ p.asmSetDc a b = [regWrite p 0x28 a, regWrite p 0x2C b] ∧
    p.asmAck = [regWrite p 0x08 0x00000002]) ∧
  (∀ (s : State) (w : Word), s.status.busy = false →
    Sys2Proof.core.run 1 { s with schedule := s.platform.asmWord w } = .next (accepted { s with schedule := [.wait] } w)) ∧
  (∀ (s : State) (e d : Word), s.status.busy = false →
    Sys2Proof.core.run 2 { s with schedule := s.platform.asmSetDc e d } =
      .next { s with prevDcEnc := e, prevDcDec := d, schedule := [] }) ∧
  (∀ s : State, Sys2Proof.core.run 1 { s with schedule := s.platform.asmAck } =
    .next { s with status := { s.status with done := false }, schedule := [] })

/-- R401, R82: a command faults in the model exactly where it reads a byte that holds no value. It faults only at such a
byte of its src region, and it is never refused. A command that passes its checks and reads its whole src region faults
where any byte of it holds none; TBUILD where byte 0 or one of bytes 4 to 7 of an entry does; ZZDEC, HENC and HDEC where
the next byte does, the bytes before it having ended neither the block nor the command. That an error raised before a byte is
read comes before its fault is the model's reading (log 21). -/
def Obligations.FaultsOnlyAtBytesWithNoValue : Prop :=
  (∀ (s : State) (i : Instr),
    (∀ f, exec i s = .fault f → ∃ r a, srcRegion i s.latch.args = some r ∧ r.start ≤ a ∧ a < r.start + r.len ∧
      s.lmem.get? a = none ∧ f = .noValue a) ∧
    (∀ r, exec i s ≠ .refused r)) ∧
  (∀ (s : State) (i : Instr) (r : Region) (a : Nat), readsWholeSrc i = true → precheck i s = none →
    srcRegion i s.latch.args = some r → r.start ≤ a → a < r.start + r.len → s.lmem.get? a = none →
    ∃ b, r.start ≤ b ∧ b < r.start + r.len ∧ s.lmem.get? b = none ∧ exec i s = .fault (.noValue b)) ∧
  (∀ (s : State) (ct : Bool) (k j : Nat), precheck (.tbuild ct) s = none → k < larg1 s →
    (j = 0 ∨ (4 ≤ j ∧ j < 8)) → s.lmem.get? (larg0 s + 8 * k + j) = none →
    ∃ b, larg0 s ≤ b ∧ b < larg0 s + 8 * larg1 s ∧ s.lmem.get? b = none ∧
      exec (.tbuild ct) s = .fault (.noValue b)) ∧
  (∀ s : State, precheck .zzdec s = none →
    (s.lmem.get? (larg0 s) = none → exec .zzdec s = .fault (.noValue (larg0 s))) ∧
    (∀ (b : Byte) (bs : List Byte), s.holds (larg0 s) (b :: bs) → bs.length + 1 < larg1 s →
      bs.length < (placePairs (bs ++ [0]) 1).consumed → s.lmem.get? (larg0 s + (bs.length + 1)) = none →
      exec .zzdec s = .fault (.noValue (larg0 s + (bs.length + 1))))) ∧
  (∀ (s : State) (h : Huffman) (bs : List Byte), precheck .henc s = none → s.huffman = some h →
    s.holds (larg0 s) bs → bs.length < larg1 s → (encodeBytes h bs).1 ≠ none →
    s.lmem.get? (larg0 s + bs.length) = none → exec .henc s = .fault (.noValue (larg0 s + bs.length))) ∧
  (∀ (s : State) (h : Huffman) (bs : List Byte), precheck .hdec s = none → s.huffman = some h →
    s.holds (larg0 s) bs → 8 * bs.length < larg1 s →
    (decodeWalk h (payloadBits bs (8 * bs.length)) h.root (larg3 s)).1 ≠ .raised 0x0E →
    (decodeWalk h (payloadBits bs (8 * bs.length)) h.root (larg3 s)).1 ≠ .raised 0x09 →
    s.lmem.get? (larg0 s + bs.length) = none → exec .hdec s = .fault (.noValue (larg0 s + bs.length)))

/-- R355, R412: every command whose src region holds a value in each of its bytes completes, in every state. -/
def Obligations.ReadableCommandsComplete : Prop :=
  ∀ (s : State) (i : Instr),
    (∀ r, srcRegion i s.latch.args = some r → ∀ a, r.start ≤ a → a < r.start + r.len → s.lmem.get? a ≠ none) →
    ∃ t, exec i s = .next t ∧ t.status.busy = false ∧ t.status.done = true

/-- R82: a command that completes leaves every byte outside its dst region as it was, and every byte of LMEM where it has
no dst region. -/
def Obligations.CommandsWriteOnlyTheirDst : Prop :=
  ∀ (s t : State) (i : Instr), exec i s = .next t → ∀ a,
    (∀ r, dstRegion i s.latch.args = some r → ¬ (r.start ≤ a ∧ a < r.start + r.len)) →
    t.lmem.get? a = s.lmem.get? a

/-- R36 to R38, R42, R352, R355: what no command changes, and the commands that alone change the rest. -/
def Obligations.CommandFrame : Prop :=
  ∀ (s t : State) (i : Instr), exec i s = .next t →
    t.platform = s.platform ∧ t.ie = s.ie ∧ t.cmd = s.cmd ∧ t.args = s.args ∧ t.latch = s.latch ∧
    t.schedule = s.schedule ∧ t.responses = s.responses ∧ t.hostStop = s.hostStop ∧
    t.status.wlost = s.status.wlost ∧ t.status.busy = false ∧ t.status.done = true ∧
    (i ≠ .zzenc → t.prevDcEnc = s.prevDcEnc) ∧ (i ≠ .zzdec → t.prevDcDec = s.prevDcDec ∧ t.status.malformed = false) ∧
    ((∀ ct, i ≠ .tbuild ct) → t.huffman = s.huffman) ∧
    (i ≠ .henc → i ≠ .hdec → t.drawCount = s.drawCount)

/-! ### Errors, completion and the interrupt (spec/60_exceptions.md) -/

/-- R351: the checks of steps 2 to 6 in their order, the first failing one giving the code, before anything is read or
written; TBUILD's failures clear the tree. The argument checks and the regions of each command are stated with its own
result. -/
def Obligations.CheckOrder : Prop :=
  ∀ (s : State) (i : Instr),
    let fail := fun code => Host.Outcome.next (if dropsTree i then failedNoTree s code else failed s code)
    let inRange := ∀ r ∈ regions i s.latch.args, r.start + r.len ≤ s.platform.lmemSize
    let aligned := ∀ r ∈ regions i s.latch.args, r.start % r.align = 0
    let apart := refusesOverlap i = true → ∀ r q, srcRegion i s.latch.args = some r → dstRegion i s.latch.args = some q →
      Apart r.start r.len q.start q.len
    (∀ e, argError i s.latch.args = some e → exec i s = fail e.code) ∧
    (argError i s.latch.args = none →
      (¬ inRange → exec i s = fail 0x04) ∧
      (inRange → ¬ aligned → exec i s = fail 0x05) ∧
      (inRange → aligned → ¬ apart → exec i s = fail 0x06) ∧
      (inRange → aligned → apart → (i = .henc ∨ i = .hdec) → s.treeValid = false → exec i s = fail 0x07))

/-- R352: the state after an error, for every command and for an illegal word; and the next accepted command finds the
device ready, its acceptance clearing ERR and ERRCODE. -/
def Obligations.ErrorsLeaveTheirState : Prop :=
  (∀ (s t : State) (i : Instr), exec i s = .next t → t.status.errCode ≠ 0 →
    t.status = ⟨false, true, false, s.status.wlost, t.status.errCode⟩ ∧ t.status.err = true ∧
    t.res0 = 0 ∧ t.res1 = 0 ∧ t.prevDcEnc = s.prevDcEnc ∧ t.prevDcDec = s.prevDcDec ∧
    t.huffman = (if dropsTree i then none else s.huffman) ∧
    t.cmd = s.cmd ∧ t.args = s.args ∧ t.ie = s.ie ∧
    (precheck i s ≠ none → t.lmem = s.lmem) ∧
    (i ≠ .henc → i ≠ .hdec → t.lmem = s.lmem) ∧
    (∀ a, ¬ (larg2 s ≤ a ∧ a < larg2 s + larg3 s) → t.lmem.get? a = s.lmem.get? a)) ∧
  (∀ (s : State) (e : Illegal), decode s.latch.cmd = .error e → s.status.busy = true →
    does s .engine = .next (failed s 0x01)) ∧
  (∀ (s t : State) (i : Instr) (w : Word), exec i s = .next t →
    writes t 0x0C w = .next (accepted t w) ∧ (accepted t w).status.err = false)

/-- R353: LMEM after an execute-phase error. IDCT, QUANT, ZZENC and TBUILD have written nothing; HENC and HDEC leave in each
byte of their dst region a draw, which no proof can see, and change no other byte. How the draws are numbered, and that
drawCount grows by LARG3, is the model's choice (DESIGN CHOICE, log 5). -/
def Obligations.MemoryAfterExecuteError : Prop :=
  (∀ (s t : State) (i : Instr), exec i s = .next t → t.status.errCode ≠ 0 → i ≠ .henc → i ≠ .hdec →
    t.lmem = s.lmem ∧ t.drawCount = s.drawCount) ∧
  (∀ (s t : State) (i : Instr), (i = .henc ∨ i = .hdec) → precheck i s = none → exec i s = .next t →
    t.status.errCode ≠ 0 →
    (i = .henc → t.status.errCode = 0x0D ∨ t.status.errCode = 0x09) ∧
    (i = .hdec → t.status.errCode = 0x0E ∨ t.status.errCode = 0x09 ∨ t.status.errCode = 0x0F) ∧
    (∀ j, j < larg3 s → t.lmem.get? (larg2 s + j) = some (Config.drawByte (s.drawCount + j))) ∧
    (∀ a, ¬ (larg2 s ≤ a ∧ a < larg2 s + larg3 s) → t.lmem.get? a = s.lmem.get? a) ∧
    t.drawCount = s.drawCount + larg3 s)

/-- R360: IRQ = IE and DONE; it rises at a completion when IE = 1, and at the write that sets IE when DONE is 1; ACK, the
acceptance of a command, IE <- 0 and a reset clear it. -/
def Obligations.InterruptOutput : Prop :=
  (∀ s : State, s.irq = (s.ie && s.status.done)) ∧
  (∀ (s t : State) (i : Instr), exec i s = .next t → t.irq = s.ie) ∧
  (∀ s : State, ∃ t, writes s 0x04 1 = .next t ∧ t.irq = s.status.done) ∧
  (∀ s : State, ∃ t, writes s 0x08 2 = .next t ∧ t.irq = false) ∧
  (∀ (s : State) (w : Word), s.status.busy = false → ∃ t, writes s 0x0C w = .next t ∧ t.irq = false) ∧
  (∀ s : State, ∃ t, writes s 0x04 0 = .next t ∧ t.irq = false) ∧
  (∀ s : State, ∃ t, writes s 0x04 2 = .next t ∧ t.irq = false) ∧
  State.reset.irq = false

/-! ### Reset and invariants (spec/70_reset_and_hazards.md, spec/10_state.md) -/

/-- R400, R401: the state after power-on reset, on every platform: each register, the latch and the hidden bit at its
value, no LMEM byte holding a value, IRQ 0, the device idle. That an idle device with nothing scheduled steps to itself is
the model's choice (log 20). -/
def Obligations.ResetValues : Prop :=
  (∀ p : Platform,
    let s := State.resetOn p
    s.platform = p ∧ s.ie = false ∧ s.statusWord = 0 ∧ s.cmd = 0 ∧ s.args = ⟨0, 0, 0, 0⟩ ∧ s.res0 = 0 ∧ s.res1 = 0 ∧
    s.prevDcEnc = 0 ∧ s.prevDcDec = 0 ∧ s.latch = ⟨0, ⟨0, 0, 0, 0⟩⟩ ∧ s.treeValid = false ∧ s.irq = false ∧
    (∀ a, s.lmem.get? a = none) ∧ step s = .next s) ∧
  State.reset = State.resetOn State.reset.platform ∧ State.reset.platform.lmemSize = 65536

/-- R402, R400: a write of SRST = 1, whatever BUSY is, is one step that takes every register and hidden state item to its
reset value and leaves LMEM as it was, but for the dst region of a command it aborts, where each byte takes a draw. That
a region passing the end of LMEM is drawn up to that end is the model's reading (log 6), and the length of an aborted SUBS's
dst region where fx or fy does not divide W or H is the model's choice (DESIGN CHOICE, log 22). -/
def Obligations.SoftReset : Prop :=
  ∀ (s : State) (v : Word), v.getLsbD 1 = true →
    writes s 0x04 v = .next (afterSoftReset s) ∧
    (s.status.busy = false → (afterSoftReset s).lmem = s.lmem ∧ (afterSoftReset s).drawCount = s.drawCount) ∧
    (∀ a, (∀ r, abortedRegion s = some r → ¬ (r.start ≤ a ∧ a < r.start + r.len)) →
      (afterSoftReset s).lmem.get? a = s.lmem.get? a) ∧
    (∀ r, abortedRegion s = some r → r.start + r.len ≤ s.platform.lmemSize → ∀ j, j < r.len →
      (afterSoftReset s).lmem.get? (r.start + j) = some (Config.drawByte (s.drawCount + j))) ∧
    (afterSoftReset s).irq = false ∧ (afterSoftReset s).statusWord = 0

/-- Every step keeps the invariant of the device: LMEM in canonical form and inside LMEM_SIZE (R46), no completion shown
while a command runs and only the 16 codes (R35, R350), CMD the latched word (R44), any tree well formed (R40). -/
def Obligations.StepKeepsInvariant : Prop := ∀ s t : State, s.Inv → step s = .next t → t.Inv

/-- The state after reset meets the invariant. Its base addresses are the model's choice (log 2). -/
def Obligations.ResetMeetsInvariant : Prop := State.reset.Inv

/-! ### The commands (spec/40_block_transform.md to spec/45_system.md) -/

/-- R330: NOP completes with 0 in RES0 and RES1 and changes nothing else but STATUS; its word is the only legal one with
OP = 0. -/
def Obligations.NopResult : Prop :=
  decode 0x00000000 = .ok .nop ∧
  (∀ w : Word, w.extractLsb' 0 8 = 0 → w ≠ 0 → ∃ e, decode w = .error e) ∧
  (∀ s : State, exec .nop s =
    .next { s with status := ⟨false, true, false, s.status.wlost, 0x00⟩, res0 := 0, res1 := 0 }) ∧
  (∃ t, exec .nop (accepted State.reset 0) = .next t ∧ t.statusWord = 0x00000002 ∧ t.res0 = 0 ∧ t.res1 = 0)

/-- R163 with R161 and R162: FDCT's errors and its result, the sums in the rule's order; a block of zeros gives 64 times +0.0,
and no block gives an output of -0.0. -/
def Obligations.FdctResult : Prop :=
  decode 0x00000001 = .ok .fdct ∧ fdctOut (List.replicate 64 0) = List.replicate 64 0x0000000000000000 ∧
  (∀ b : List Int, ∀ x ∈ fdctOut b, x ≠ 0x8000000000000000) ∧
  ∀ s : State,
    let ranged := InRange s (larg0 s) 256 ∧ InRange s (larg1 s) 512
    let aligned := larg0 s % 4 = 0 ∧ larg1 s % 8 = 0
    (¬ ranged → exec .fdct s = .next (failed s 0x04)) ∧
    (ranged → ¬ aligned → exec .fdct s = .next (failed s 0x05)) ∧
    (ranged → aligned → ∀ b, s.holdsI32Block (larg0 s) b →
      exec .fdct s = .next (succeeded s 0 0 (larg1 s) ((fdctOut b).flatMap f64Bytes)))

/-- R164 with R161 and R162: IDCT's errors, both E_NONFINITE checks before any write, and its result. How a sum overflows is
IEEE 754's (log 12). -/
def Obligations.IdctResult : Prop :=
  decode 0x00000002 = .ok .idct ∧
  ∀ s : State,
    let ranged := InRange s (larg0 s) 512 ∧ InRange s (larg1 s) 256
    let aligned := larg0 s % 8 = 0 ∧ larg1 s % 4 = 0
    (¬ ranged → exec .idct s = .next (failed s 0x04)) ∧
    (ranged → ¬ aligned → exec .idct s = .next (failed s 0x05)) ∧
    (ranged → aligned → ∀ f, s.holdsF64Block (larg0 s) f →
      ((∃ x ∈ f, f64Finite x = false) → exec .idct s = .next (failed s 0x08)) ∧
      ((∀ x ∈ f, f64Finite x = true) → (∃ x ∈ idctOut f, f64Finite x = false) →
        exec .idct s = .next (failed s 0x08)) ∧
      ((∀ x ∈ f, f64Finite x = true) → (∀ x ∈ idctOut f, f64Finite x = true) →
        exec .idct s = .next (succeeded s 0 0 (larg1 s) ((idctOut f).flatMap fun x => i32Bytes (sat32 (rhaz x))))))

/-- R192 with R190 and R191: QTAB's errors and its table. -/
def Obligations.QtabResult : Prop :=
  (∀ q : Nat, q < 256 → decode (BitVec.ofNat 32 (256 * q + 0x03)) = .ok (.qtab q)) ∧
  ∀ (s : State) (q : Nat),
    (¬ (1 ≤ q ∧ q ≤ 100) → exec (.qtab q) s = .next (failed s 0x02)) ∧
    (1 ≤ q → q ≤ 100 → ¬ InRange s (larg0 s) 64 → exec (.qtab q) s = .next (failed s 0x04)) ∧
    (1 ≤ q → q ≤ 100 → InRange s (larg0 s) 64 → exec (.qtab q) s =
      .next (succeeded s 0 0 (larg0 s) ((List.range 64).map fun k => BitVec.ofInt 8 (qtabAt q k))))

/-- R193 with R190: QUANT's errors and its result, one division, one rounding and one saturation for each element. -/
def Obligations.QuantResult : Prop :=
  (∀ q : Nat, q < 256 → decode (BitVec.ofNat 32 (256 * q + 0x04)) = .ok (.quant q)) ∧
  ∀ (s : State) (q : Nat),
    let ranged := InRange s (larg0 s) 512 ∧ InRange s (larg1 s) 256
    let aligned := larg0 s % 8 = 0 ∧ larg1 s % 4 = 0
    (¬ (1 ≤ q ∧ q ≤ 100) → exec (.quant q) s = .next (failed s 0x02)) ∧
    (1 ≤ q → q ≤ 100 → ¬ ranged → exec (.quant q) s = .next (failed s 0x04)) ∧
    (1 ≤ q → q ≤ 100 → ranged → ¬ aligned → exec (.quant q) s = .next (failed s 0x05)) ∧
    (1 ≤ q → q ≤ 100 → ranged → aligned → ∀ f, s.holdsF64Block (larg0 s) f →
      ((∃ x ∈ f, f64Finite x = false) → exec (.quant q) s = .next (failed s 0x08)) ∧
      ((∀ x ∈ f, f64Finite x = true) → exec (.quant q) s = .next (succeeded s 0 0 (larg1 s)
        ((List.range 64).flatMap fun k => i32Bytes (sat32 (rhaz (f64Div (f.getD k 0) (f64OfInt (qtabAt q k)))))))))

/-- R194 with R190: DEQUANT's errors and its result, each element the exact integer product. -/
def Obligations.DequantResult : Prop :=
  (∀ q : Nat, q < 256 → decode (BitVec.ofNat 32 (256 * q + 0x05)) = .ok (.dequant q)) ∧
  ∀ (s : State) (q : Nat),
    let ranged := InRange s (larg0 s) 256 ∧ InRange s (larg1 s) 512
    let aligned := larg0 s % 4 = 0 ∧ larg1 s % 8 = 0
    (¬ (1 ≤ q ∧ q ≤ 100) → exec (.dequant q) s = .next (failed s 0x02)) ∧
    (1 ≤ q → q ≤ 100 → ¬ ranged → exec (.dequant q) s = .next (failed s 0x04)) ∧
    (1 ≤ q → q ≤ 100 → ranged → ¬ aligned → exec (.dequant q) s = .next (failed s 0x05)) ∧
    (1 ≤ q → q ≤ 100 → ranged → aligned → ∀ z, s.holdsI32Block (larg0 s) z →
      exec (.dequant q) s = .next (succeeded s 0 0 (larg1 s)
        ((List.range 64).flatMap fun k => f64Bytes (f64OfInt (z.getD k 0 * qtabAt q k)))) ∧
      ∀ k, k < 64 → f64Finite (f64OfInt (z.getD k 0 * qtabAt q k)) = true ∧
        f64Units (f64OfInt (z.getD k 0 * qtabAt q k)) = z.getD k 0 * qtabAt q k * 2 ^ 1074)

/-- R222 with R221: ZZENC's errors and its stream; PREVDC_ENC takes the block's own DC, unless the stream does not fit. -/
def Obligations.ZzencResult : Prop :=
  decode 0x00000006 = .ok .zzenc ∧
  ∀ s : State,
    let ranged := InRange s (larg0 s) 256 ∧ InRange s (larg1 s) (larg2 s)
    (¬ ranged → exec .zzenc s = .next (failed s 0x04)) ∧
    (ranged → larg0 s % 4 ≠ 0 → exec .zzenc s = .next (failed s 0x05)) ∧
    (ranged → larg0 s % 4 = 0 → ∀ z, s.holdsI32Block (larg0 s) z →
      let out := streamOf z s.prevDcEnc.toInt
      (larg2 s < out.length → exec .zzenc s = .next (failed s 0x09)) ∧
      (out.length ≤ larg2 s → exec .zzenc s =
        .next { succeeded s out.length (larg1 s + out.length) (larg1 s) out with
          prevDcEnc := BitVec.ofInt 32 (z.getD 0 0) }))

/-- R222, corner case Size: a block's stream has 3 to 129 bytes, so a capacity of 129 always suffices. -/
def Obligations.ZzencStreamSize : Prop :=
  (∀ (z : List Int) (prev : Int), 3 ≤ (streamOf z prev).length ∧ (streamOf z prev).length ≤ 129) ∧
  (∀ s t : State, exec .zzenc s = .next t → 129 ≤ larg2 s → t.status.errCode ≠ 0x09)

/-- R224 with R226: ZZDEC's errors, and the block it decodes from the bytes it consumes; MALFORMED, RES0, RES1 and
PREVDC_DEC. Bytes past the consumed count need hold no value (R401). -/
def Obligations.ZzdecResult : Prop :=
  decode 0x00000007 = .ok .zzdec ∧
  ∀ s : State,
    let ranged := InRange s (larg0 s) (larg1 s) ∧ InRange s (larg2 s) 256
    (larg1 s = 0 → exec .zzdec s = .next (failed s 0x0A)) ∧
    (larg1 s ≠ 0 → ¬ ranged → exec .zzdec s = .next (failed s 0x04)) ∧
    (larg1 s ≠ 0 → ranged → larg2 s % 4 ≠ 0 → exec .zzdec s = .next (failed s 0x05)) ∧
    (ranged → larg2 s % 4 = 0 → ∀ (b : Byte) (bs : List Byte), (b :: bs).length = larg1 s →
      let p := placePairs bs 1
      s.holds (larg0 s) ((b :: bs).take (p.consumed + 1)) →
      let dc := sat32 (s.prevDcDec.toInt + b.toInt)
      exec .zzdec s = .next { succeeded s (p.consumed + 1) (larg0 s + (p.consumed + 1)) (larg2 s)
            ((placedBlock dc p.values).flatMap i32Bytes) with
          status := ⟨false, true, p.malformed, s.status.wlost, 0x00⟩
          prevDcDec := BitVec.ofInt 32 dc })

/-- R227: the round trip of a block through ZZENC and ZZDEC. -/
def Obligations.ZigzagRoundTrip : Prop :=
  ∀ (s t : State) (z : List Int) (d : Word),
    s.holdsI32Block (larg0 s) z → (∀ k, 1 ≤ k → k < 64 → -128 ≤ z.getD k 0 ∧ z.getD k 0 ≤ 127) →
    -128 ≤ z.getD 0 0 - s.prevDcEnc.toInt → z.getD 0 0 - s.prevDcEnc.toInt ≤ 127 →
    exec .zzenc s = .next t → t.status.errCode = 0 → InRange s d.toNat 256 → d.toNat % 4 = 0 →
    ∃ u, exec .zzdec { holding t .zzdec s.latch.args.a1 t.res0 d 0 with prevDcDec := s.prevDcEnc } = .next u ∧
      u.status.errCode = 0 ∧ u.holds d.toNat (z.flatMap i32Bytes) ∧ u.res0 = t.res0 ∧ u.status.malformed = false ∧
      u.prevDcDec = BitVec.ofInt 32 (z.getD 0 0)

/-- R220: the table ZZ is the walk of the anti-diagonals, and it is a permutation of 0..63. -/
def Obligations.ZigzagIsTheWalk : Prop := zigzag = zigzagWalk ∧ zigzag.Perm (List.range 64)

/-- R250: HIST's errors and the table it writes, the symbols in ascending order. -/
def Obligations.HistResult : Prop :=
  decode 0x00000008 = .ok .hist ∧
  ∀ s : State,
    let ranged := InRange s (larg0 s) (larg1 s) ∧ InRange s (larg2 s) 2048
    let apart := Apart (larg0 s) (larg1 s) (larg2 s) 2048
    (¬ ranged → exec .hist s = .next (failed s 0x04)) ∧
    (ranged → larg2 s % 4 ≠ 0 → exec .hist s = .next (failed s 0x05)) ∧
    (ranged → larg2 s % 4 = 0 → ¬ apart → exec .hist s = .next (failed s 0x06)) ∧
    (ranged → larg2 s % 4 = 0 → apart → ∀ bs, bs.length = larg1 s → s.holds (larg0 s) bs →
      exec .hist s = .next (succeeded s (occurring bs).length (8 * (occurring bs).length) (larg2 s) (histogramBytes bs)))

/-- R252: TBUILD's errors, each leaving no tree, and its success: the tree of R251 and the code table of R253 installed,
and written out when CT = 1. What the tree and the codes are is stated by BuildFollowsTieBreak and CodesAreLeafPaths. -/
def Obligations.TbuildResult : Prop :=
  decode 0x00000009 = .ok (.tbuild false) ∧ decode 0x00000109 = .ok (.tbuild true) ∧
  ∀ (s : State) (ct : Bool),
    let n := larg1 s
    let ranged := InRange s (larg0 s) (8 * n) ∧ (ct = true → InRange s (larg2 s) 10240)
    let aligned := larg0 s % 4 = 0 ∧ (ct = true → larg2 s % 4 = 0)
    let apart := ct = true → Apart (larg0 s) (8 * n) (larg2 s) 10240
    (n = 0 → exec (.tbuild ct) s = .next (failedNoTree s 0x0B)) ∧
    (256 < n → exec (.tbuild ct) s = .next (failedNoTree s 0x0C)) ∧
    (1 ≤ n → n ≤ 256 → ¬ ranged → exec (.tbuild ct) s = .next (failedNoTree s 0x04)) ∧
    (1 ≤ n → n ≤ 256 → ranged → ¬ aligned → exec (.tbuild ct) s = .next (failedNoTree s 0x05)) ∧
    (1 ≤ n → n ≤ 256 → ranged → aligned → ¬ apart → exec (.tbuild ct) s = .next (failedNoTree s 0x06)) ∧
    (1 ≤ n → n ≤ 256 → ranged → aligned → apart → ∀ t, t.length = n → HoldsTable s (larg0 s) t →
      (¬ (t.map Prod.fst).Nodup → exec (.tbuild ct) s = .next (failedNoTree s 0x0C)) ∧
      ((t.map Prod.fst).Nodup → exec (.tbuild ct) s =
        .next { succeeded s (buildTree t).nodeCount (buildTree t).maxLen (larg2 s)
              (if ct then codeTableBytes (buildTree t) else []) with
            huffman := some (buildTree t) }))

/-- R251: the arena of `Build`: the leaves in table order, then the one node of a single symbol, or the merges of the two
nodes lowest by (freq, index), the first to the left; the root is the last node. -/
def Obligations.BuildFollowsTieBreak : Prop :=
  ∀ t : List (Byte × Nat), IsTable t →
    let leaves := t.map fun e => Node.leaf e.1 e.2
    let h := buildTree t
    (t.length = 1 → h.nodes = leaves ++ [.internal (freqOf leaves 0) (some 0) none] ∧ h.root = 1 ∧ h.nodeCount = 2) ∧
    (2 ≤ t.length → Merges leaves (List.range t.length) h.nodes ∧ h.root = 2 * t.length - 2 ∧
      h.nodeCount = 2 * t.length - 1)

/-- R253: the code of a symbol is the path from the root to its leaf; every entry's leaf is reached, so every symbol of the
table has a code, no other symbol has one, and MAXLEN is the longest. -/
def Obligations.CodesAreLeafPaths : Prop :=
  ∀ t : List (Byte × Nat), IsTable t →
    let h := buildTree t
    (∀ (p : List Bool) (i : Nat) (c : Byte) (f : Nat), Path h.nodes h.root p i → h.nodes[i]? = some (.leaf c f) →
      codeAt h c.toNat = p) ∧
    (∀ k, (hk : k < t.length) → h.nodes[k]? = some (.leaf t[k].1 t[k].2) ∧
      Path h.nodes h.root (codeAt h t[k].1.toNat) k ∧ 1 ≤ (codeAt h t[k].1.toNat).length) ∧
    (∀ c : Byte, c ∉ t.map Prod.fst → codeAt h c.toNat = []) ∧
    (∃ c : Byte, (codeAt h c.toNat).length = h.maxLen) ∧ ∀ c : Byte, (codeAt h c.toNat).length ≤ h.maxLen

/-- R254: the size of the tree, its internal nodes, the bound on the code lengths with the table that reaches it, and that
no code is a prefix of another. -/
def Obligations.TreeProperties : Prop :=
  (∀ t : List (Byte × Nat), IsTable t → 2 ≤ t.length →
    let h := buildTree t
    h.nodeCount = 2 * t.length - 1 ∧ h.nodeCount ≤ 511 ∧
    (∀ f l r, Node.internal f l r ∈ h.nodes → l ≠ none ∧ r ≠ none) ∧
    h.maxLen ≤ t.length - 1 ∧ h.maxLen ≤ 255 ∧
    (∀ c d : Byte, c ≠ d → codeAt h c.toNat ≠ [] → ¬ codeAt h c.toNat <+: codeAt h d.toNat)) ∧
  (buildTree ([1, 1, 2, 3, 5, 8, 13, 21, 34, 55, 89, 144, 233, 377, 610, 987, 1597, 2584, 4181, 6765].mapIdx
    fun k f => (BitVec.ofNat 8 k, f))).maxLen = 19

/-- R255: the tree of a single symbol: the code "0" for it and none for the rest, and a first payload bit of 1 is E_CORRUPT,
with draws in the dst region (log 5). A later 1 bit is HdecResult's. That no byte past the first need hold a value is the
model's reading (log 21). -/
def Obligations.SingleSymbol : Prop :=
  ∀ (c : Byte) (f : Nat),
    (∀ d : Byte, codeAt (buildTree [(c, f)]) d.toNat = if d = c then [false] else []) ∧
    (buildTree [(c, f)]).maxLen = 1 ∧
    ∀ (s : State) (b : Byte), s.huffman = some (buildTree [(c, f)]) → InRange s (larg0 s) ((larg1 s + 7) / 8) →
      InRange s (larg2 s) (larg3 s) → Apart (larg0 s) ((larg1 s + 7) / 8) (larg2 s) (larg3 s) → 1 ≤ larg1 s →
      s.lmem.get? (larg0 s) = some b → b.getLsbD 7 = true →
      exec .hdec s = .next (failedWithDraws s 0x0E (larg2 s) (larg3 s))

/-- R256 with R257: HENC's errors and its payload. It reads a byte, then looks it up; that a byte past the first one
without a code need hold no value is the model's reading (log 21); an execute-phase error leaves draws (R353, log 5). -/
def Obligations.HencResult : Prop :=
  decode 0x0000000A = .ok .henc ∧
  ∀ s : State,
    let ranged := InRange s (larg0 s) (larg1 s) ∧ InRange s (larg2 s) (larg3 s)
    let apart := Apart (larg0 s) (larg1 s) (larg2 s) (larg3 s)
    (¬ ranged → exec .henc s = .next (failed s 0x04)) ∧
    (ranged → ¬ apart → exec .henc s = .next (failed s 0x06)) ∧
    (ranged → apart → s.huffman = none → exec .henc s = .next (failed s 0x07)) ∧
    (ranged → apart → ∀ h bs, s.huffman = some h → bs.length = larg1 s →
      s.holds (larg0 s) (bs.take (encodeBytes h bs).2) →
      ((encodeBytes h bs).1 = none → exec .henc s = .next (failedWithDraws s 0x0D (larg2 s) (larg3 s))) ∧
      (∀ bits, (encodeBytes h bs).1 = some bits →
        (larg3 s < (bits.length + 7) / 8 → exec .henc s = .next (failedWithDraws s 0x09 (larg2 s) (larg3 s))) ∧
        ((bits.length + 7) / 8 ≤ larg3 s → exec .henc s = .next (succeeded s ((bits.length + 7) / 8) bits.length (larg2 s)
          (packed ((bits.length + 7) / 8) bits)))))

/-- R258 with R257: HDEC's errors and the symbols it writes; that bytes past the last one read need hold no
value after E_CORRUPT or E_CAPACITY is the model's reading (log 21); an execute-phase error leaves draws (R353, log 5). What
it does with a node that is not in the arena is the model's choice (log
19); no tree TBUILD installs has one. -/
def Obligations.HdecResult : Prop :=
  decode 0x0000000B = .ok .hdec ∧
  ∀ s : State,
    let n := larg1 s
    let ranged := InRange s (larg0 s) ((n + 7) / 8) ∧ InRange s (larg2 s) (larg3 s)
    let apart := Apart (larg0 s) ((n + 7) / 8) (larg2 s) (larg3 s)
    (¬ ranged → exec .hdec s = .next (failed s 0x04)) ∧
    (ranged → ¬ apart → exec .hdec s = .next (failed s 0x06)) ∧
    (ranged → apart → s.huffman = none → exec .hdec s = .next (failed s 0x07)) ∧
    (ranged → apart → ∀ h bs, s.huffman = some h → bs.length = (n + 7) / 8 →
      let d := decodeWalk h (payloadBits bs n) h.root (larg3 s)
      s.holds (larg0 s) (bs.take ((d.2 + 7) / 8)) →
      (∀ code, d.1 = .raised code → exec .hdec s = .next (failedWithDraws s code (larg2 s) (larg3 s))) ∧
      (∀ syms, d.1 = .symbols syms → exec .hdec s = .next (succeeded s syms.length n (larg2 s) syms)))

/-- R258, corner case: with the tree of two or more symbols no bit is E_CORRUPT. -/
def Obligations.FullTreeIsNeverCorrupt : Prop :=
  ∀ (s t : State) (e : List (Byte × Nat)), IsTable e → 2 ≤ e.length → s.huffman = some (buildTree e) →
    exec .hdec s = .next t → t.status.errCode ≠ 0x0E

/-- R256, R258: what HENC packs with an installed tree, HDEC unpacks with HENC's RES1 as its bit count. -/
def Obligations.HuffmanRoundTrip : Prop :=
  ∀ (s t : State) (e : List (Byte × Nat)) (bs : List Byte) (d cap : Word), s.platform.legal → IsTable e →
    s.huffman = some (buildTree e) → bs.length = larg1 s → s.holds (larg0 s) bs →
    exec .henc s = .next t → t.status.errCode = 0 →
    InRange s d.toNat cap.toNat → Apart (larg2 s) ((t.res1.toNat + 7) / 8) d.toNat cap.toNat →
    bs.length ≤ cap.toNat →
    ∃ u, exec .hdec (holding t .hdec s.latch.args.a2 t.res1 d cap) = .next u ∧ u.status.errCode = 0 ∧
      u.res0 = s.latch.args.a1 ∧ u.res1 = t.res1 ∧ u.holds d.toNat bs

/-- R259: HIST, TBUILD, HENC and HDEC in turn give back every byte stream of length 1 or more. -/
def Obligations.ByteStreamRoundTrip : Prop :=
  ∀ (s : State) (bs : List Byte) (src len tab pay payCap out outCap : Word),
    s.platform.legal → len.toNat = bs.length → 1 ≤ bs.length → s.holds src.toNat bs →
    InRange s src.toNat len.toNat → InRange s tab.toNat 2048 → tab.toNat % 4 = 0 →
    InRange s pay.toNat payCap.toNat → InRange s out.toNat outCap.toNat →
    Apart src.toNat len.toNat tab.toNat 2048 → Apart src.toNat len.toNat pay.toNat payCap.toNat →
    Apart pay.toNat payCap.toNat out.toNat outCap.toNat →
    (bs.map fun b => (codeAt (buildTree (histogramOf bs)) b.toNat).length).sum ≤ 8 * payCap.toNat →
    bs.length ≤ outCap.toNat →
    ∃ s1 s2 s3 s4,
      exec .hist (holding s .hist src len tab 0) = .next s1 ∧ s1.status.errCode = 0 ∧
      exec (.tbuild false) (holding s1 (.tbuild false) tab s1.res0 0 0) = .next s2 ∧ s2.status.errCode = 0 ∧
      exec .henc (holding s2 .henc src len pay payCap) = .next s3 ∧ s3.status.errCode = 0 ∧
      exec .hdec (holding s3 .hdec pay s3.res1 out outCap) = .next s4 ∧ s4.status.errCode = 0 ∧
      s4.res0 = len ∧ s4.holds out.toNat bs

/-- R301 with R300 and R302: SUBS's errors and the plane it writes. -/
def Obligations.SubsResult : Prop :=
  (decode 0x0000000C = .ok (.subs .m444) ∧ decode 0x0000010C = .ok (.subs .m422) ∧ decode 0x0000020C = .ok (.subs .m420) ∧
    decode 0x0000030C = .ok (.subs .m411)) ∧
  ∀ (s : State) (m : Mode),
    let W := larg1 s
    let H := larg2 s
    let w := W / (factors m).1
    let h := H / (factors m).2
    let fits := 0 < W ∧ 0 < H ∧ W % (8 * (factors m).1) = 0 ∧ H % (8 * (factors m).2) = 0
    let ranged := InRange s (larg0 s) (W * H) ∧ InRange s (larg3 s) (w * h)
    let apart := Apart (larg0 s) (W * H) (larg3 s) (w * h)
    (¬ fits → exec (.subs m) s = .next (failed s 0x03)) ∧
    (fits → ¬ ranged → exec (.subs m) s = .next (failed s 0x04)) ∧
    (fits → ranged → ¬ apart → exec (.subs m) s = .next (failed s 0x06)) ∧
    (fits → ranged → apart → ∀ p, p.length = W * H → s.holds (larg0 s) p →
      exec (.subs m) s = .next (succeeded s w h (larg3 s) (subsampled m p W H)))

/-- R303 with R300: UPS's errors and the plane it writes. -/
def Obligations.UpsResult : Prop :=
  (decode 0x0000000D = .ok (.ups .m444) ∧ decode 0x0000010D = .ok (.ups .m422) ∧ decode 0x0000020D = .ok (.ups .m420) ∧
    decode 0x0000030D = .ok (.ups .m411)) ∧
  ∀ (s : State) (m : Mode),
    let w := larg1 s
    let h := larg2 s
    let W := w * (factors m).1
    let H := h * (factors m).2
    let ranged := InRange s (larg0 s) (w * h) ∧ InRange s (larg3 s) (W * H)
    let apart := Apart (larg0 s) (w * h) (larg3 s) (W * H)
    (¬ (0 < w ∧ 0 < h) → exec (.ups m) s = .next (failed s 0x03)) ∧
    (0 < w → 0 < h → ¬ ranged → exec (.ups m) s = .next (failed s 0x04)) ∧
    (0 < w → 0 < h → ranged → ¬ apart → exec (.ups m) s = .next (failed s 0x06)) ∧
    (0 < w → 0 < h → ranged → apart → ∀ p, p.length = w * h → s.holds (larg0 s) p →
      exec (.ups m) s = .next (succeeded s W H (larg3 s) (upsampled m p w h)))

/-- R304: SUBS then UPS gives back the dimensions, for every mode; UPS then SUBS gives back the plane, when its dimensions
are multiples of 8; and after a subsample other than 444 the samples are not preserved in general. -/
def Obligations.ChromaRoundTrip : Prop :=
  (∀ (s t : State) (m : Mode) (d : Word), exec (.subs m) s = .next t → t.status.errCode = 0 →
    InRange s d.toNat (larg1 s * larg2 s) →
    Apart (larg3 s) (t.res0.toNat * t.res1.toNat) d.toNat (larg1 s * larg2 s) →
    ∃ u, exec (.ups m) (holding t (.ups m) s.latch.args.a3 t.res0 t.res1 d) = .next u ∧ u.status.errCode = 0 ∧
      u.res0 = s.latch.args.a1 ∧ u.res1 = s.latch.args.a2) ∧
  (∀ (s t : State) (m : Mode) (d : Word) (p : List Byte), s.platform.legal → p.length = larg1 s * larg2 s →
    s.holds (larg0 s) p → larg1 s % 8 = 0 → larg2 s % 8 = 0 →
    exec (.ups m) s = .next t → t.status.errCode = 0 → InRange s d.toNat (larg1 s * larg2 s) →
    Apart (larg3 s) (t.res0.toNat * t.res1.toNat) d.toNat (larg1 s * larg2 s) →
    ∃ u, exec (.subs m) (holding t (.subs m) s.latch.args.a3 t.res0 t.res1 d) = .next u ∧ u.status.errCode = 0 ∧
      u.res0 = s.latch.args.a1 ∧ u.res1 = s.latch.args.a2 ∧ u.holds d.toNat p) ∧
  (∀ m : Mode, m ≠ .m444 →
    ∃ p : List Byte, p.length = 32 * 16 ∧
      upsampled m (subsampled m p 32 16) (32 / (factors m).1) (16 / (factors m).2) ≠ p)

/-! ### Arithmetic (spec/00_scope.md, spec/41_quantizer.md) -/

/-- R8: each operation on finite operands is its exact result rounded once to nearest, ties to even, with the sign of a zero
result, by which +0.0 + -0.0 = +0.0 (R163); and the results on infinities and NaN. The infinities, NaN and signed zeros,
the infinity of `Rounds` among them, are IEEE 754's as the model takes them (log 12). -/
def Obligations.OperationsRoundToNearestEven : Prop :=
  (∀ x y : Double, f64Finite x = true → f64Finite y = true →
    Rounds (f64Units x + f64Units y) 1 (f64Add x y) ∧
    Rounds (f64Units x * f64Units y) (2 ^ 1074) (f64Mul x y) ∧
    (f64Units y ≠ 0 → Rounds ((f64Units y).sign * f64Units x * 2 ^ 1074) (f64Units y).natAbs (f64Div x y)) ∧
    (f64Units x + f64Units y = 0 → f64Add x y = signedZero (f64Neg x && f64Neg y)) ∧
    f64Neg (f64Mul x y) = (f64Neg x != f64Neg y) ∧
    (f64Units y ≠ 0 → f64Neg (f64Div x y) = (f64Neg x != f64Neg y)) ∧
    (f64Units y = 0 → f64Units x ≠ 0 → f64Div x y = infinity (f64Neg x != f64Neg y)) ∧
    (f64Units y = 0 → f64Units x = 0 → f64IsNan (f64Div x y) = true)) ∧
  (∀ n : Int, Rounds (n * 2 ^ 1074) 1 (f64OfInt n)) ∧ f64OfInt 0 = signedZero false ∧
  (∀ x y : Double, f64IsNan x = true ∨ f64IsNan y = true →
    f64IsNan (f64Add x y) = true ∧ f64IsNan (f64Mul x y) = true ∧ f64IsNan (f64Div x y) = true) ∧
  (∀ p q : Bool,
    f64Mul (infinity p) (infinity q) = infinity (p != q) ∧ f64IsNan (f64Div (infinity p) (infinity q)) = true ∧
    (p = q → f64Add (infinity p) (infinity q) = infinity p) ∧
    (p ≠ q → f64IsNan (f64Add (infinity p) (infinity q)) = true)) ∧
  (∀ (p : Bool) (y : Double), f64Finite y = true →
    f64Add (infinity p) y = infinity p ∧ f64Add y (infinity p) = infinity p ∧
    f64Div (infinity p) y = infinity (p != f64Neg y) ∧ f64Div y (infinity p) = signedZero (f64Neg y != p) ∧
    (f64Units y ≠ 0 → f64Mul (infinity p) y = infinity (p != f64Neg y) ∧
      f64Mul y (infinity p) = infinity (f64Neg y != p)) ∧
    (f64Units y = 0 → f64IsNan (f64Mul (infinity p) y) = true ∧ f64IsNan (f64Mul y (infinity p)) = true)) ∧
  (∀ x : Double, f64IsInf x = true → x = infinity (f64Neg x))

/-- R8: f64(n) is exact up to 2^53 in magnitude. -/
def Obligations.IntegerConversionIsExact : Prop :=
  ∀ n : Int, n.natAbs ≤ 2 ^ 53 → f64Finite (f64OfInt n) = true ∧ f64Units (f64OfInt n) = n * 2 ^ 1074

/-- R8: rhaz is a nearest integer, and on a tie the one further from zero. -/
def Obligations.RhazRoundsHalfAway : Prop :=
  ∀ x : Double, f64Finite x = true → ∀ n : Int,
    (rhaz x * 2 ^ 1074 - f64Units x).natAbs ≤ (n * 2 ^ 1074 - f64Units x).natAbs ∧
    ((rhaz x * 2 ^ 1074 - f64Units x).natAbs = (n * 2 ^ 1074 - f64Units x).natAbs → n.natAbs ≤ (rhaz x).natAbs)

/-- R192, corner cases of R190: every entry is in 1..255; q = 50 gives BASE, q = 100 gives 1 and q = 1 gives 255
everywhere; q = 75 starts with the example's row. -/
def Obligations.QuantTableCases : Prop :=
  (∀ q, 1 ≤ q → q ≤ 100 → (quantTable q).length = 64 ∧ ∀ v ∈ quantTable q, 1 ≤ v ∧ v ≤ 255) ∧
  quantTable 50 = baseRows.flatten ∧ quantTable 100 = List.replicate 64 1 ∧ quantTable 1 = List.replicate 64 255 ∧
  (quantTable 75).take 8 = [8, 6, 5, 8, 12, 20, 26, 31]
end

