-- ==== Sys2Proof/Laws/Binary64.lean ====
section
/-! SUPPORT. What a pattern made by RN64 says: its sign, its magnitude, and the multiples it keeps (00_scope.md R8). -/

namespace Sys2Proof.Machine

theorem roundMag_le (n d : Nat) : roundMag n d ≤ f64InfBits := Nat.min_le_right _ _

/-- The sign of a pattern made from its sign and the rest. -/
theorem f64Neg_make (b : Bool) {k : Nat} (h : k < 2 ^ 63) : f64Neg (f64Make b k) = b := by
  rw [f64Neg, f64Make, BitVec.getLsbD_ofNat]
  cases b
  · simp [Nat.testBit_lt_two_pow h]
  · rw [if_pos rfl, Nat.testBit_two_pow_add_eq]
    simp [Nat.testBit_lt_two_pow h]

/-- The sign of a rounded result. -/
theorem f64Neg_round (b : Bool) (n d : Nat) : f64Neg (f64Make b (roundMag n d)) = b :=
  f64Neg_make b (Nat.lt_of_le_of_lt (roundMag_le n d) (by decide))

theorem f64Make_toNat (b : Bool) {k : Nat} (h : k < 2 ^ 63) :
    (f64Make b k).toNat = (if b then 2 ^ 63 else 0) + k := by
  rw [f64Make, BitVec.toNat_ofNat, Nat.mod_eq_of_lt]
  split <;> omega

/-- The exponent field of such a pattern. -/
theorem f64Exp_make (b : Bool) {k : Nat} (h : k < 2 ^ 63) : f64Exp (f64Make b k) = k / 2 ^ 52 := by
  rw [f64Exp, f64Make_toNat b h]
  split <;> omega

/-- The fraction field of such a pattern. -/
theorem f64Frac_make (b : Bool) {k : Nat} (h : k < 2 ^ 63) : f64Frac (f64Make b k) = k % 2 ^ 52 := by
  rw [f64Frac, f64Make_toNat b h]
  split <;> omega

/-- A finite value is neither a NaN nor an infinity. -/
theorem f64Finite_not_special {x : Double} (h : f64Finite x = true) : f64IsNan x = false ∧ f64IsInf x = false := by
  simp only [f64Finite, bne_iff_ne, ne_eq] at h
  simp [f64IsNan, f64IsInf, h]

theorem f64Units_eq_zero_iff (x : Double) : f64Units x = 0 ↔ f64Mag x = 0 := by
  unfold f64Units
  split <;> simp

/-- The scale k that RN64 rounds n/d at: the exponent of the last bit kept. -/
def roundScale (n d : Nat) : Nat := (n / d).log2 - 52

theorem divTiesEven_le (n d : Nat) : divTiesEven n d ≤ n / d + 1 := by
  simp only [divTiesEven]
  split <;> omega

theorem div_le_divTiesEven (n d : Nat) : n / d ≤ divTiesEven n d := by
  simp only [divTiesEven]
  split <;> omega

/-- The significand RN64 keeps has at most 53 bits, and exactly 53 or a carry above scale 0. -/
theorem round_significand (n d : Nat) :
    divTiesEven n (d * 2 ^ roundScale n d) ≤ 2 ^ 53 ∧
      (0 < roundScale n d → 2 ^ 52 ≤ divTiesEven n (d * 2 ^ roundScale n d)) := by
  have hq : n / (d * 2 ^ roundScale n d) = n / d / 2 ^ roundScale n d := (Nat.div_div_eq_div_mul n d _).symm
  have hlt : n / d / 2 ^ roundScale n d < 2 ^ 53 := by
    apply Nat.div_lt_of_lt_mul
    rw [← Nat.pow_add]
    exact Nat.lt_of_lt_of_le Nat.lt_log2_self (Nat.pow_le_pow_right (by decide) (by unfold roundScale; omega))
  constructor
  · have := divTiesEven_le n (d * 2 ^ roundScale n d)
    omega
  · intro hk
    have h0 : n / d ≠ 0 := by
      intro h
      rw [roundScale, h] at hk
      exact absurd hk (by decide)
    have : 2 ^ 52 ≤ n / d / 2 ^ roundScale n d := by
      rw [Nat.le_div_iff_mul_le (Nat.two_pow_pos _), ← Nat.pow_add]
      refine Nat.le_trans (Nat.pow_le_pow_right (by decide) ?_) (Nat.log2_self_le h0)
      unfold roundScale at hk ⊢
      omega
    exact Nat.le_trans (hq ▸ this) (div_le_divTiesEven _ _)

/-- The magnitude of a finite rounded result: the significand kept, at its scale. -/
theorem f64Mag_round (b : Bool) (n d : Nat) (hf : f64Finite (f64Make b (roundMag n d)) = true) :
    f64Mag (f64Make b (roundMag n d)) = divTiesEven n (d * 2 ^ roundScale n d) * 2 ^ roundScale n d := by
  have hlt : roundMag n d < 2 ^ 63 := Nat.lt_of_le_of_lt (roundMag_le n d) (by decide)
  obtain ⟨h1, h2⟩ := round_significand n d
  have hne : roundMag n d ≠ f64InfBits := by
    intro h
    rw [h] at hf
    exact absurd hf (by cases b <;> decide)
  have hr : roundMag n d = roundScale n d * 2 ^ 52 + divTiesEven n (d * 2 ^ roundScale n d) := by
    have : roundMag n d = min (roundScale n d * 2 ^ 52 + divTiesEven n (d * 2 ^ roundScale n d)) f64InfBits := rfl
    omega
  rw [f64Mag, f64Exp_make b hlt, f64Frac_make b hlt, hr]
  generalize divTiesEven n (d * 2 ^ roundScale n d) = q at h1 h2
  generalize roundScale n d = k at h2
  by_cases hq : q < 2 ^ 52
  · have hk : k = 0 := by by_contra h; have := h2 (by omega); omega
    subst hk
    rw [if_pos (by omega)]
    omega
  · by_cases hc : q = 2 ^ 53
    · subst hc
      rw [if_neg (by omega), show (k * 2 ^ 52 + 2 ^ 53) % 2 ^ 52 = 0 by omega,
        show (k * 2 ^ 52 + 2 ^ 53) / 2 ^ 52 - 1 = k + 1 by omega, Nat.pow_succ]
      omega
    · rw [if_neg (by omega), show (k * 2 ^ 52 + q) % 2 ^ 52 = q - 2 ^ 52 by omega,
        show (k * 2 ^ 52 + q) / 2 ^ 52 - 1 = k by omega]
      rw [show 2 ^ 52 + (q - 2 ^ 52) = q by omega]

theorem divTiesEven_mul (m : Nat) {d : Nat} (hd : 0 < d) : divTiesEven (m * d) d = m := by
  simp [divTiesEven, Nat.mul_div_cancel _ hd, hd.ne]

/-- Rounding keeps a multiple of a power of two a multiple of it. -/
theorem f64Mag_round_dvd (b : Bool) (m j : Nat) {d : Nat} (hd : 0 < d)
    (hf : f64Finite (f64Make b (roundMag (m * 2 ^ j * d) d)) = true) :
    2 ^ j ∣ f64Mag (f64Make b (roundMag (m * 2 ^ j * d) d)) := by
  rw [f64Mag_round b _ _ hf]
  generalize roundScale (m * 2 ^ j * d) d = k
  by_cases h : j ≤ k
  · exact Nat.dvd_trans (Nat.pow_dvd_pow 2 h) (Nat.dvd_mul_left _ _)
  · have e : m * 2 ^ j * d = m * 2 ^ (j - k) * (d * 2 ^ k) := by
      rw [show 2 ^ j = 2 ^ (j - k) * 2 ^ k by rw [← Nat.pow_add]; congr 1; omega]
      ac_rfl
    rw [e, divTiesEven_mul _ (Nat.mul_pos hd (Nat.two_pow_pos k)), Nat.mul_assoc, ← Nat.pow_add,
      show j - k + k = j by omega]
    exact Nat.dvd_mul_left _ _

/-- A result of one unit or more does not round to zero. -/
theorem roundMag_pos {n d : Nat} (hd : 0 < d) (h : d ≤ n) : 0 < roundMag n d := by
  have h1 : 0 < n / d := Nat.div_pos h hd
  have h2 := (round_significand n d).2
  have h3 : 0 < roundScale n d * 2 ^ 52 + divTiesEven n (d * 2 ^ roundScale n d) := by
    by_cases hk : 0 < roundScale n d
    · have := h2 hk
      omega
    · have hk0 : roundScale n d = 0 := by omega
      have := div_le_divTiesEven n (d * 2 ^ roundScale n d)
      rw [hk0, Nat.pow_zero, Nat.mul_one] at this ⊢
      omega
  have : roundMag n d = min (roundScale n d * 2 ^ 52 + divTiesEven n (d * 2 ^ roundScale n d)) f64InfBits := rfl
  have h4 : 0 < f64InfBits := by decide
  omega

/-- The negative zero is the one finite negative pattern of magnitude 0. -/
theorem eq_negative_zero {x : Double} (hn : f64Neg x = true) (hm : f64Mag x = 0) : x = 0x8000000000000000 := by
  have h63 : 2 ^ 63 ≤ x.toNat := Nat.ge_two_pow_of_testBit hn
  have hlt := x.isLt
  have h0 : f64Exp x = 0 ∧ f64Frac x = 0 := by
    unfold f64Mag at hm
    split at hm
    · exact ⟨by assumption, hm⟩
    · have := Nat.two_pow_pos (f64Exp x - 1)
      have : 0 < (2 ^ 52 + f64Frac x) * 2 ^ (f64Exp x - 1) := Nat.mul_pos (by omega) this
      omega
  obtain ⟨he, hf⟩ := h0
  unfold f64Exp at he
  unfold f64Frac at hf
  apply BitVec.eq_of_toNat_eq
  have : (0x8000000000000000 : Double).toNat = 2 ^ 63 := rfl
  omega

end Sys2Proof.Machine
end

