-- ==== Sys2Proof/Laws/State.lean ====
section
/-! SUPPORT. One lemma for each field and each single update of State. -/

namespace Sys2Proof.Machine

@[simp] theorem State.withPlatform_platform (s : State) (v : Platform) : (s.withPlatform v).platform = v := rfl
@[simp] theorem State.withPlatform_ie (s : State) (v : Platform) : (s.withPlatform v).ie = s.ie := rfl
@[simp] theorem State.withPlatform_status (s : State) (v : Platform) : (s.withPlatform v).status = s.status := rfl
@[simp] theorem State.withPlatform_cmd (s : State) (v : Platform) : (s.withPlatform v).cmd = s.cmd := rfl
@[simp] theorem State.withPlatform_args (s : State) (v : Platform) : (s.withPlatform v).args = s.args := rfl
@[simp] theorem State.withPlatform_res0 (s : State) (v : Platform) : (s.withPlatform v).res0 = s.res0 := rfl
@[simp] theorem State.withPlatform_res1 (s : State) (v : Platform) : (s.withPlatform v).res1 = s.res1 := rfl
@[simp] theorem State.withPlatform_prevDcEnc (s : State) (v : Platform) : (s.withPlatform v).prevDcEnc = s.prevDcEnc := rfl
@[simp] theorem State.withPlatform_prevDcDec (s : State) (v : Platform) : (s.withPlatform v).prevDcDec = s.prevDcDec := rfl
@[simp] theorem State.withPlatform_latch (s : State) (v : Platform) : (s.withPlatform v).latch = s.latch := rfl
@[simp] theorem State.withPlatform_huffman (s : State) (v : Platform) : (s.withPlatform v).huffman = s.huffman := rfl
@[simp] theorem State.withPlatform_lmem (s : State) (v : Platform) : (s.withPlatform v).lmem = s.lmem := rfl
@[simp] theorem State.withPlatform_drawCount (s : State) (v : Platform) : (s.withPlatform v).drawCount = s.drawCount := rfl
@[simp] theorem State.withPlatform_schedule (s : State) (v : Platform) : (s.withPlatform v).schedule = s.schedule := rfl
@[simp] theorem State.withPlatform_responses (s : State) (v : Platform) : (s.withPlatform v).responses = s.responses := rfl
@[simp] theorem State.withPlatform_hostStop (s : State) (v : Platform) : (s.withPlatform v).hostStop = s.hostStop := rfl

@[simp] theorem State.withIe_platform (s : State) (v : Bool) : (s.withIe v).platform = s.platform := rfl
@[simp] theorem State.withIe_ie (s : State) (v : Bool) : (s.withIe v).ie = v := rfl
@[simp] theorem State.withIe_status (s : State) (v : Bool) : (s.withIe v).status = s.status := rfl
@[simp] theorem State.withIe_cmd (s : State) (v : Bool) : (s.withIe v).cmd = s.cmd := rfl
@[simp] theorem State.withIe_args (s : State) (v : Bool) : (s.withIe v).args = s.args := rfl
@[simp] theorem State.withIe_res0 (s : State) (v : Bool) : (s.withIe v).res0 = s.res0 := rfl
@[simp] theorem State.withIe_res1 (s : State) (v : Bool) : (s.withIe v).res1 = s.res1 := rfl
@[simp] theorem State.withIe_prevDcEnc (s : State) (v : Bool) : (s.withIe v).prevDcEnc = s.prevDcEnc := rfl
@[simp] theorem State.withIe_prevDcDec (s : State) (v : Bool) : (s.withIe v).prevDcDec = s.prevDcDec := rfl
@[simp] theorem State.withIe_latch (s : State) (v : Bool) : (s.withIe v).latch = s.latch := rfl
@[simp] theorem State.withIe_huffman (s : State) (v : Bool) : (s.withIe v).huffman = s.huffman := rfl
@[simp] theorem State.withIe_lmem (s : State) (v : Bool) : (s.withIe v).lmem = s.lmem := rfl
@[simp] theorem State.withIe_drawCount (s : State) (v : Bool) : (s.withIe v).drawCount = s.drawCount := rfl
@[simp] theorem State.withIe_schedule (s : State) (v : Bool) : (s.withIe v).schedule = s.schedule := rfl
@[simp] theorem State.withIe_responses (s : State) (v : Bool) : (s.withIe v).responses = s.responses := rfl
@[simp] theorem State.withIe_hostStop (s : State) (v : Bool) : (s.withIe v).hostStop = s.hostStop := rfl

@[simp] theorem State.withStatus_platform (s : State) (v : Status) : (s.withStatus v).platform = s.platform := rfl
@[simp] theorem State.withStatus_ie (s : State) (v : Status) : (s.withStatus v).ie = s.ie := rfl
@[simp] theorem State.withStatus_status (s : State) (v : Status) : (s.withStatus v).status = v := rfl
@[simp] theorem State.withStatus_cmd (s : State) (v : Status) : (s.withStatus v).cmd = s.cmd := rfl
@[simp] theorem State.withStatus_args (s : State) (v : Status) : (s.withStatus v).args = s.args := rfl
@[simp] theorem State.withStatus_res0 (s : State) (v : Status) : (s.withStatus v).res0 = s.res0 := rfl
@[simp] theorem State.withStatus_res1 (s : State) (v : Status) : (s.withStatus v).res1 = s.res1 := rfl
@[simp] theorem State.withStatus_prevDcEnc (s : State) (v : Status) : (s.withStatus v).prevDcEnc = s.prevDcEnc := rfl
@[simp] theorem State.withStatus_prevDcDec (s : State) (v : Status) : (s.withStatus v).prevDcDec = s.prevDcDec := rfl
@[simp] theorem State.withStatus_latch (s : State) (v : Status) : (s.withStatus v).latch = s.latch := rfl
@[simp] theorem State.withStatus_huffman (s : State) (v : Status) : (s.withStatus v).huffman = s.huffman := rfl
@[simp] theorem State.withStatus_lmem (s : State) (v : Status) : (s.withStatus v).lmem = s.lmem := rfl
@[simp] theorem State.withStatus_drawCount (s : State) (v : Status) : (s.withStatus v).drawCount = s.drawCount := rfl
@[simp] theorem State.withStatus_schedule (s : State) (v : Status) : (s.withStatus v).schedule = s.schedule := rfl
@[simp] theorem State.withStatus_responses (s : State) (v : Status) : (s.withStatus v).responses = s.responses := rfl
@[simp] theorem State.withStatus_hostStop (s : State) (v : Status) : (s.withStatus v).hostStop = s.hostStop := rfl

@[simp] theorem State.withCmd_platform (s : State) (v : Word) : (s.withCmd v).platform = s.platform := rfl
@[simp] theorem State.withCmd_ie (s : State) (v : Word) : (s.withCmd v).ie = s.ie := rfl
@[simp] theorem State.withCmd_status (s : State) (v : Word) : (s.withCmd v).status = s.status := rfl
@[simp] theorem State.withCmd_cmd (s : State) (v : Word) : (s.withCmd v).cmd = v := rfl
@[simp] theorem State.withCmd_args (s : State) (v : Word) : (s.withCmd v).args = s.args := rfl
@[simp] theorem State.withCmd_res0 (s : State) (v : Word) : (s.withCmd v).res0 = s.res0 := rfl
@[simp] theorem State.withCmd_res1 (s : State) (v : Word) : (s.withCmd v).res1 = s.res1 := rfl
@[simp] theorem State.withCmd_prevDcEnc (s : State) (v : Word) : (s.withCmd v).prevDcEnc = s.prevDcEnc := rfl
@[simp] theorem State.withCmd_prevDcDec (s : State) (v : Word) : (s.withCmd v).prevDcDec = s.prevDcDec := rfl
@[simp] theorem State.withCmd_latch (s : State) (v : Word) : (s.withCmd v).latch = s.latch := rfl
@[simp] theorem State.withCmd_huffman (s : State) (v : Word) : (s.withCmd v).huffman = s.huffman := rfl
@[simp] theorem State.withCmd_lmem (s : State) (v : Word) : (s.withCmd v).lmem = s.lmem := rfl
@[simp] theorem State.withCmd_drawCount (s : State) (v : Word) : (s.withCmd v).drawCount = s.drawCount := rfl
@[simp] theorem State.withCmd_schedule (s : State) (v : Word) : (s.withCmd v).schedule = s.schedule := rfl
@[simp] theorem State.withCmd_responses (s : State) (v : Word) : (s.withCmd v).responses = s.responses := rfl
@[simp] theorem State.withCmd_hostStop (s : State) (v : Word) : (s.withCmd v).hostStop = s.hostStop := rfl

@[simp] theorem State.withArgs_platform (s : State) (v : Args) : (s.withArgs v).platform = s.platform := rfl
@[simp] theorem State.withArgs_ie (s : State) (v : Args) : (s.withArgs v).ie = s.ie := rfl
@[simp] theorem State.withArgs_status (s : State) (v : Args) : (s.withArgs v).status = s.status := rfl
@[simp] theorem State.withArgs_cmd (s : State) (v : Args) : (s.withArgs v).cmd = s.cmd := rfl
@[simp] theorem State.withArgs_args (s : State) (v : Args) : (s.withArgs v).args = v := rfl
@[simp] theorem State.withArgs_res0 (s : State) (v : Args) : (s.withArgs v).res0 = s.res0 := rfl
@[simp] theorem State.withArgs_res1 (s : State) (v : Args) : (s.withArgs v).res1 = s.res1 := rfl
@[simp] theorem State.withArgs_prevDcEnc (s : State) (v : Args) : (s.withArgs v).prevDcEnc = s.prevDcEnc := rfl
@[simp] theorem State.withArgs_prevDcDec (s : State) (v : Args) : (s.withArgs v).prevDcDec = s.prevDcDec := rfl
@[simp] theorem State.withArgs_latch (s : State) (v : Args) : (s.withArgs v).latch = s.latch := rfl
@[simp] theorem State.withArgs_huffman (s : State) (v : Args) : (s.withArgs v).huffman = s.huffman := rfl
@[simp] theorem State.withArgs_lmem (s : State) (v : Args) : (s.withArgs v).lmem = s.lmem := rfl
@[simp] theorem State.withArgs_drawCount (s : State) (v : Args) : (s.withArgs v).drawCount = s.drawCount := rfl
@[simp] theorem State.withArgs_schedule (s : State) (v : Args) : (s.withArgs v).schedule = s.schedule := rfl
@[simp] theorem State.withArgs_responses (s : State) (v : Args) : (s.withArgs v).responses = s.responses := rfl
@[simp] theorem State.withArgs_hostStop (s : State) (v : Args) : (s.withArgs v).hostStop = s.hostStop := rfl

@[simp] theorem State.withPrevDcEnc_platform (s : State) (v : Word) : (s.withPrevDcEnc v).platform = s.platform := rfl
@[simp] theorem State.withPrevDcEnc_ie (s : State) (v : Word) : (s.withPrevDcEnc v).ie = s.ie := rfl
@[simp] theorem State.withPrevDcEnc_status (s : State) (v : Word) : (s.withPrevDcEnc v).status = s.status := rfl
@[simp] theorem State.withPrevDcEnc_cmd (s : State) (v : Word) : (s.withPrevDcEnc v).cmd = s.cmd := rfl
@[simp] theorem State.withPrevDcEnc_args (s : State) (v : Word) : (s.withPrevDcEnc v).args = s.args := rfl
@[simp] theorem State.withPrevDcEnc_res0 (s : State) (v : Word) : (s.withPrevDcEnc v).res0 = s.res0 := rfl
@[simp] theorem State.withPrevDcEnc_res1 (s : State) (v : Word) : (s.withPrevDcEnc v).res1 = s.res1 := rfl
@[simp] theorem State.withPrevDcEnc_prevDcEnc (s : State) (v : Word) : (s.withPrevDcEnc v).prevDcEnc = v := rfl
@[simp] theorem State.withPrevDcEnc_prevDcDec (s : State) (v : Word) : (s.withPrevDcEnc v).prevDcDec = s.prevDcDec := rfl
@[simp] theorem State.withPrevDcEnc_latch (s : State) (v : Word) : (s.withPrevDcEnc v).latch = s.latch := rfl
@[simp] theorem State.withPrevDcEnc_huffman (s : State) (v : Word) : (s.withPrevDcEnc v).huffman = s.huffman := rfl
@[simp] theorem State.withPrevDcEnc_lmem (s : State) (v : Word) : (s.withPrevDcEnc v).lmem = s.lmem := rfl
@[simp] theorem State.withPrevDcEnc_drawCount (s : State) (v : Word) : (s.withPrevDcEnc v).drawCount = s.drawCount := rfl
@[simp] theorem State.withPrevDcEnc_schedule (s : State) (v : Word) : (s.withPrevDcEnc v).schedule = s.schedule := rfl
@[simp] theorem State.withPrevDcEnc_responses (s : State) (v : Word) : (s.withPrevDcEnc v).responses = s.responses := rfl
@[simp] theorem State.withPrevDcEnc_hostStop (s : State) (v : Word) : (s.withPrevDcEnc v).hostStop = s.hostStop := rfl

@[simp] theorem State.withPrevDcDec_platform (s : State) (v : Word) : (s.withPrevDcDec v).platform = s.platform := rfl
@[simp] theorem State.withPrevDcDec_ie (s : State) (v : Word) : (s.withPrevDcDec v).ie = s.ie := rfl
@[simp] theorem State.withPrevDcDec_status (s : State) (v : Word) : (s.withPrevDcDec v).status = s.status := rfl
@[simp] theorem State.withPrevDcDec_cmd (s : State) (v : Word) : (s.withPrevDcDec v).cmd = s.cmd := rfl
@[simp] theorem State.withPrevDcDec_args (s : State) (v : Word) : (s.withPrevDcDec v).args = s.args := rfl
@[simp] theorem State.withPrevDcDec_res0 (s : State) (v : Word) : (s.withPrevDcDec v).res0 = s.res0 := rfl
@[simp] theorem State.withPrevDcDec_res1 (s : State) (v : Word) : (s.withPrevDcDec v).res1 = s.res1 := rfl
@[simp] theorem State.withPrevDcDec_prevDcEnc (s : State) (v : Word) : (s.withPrevDcDec v).prevDcEnc = s.prevDcEnc := rfl
@[simp] theorem State.withPrevDcDec_prevDcDec (s : State) (v : Word) : (s.withPrevDcDec v).prevDcDec = v := rfl
@[simp] theorem State.withPrevDcDec_latch (s : State) (v : Word) : (s.withPrevDcDec v).latch = s.latch := rfl
@[simp] theorem State.withPrevDcDec_huffman (s : State) (v : Word) : (s.withPrevDcDec v).huffman = s.huffman := rfl
@[simp] theorem State.withPrevDcDec_lmem (s : State) (v : Word) : (s.withPrevDcDec v).lmem = s.lmem := rfl
@[simp] theorem State.withPrevDcDec_drawCount (s : State) (v : Word) : (s.withPrevDcDec v).drawCount = s.drawCount := rfl
@[simp] theorem State.withPrevDcDec_schedule (s : State) (v : Word) : (s.withPrevDcDec v).schedule = s.schedule := rfl
@[simp] theorem State.withPrevDcDec_responses (s : State) (v : Word) : (s.withPrevDcDec v).responses = s.responses := rfl
@[simp] theorem State.withPrevDcDec_hostStop (s : State) (v : Word) : (s.withPrevDcDec v).hostStop = s.hostStop := rfl

@[simp] theorem State.withLatch_platform (s : State) (v : Latch) : (s.withLatch v).platform = s.platform := rfl
@[simp] theorem State.withLatch_ie (s : State) (v : Latch) : (s.withLatch v).ie = s.ie := rfl
@[simp] theorem State.withLatch_status (s : State) (v : Latch) : (s.withLatch v).status = s.status := rfl
@[simp] theorem State.withLatch_cmd (s : State) (v : Latch) : (s.withLatch v).cmd = s.cmd := rfl
@[simp] theorem State.withLatch_args (s : State) (v : Latch) : (s.withLatch v).args = s.args := rfl
@[simp] theorem State.withLatch_res0 (s : State) (v : Latch) : (s.withLatch v).res0 = s.res0 := rfl
@[simp] theorem State.withLatch_res1 (s : State) (v : Latch) : (s.withLatch v).res1 = s.res1 := rfl
@[simp] theorem State.withLatch_prevDcEnc (s : State) (v : Latch) : (s.withLatch v).prevDcEnc = s.prevDcEnc := rfl
@[simp] theorem State.withLatch_prevDcDec (s : State) (v : Latch) : (s.withLatch v).prevDcDec = s.prevDcDec := rfl
@[simp] theorem State.withLatch_latch (s : State) (v : Latch) : (s.withLatch v).latch = v := rfl
@[simp] theorem State.withLatch_huffman (s : State) (v : Latch) : (s.withLatch v).huffman = s.huffman := rfl
@[simp] theorem State.withLatch_lmem (s : State) (v : Latch) : (s.withLatch v).lmem = s.lmem := rfl
@[simp] theorem State.withLatch_drawCount (s : State) (v : Latch) : (s.withLatch v).drawCount = s.drawCount := rfl
@[simp] theorem State.withLatch_schedule (s : State) (v : Latch) : (s.withLatch v).schedule = s.schedule := rfl
@[simp] theorem State.withLatch_responses (s : State) (v : Latch) : (s.withLatch v).responses = s.responses := rfl
@[simp] theorem State.withLatch_hostStop (s : State) (v : Latch) : (s.withLatch v).hostStop = s.hostStop := rfl

@[simp] theorem State.withHuffman_platform (s : State) (v : Option Huffman) : (s.withHuffman v).platform = s.platform := rfl
@[simp] theorem State.withHuffman_ie (s : State) (v : Option Huffman) : (s.withHuffman v).ie = s.ie := rfl
@[simp] theorem State.withHuffman_status (s : State) (v : Option Huffman) : (s.withHuffman v).status = s.status := rfl
@[simp] theorem State.withHuffman_cmd (s : State) (v : Option Huffman) : (s.withHuffman v).cmd = s.cmd := rfl
@[simp] theorem State.withHuffman_args (s : State) (v : Option Huffman) : (s.withHuffman v).args = s.args := rfl
@[simp] theorem State.withHuffman_res0 (s : State) (v : Option Huffman) : (s.withHuffman v).res0 = s.res0 := rfl
@[simp] theorem State.withHuffman_res1 (s : State) (v : Option Huffman) : (s.withHuffman v).res1 = s.res1 := rfl
@[simp] theorem State.withHuffman_prevDcEnc (s : State) (v : Option Huffman) : (s.withHuffman v).prevDcEnc = s.prevDcEnc := rfl
@[simp] theorem State.withHuffman_prevDcDec (s : State) (v : Option Huffman) : (s.withHuffman v).prevDcDec = s.prevDcDec := rfl
@[simp] theorem State.withHuffman_latch (s : State) (v : Option Huffman) : (s.withHuffman v).latch = s.latch := rfl
@[simp] theorem State.withHuffman_huffman (s : State) (v : Option Huffman) : (s.withHuffman v).huffman = v := rfl
@[simp] theorem State.withHuffman_lmem (s : State) (v : Option Huffman) : (s.withHuffman v).lmem = s.lmem := rfl
@[simp] theorem State.withHuffman_drawCount (s : State) (v : Option Huffman) : (s.withHuffman v).drawCount = s.drawCount := rfl
@[simp] theorem State.withHuffman_schedule (s : State) (v : Option Huffman) : (s.withHuffman v).schedule = s.schedule := rfl
@[simp] theorem State.withHuffman_responses (s : State) (v : Option Huffman) : (s.withHuffman v).responses = s.responses := rfl
@[simp] theorem State.withHuffman_hostStop (s : State) (v : Option Huffman) : (s.withHuffman v).hostStop = s.hostStop := rfl

@[simp] theorem State.withLmem_platform (s : State) (v : Memory) : (s.withLmem v).platform = s.platform := rfl
@[simp] theorem State.withLmem_ie (s : State) (v : Memory) : (s.withLmem v).ie = s.ie := rfl
@[simp] theorem State.withLmem_status (s : State) (v : Memory) : (s.withLmem v).status = s.status := rfl
@[simp] theorem State.withLmem_cmd (s : State) (v : Memory) : (s.withLmem v).cmd = s.cmd := rfl
@[simp] theorem State.withLmem_args (s : State) (v : Memory) : (s.withLmem v).args = s.args := rfl
@[simp] theorem State.withLmem_res0 (s : State) (v : Memory) : (s.withLmem v).res0 = s.res0 := rfl
@[simp] theorem State.withLmem_res1 (s : State) (v : Memory) : (s.withLmem v).res1 = s.res1 := rfl
@[simp] theorem State.withLmem_prevDcEnc (s : State) (v : Memory) : (s.withLmem v).prevDcEnc = s.prevDcEnc := rfl
@[simp] theorem State.withLmem_prevDcDec (s : State) (v : Memory) : (s.withLmem v).prevDcDec = s.prevDcDec := rfl
@[simp] theorem State.withLmem_latch (s : State) (v : Memory) : (s.withLmem v).latch = s.latch := rfl
@[simp] theorem State.withLmem_huffman (s : State) (v : Memory) : (s.withLmem v).huffman = s.huffman := rfl
@[simp] theorem State.withLmem_lmem (s : State) (v : Memory) : (s.withLmem v).lmem = v := rfl
@[simp] theorem State.withLmem_drawCount (s : State) (v : Memory) : (s.withLmem v).drawCount = s.drawCount := rfl
@[simp] theorem State.withLmem_schedule (s : State) (v : Memory) : (s.withLmem v).schedule = s.schedule := rfl
@[simp] theorem State.withLmem_responses (s : State) (v : Memory) : (s.withLmem v).responses = s.responses := rfl
@[simp] theorem State.withLmem_hostStop (s : State) (v : Memory) : (s.withLmem v).hostStop = s.hostStop := rfl

@[simp] theorem State.withDrawCount_platform (s : State) (v : Nat) : (s.withDrawCount v).platform = s.platform := rfl
@[simp] theorem State.withDrawCount_ie (s : State) (v : Nat) : (s.withDrawCount v).ie = s.ie := rfl
@[simp] theorem State.withDrawCount_status (s : State) (v : Nat) : (s.withDrawCount v).status = s.status := rfl
@[simp] theorem State.withDrawCount_cmd (s : State) (v : Nat) : (s.withDrawCount v).cmd = s.cmd := rfl
@[simp] theorem State.withDrawCount_args (s : State) (v : Nat) : (s.withDrawCount v).args = s.args := rfl
@[simp] theorem State.withDrawCount_res0 (s : State) (v : Nat) : (s.withDrawCount v).res0 = s.res0 := rfl
@[simp] theorem State.withDrawCount_res1 (s : State) (v : Nat) : (s.withDrawCount v).res1 = s.res1 := rfl
@[simp] theorem State.withDrawCount_prevDcEnc (s : State) (v : Nat) : (s.withDrawCount v).prevDcEnc = s.prevDcEnc := rfl
@[simp] theorem State.withDrawCount_prevDcDec (s : State) (v : Nat) : (s.withDrawCount v).prevDcDec = s.prevDcDec := rfl
@[simp] theorem State.withDrawCount_latch (s : State) (v : Nat) : (s.withDrawCount v).latch = s.latch := rfl
@[simp] theorem State.withDrawCount_huffman (s : State) (v : Nat) : (s.withDrawCount v).huffman = s.huffman := rfl
@[simp] theorem State.withDrawCount_lmem (s : State) (v : Nat) : (s.withDrawCount v).lmem = s.lmem := rfl
@[simp] theorem State.withDrawCount_drawCount (s : State) (v : Nat) : (s.withDrawCount v).drawCount = v := rfl
@[simp] theorem State.withDrawCount_schedule (s : State) (v : Nat) : (s.withDrawCount v).schedule = s.schedule := rfl
@[simp] theorem State.withDrawCount_responses (s : State) (v : Nat) : (s.withDrawCount v).responses = s.responses := rfl
@[simp] theorem State.withDrawCount_hostStop (s : State) (v : Nat) : (s.withDrawCount v).hostStop = s.hostStop := rfl

@[simp] theorem State.withSchedule_platform (s : State) (v : List Move) : (s.withSchedule v).platform = s.platform := rfl
@[simp] theorem State.withSchedule_ie (s : State) (v : List Move) : (s.withSchedule v).ie = s.ie := rfl
@[simp] theorem State.withSchedule_status (s : State) (v : List Move) : (s.withSchedule v).status = s.status := rfl
@[simp] theorem State.withSchedule_cmd (s : State) (v : List Move) : (s.withSchedule v).cmd = s.cmd := rfl
@[simp] theorem State.withSchedule_args (s : State) (v : List Move) : (s.withSchedule v).args = s.args := rfl
@[simp] theorem State.withSchedule_res0 (s : State) (v : List Move) : (s.withSchedule v).res0 = s.res0 := rfl
@[simp] theorem State.withSchedule_res1 (s : State) (v : List Move) : (s.withSchedule v).res1 = s.res1 := rfl
@[simp] theorem State.withSchedule_prevDcEnc (s : State) (v : List Move) : (s.withSchedule v).prevDcEnc = s.prevDcEnc := rfl
@[simp] theorem State.withSchedule_prevDcDec (s : State) (v : List Move) : (s.withSchedule v).prevDcDec = s.prevDcDec := rfl
@[simp] theorem State.withSchedule_latch (s : State) (v : List Move) : (s.withSchedule v).latch = s.latch := rfl
@[simp] theorem State.withSchedule_huffman (s : State) (v : List Move) : (s.withSchedule v).huffman = s.huffman := rfl
@[simp] theorem State.withSchedule_lmem (s : State) (v : List Move) : (s.withSchedule v).lmem = s.lmem := rfl
@[simp] theorem State.withSchedule_drawCount (s : State) (v : List Move) : (s.withSchedule v).drawCount = s.drawCount := rfl
@[simp] theorem State.withSchedule_schedule (s : State) (v : List Move) : (s.withSchedule v).schedule = v := rfl
@[simp] theorem State.withSchedule_responses (s : State) (v : List Move) : (s.withSchedule v).responses = s.responses := rfl
@[simp] theorem State.withSchedule_hostStop (s : State) (v : List Move) : (s.withSchedule v).hostStop = s.hostStop := rfl

@[simp] theorem State.withResponses_platform (s : State) (v : List (BitVec 64)) : (s.withResponses v).platform = s.platform := rfl
@[simp] theorem State.withResponses_ie (s : State) (v : List (BitVec 64)) : (s.withResponses v).ie = s.ie := rfl
@[simp] theorem State.withResponses_status (s : State) (v : List (BitVec 64)) : (s.withResponses v).status = s.status := rfl
@[simp] theorem State.withResponses_cmd (s : State) (v : List (BitVec 64)) : (s.withResponses v).cmd = s.cmd := rfl
@[simp] theorem State.withResponses_args (s : State) (v : List (BitVec 64)) : (s.withResponses v).args = s.args := rfl
@[simp] theorem State.withResponses_res0 (s : State) (v : List (BitVec 64)) : (s.withResponses v).res0 = s.res0 := rfl
@[simp] theorem State.withResponses_res1 (s : State) (v : List (BitVec 64)) : (s.withResponses v).res1 = s.res1 := rfl
@[simp] theorem State.withResponses_prevDcEnc (s : State) (v : List (BitVec 64)) : (s.withResponses v).prevDcEnc = s.prevDcEnc := rfl
@[simp] theorem State.withResponses_prevDcDec (s : State) (v : List (BitVec 64)) : (s.withResponses v).prevDcDec = s.prevDcDec := rfl
@[simp] theorem State.withResponses_latch (s : State) (v : List (BitVec 64)) : (s.withResponses v).latch = s.latch := rfl
@[simp] theorem State.withResponses_huffman (s : State) (v : List (BitVec 64)) : (s.withResponses v).huffman = s.huffman := rfl
@[simp] theorem State.withResponses_lmem (s : State) (v : List (BitVec 64)) : (s.withResponses v).lmem = s.lmem := rfl
@[simp] theorem State.withResponses_drawCount (s : State) (v : List (BitVec 64)) : (s.withResponses v).drawCount = s.drawCount := rfl
@[simp] theorem State.withResponses_schedule (s : State) (v : List (BitVec 64)) : (s.withResponses v).schedule = s.schedule := rfl
@[simp] theorem State.withResponses_responses (s : State) (v : List (BitVec 64)) : (s.withResponses v).responses = v := rfl
@[simp] theorem State.withResponses_hostStop (s : State) (v : List (BitVec 64)) : (s.withResponses v).hostStop = s.hostStop := rfl

@[simp] theorem State.withHostStop_platform (s : State) (v : Option Byte) : (s.withHostStop v).platform = s.platform := rfl
@[simp] theorem State.withHostStop_ie (s : State) (v : Option Byte) : (s.withHostStop v).ie = s.ie := rfl
@[simp] theorem State.withHostStop_status (s : State) (v : Option Byte) : (s.withHostStop v).status = s.status := rfl
@[simp] theorem State.withHostStop_cmd (s : State) (v : Option Byte) : (s.withHostStop v).cmd = s.cmd := rfl
@[simp] theorem State.withHostStop_args (s : State) (v : Option Byte) : (s.withHostStop v).args = s.args := rfl
@[simp] theorem State.withHostStop_res0 (s : State) (v : Option Byte) : (s.withHostStop v).res0 = s.res0 := rfl
@[simp] theorem State.withHostStop_res1 (s : State) (v : Option Byte) : (s.withHostStop v).res1 = s.res1 := rfl
@[simp] theorem State.withHostStop_prevDcEnc (s : State) (v : Option Byte) : (s.withHostStop v).prevDcEnc = s.prevDcEnc := rfl
@[simp] theorem State.withHostStop_prevDcDec (s : State) (v : Option Byte) : (s.withHostStop v).prevDcDec = s.prevDcDec := rfl
@[simp] theorem State.withHostStop_latch (s : State) (v : Option Byte) : (s.withHostStop v).latch = s.latch := rfl
@[simp] theorem State.withHostStop_huffman (s : State) (v : Option Byte) : (s.withHostStop v).huffman = s.huffman := rfl
@[simp] theorem State.withHostStop_lmem (s : State) (v : Option Byte) : (s.withHostStop v).lmem = s.lmem := rfl
@[simp] theorem State.withHostStop_drawCount (s : State) (v : Option Byte) : (s.withHostStop v).drawCount = s.drawCount := rfl
@[simp] theorem State.withHostStop_schedule (s : State) (v : Option Byte) : (s.withHostStop v).schedule = s.schedule := rfl
@[simp] theorem State.withHostStop_responses (s : State) (v : Option Byte) : (s.withHostStop v).responses = s.responses := rfl
@[simp] theorem State.withHostStop_hostStop (s : State) (v : Option Byte) : (s.withHostStop v).hostStop = v := rfl

@[simp] theorem State.withRes_platform (s : State) (v0 v1 : Word) : (s.withRes v0 v1).platform = s.platform := rfl
@[simp] theorem State.withRes_ie (s : State) (v0 v1 : Word) : (s.withRes v0 v1).ie = s.ie := rfl
@[simp] theorem State.withRes_status (s : State) (v0 v1 : Word) : (s.withRes v0 v1).status = s.status := rfl
@[simp] theorem State.withRes_cmd (s : State) (v0 v1 : Word) : (s.withRes v0 v1).cmd = s.cmd := rfl
@[simp] theorem State.withRes_args (s : State) (v0 v1 : Word) : (s.withRes v0 v1).args = s.args := rfl
@[simp] theorem State.withRes_res0 (s : State) (v0 v1 : Word) : (s.withRes v0 v1).res0 = v0 := rfl
@[simp] theorem State.withRes_res1 (s : State) (v0 v1 : Word) : (s.withRes v0 v1).res1 = v1 := rfl
@[simp] theorem State.withRes_prevDcEnc (s : State) (v0 v1 : Word) : (s.withRes v0 v1).prevDcEnc = s.prevDcEnc := rfl
@[simp] theorem State.withRes_prevDcDec (s : State) (v0 v1 : Word) : (s.withRes v0 v1).prevDcDec = s.prevDcDec := rfl
@[simp] theorem State.withRes_latch (s : State) (v0 v1 : Word) : (s.withRes v0 v1).latch = s.latch := rfl
@[simp] theorem State.withRes_huffman (s : State) (v0 v1 : Word) : (s.withRes v0 v1).huffman = s.huffman := rfl
@[simp] theorem State.withRes_lmem (s : State) (v0 v1 : Word) : (s.withRes v0 v1).lmem = s.lmem := rfl
@[simp] theorem State.withRes_drawCount (s : State) (v0 v1 : Word) : (s.withRes v0 v1).drawCount = s.drawCount := rfl
@[simp] theorem State.withRes_schedule (s : State) (v0 v1 : Word) : (s.withRes v0 v1).schedule = s.schedule := rfl
@[simp] theorem State.withRes_responses (s : State) (v0 v1 : Word) : (s.withRes v0 v1).responses = s.responses := rfl
@[simp] theorem State.withRes_hostStop (s : State) (v0 v1 : Word) : (s.withRes v0 v1).hostStop = s.hostStop := rfl

end Sys2Proof.Machine
end

