-- ==== Sys2Proof/Laws/Memory.lean ====
section
/-! SUPPORT. Memory: a read after a write, the canonical form, little-endian bytes. -/

namespace Sys2Proof.Machine

@[simp] theorem leBytes_length (n v : Nat) : (leBytes n v).length = n := by
  induction n generalizing v with
  | zero => rfl
  | succ n ih => simp [leBytes, ih]

theorem leValue_lt (bs : List Byte) : leValue bs < 256 ^ bs.length := by
  induction bs with
  | nil => simp [leValue]
  | cons b bs ih =>
    have hb := b.isLt
    simp only [leValue, List.length_cons, pow_succ]
    omega

/-- Little-endian bytes read back as the number they were made from (R9, R81). -/
theorem leValue_leBytes (n v : Nat) : leValue (leBytes n v) = v % 256 ^ n := by
  induction n generalizing v with
  | zero => simp [leBytes, leValue, Nat.mod_one]
  | succ n ih =>
    simp only [leBytes, leValue, ih, BitVec.toNat_ofNat]
    show v % 256 + 256 * (v / 256 % 256 ^ n) = v % 256 ^ (n + 1)
    rw [pow_succ, mul_comm (256 ^ n) 256, Nat.mod_mul]

@[simp] theorem i32Bytes_length (v : Int) : (i32Bytes v).length = 4 := by simp [i32Bytes]

@[simp] theorem f64Bytes_length (x : Double) : (f64Bytes x).length = 8 := by simp [f64Bytes]

/-- The four bytes of an i32 read back as that i32 (R9). -/
theorem i32Bytes_value (v : Int) : BitVec.ofNat 32 (leValue (i32Bytes v)) = BitVec.ofInt 32 v := by
  rw [i32Bytes, leValue_leBytes]
  apply BitVec.eq_of_toNat_eq
  have := (BitVec.ofInt 32 v).isLt
  simp only [BitVec.toNat_ofNat]
  omega

/-- The eight bytes of an f64 read back as that f64 (R9). -/
theorem f64Bytes_value (x : Double) : BitVec.ofNat 64 (leValue (f64Bytes x)) = x := by
  rw [f64Bytes, leValue_leBytes]
  apply BitVec.eq_of_toNat_eq
  have := x.isLt
  simp only [BitVec.toNat_ofNat]
  omega

theorem flatMap_length_const {α β : Type} (f : α → List β) (n : Nat) (h : ∀ x, (f x).length = n) (l : List α) :
    (l.flatMap f).length = n * l.length := by
  induction l with
  | nil => simp
  | cons x xs ih => simp only [List.flatMap_cons, List.length_append, h, ih, List.length_cons]; ring

/-! ### Cells -/

theorem mem_cellsAt {a : Nat} {bs : List Byte} {c : Host.Cell} (h : c ∈ cellsAt a bs) :
    a ≤ c.1 ∧ c.1 < a + bs.length := by
  induction bs generalizing a with
  | nil => simp [cellsAt] at h
  | cons b bs ih =>
    simp only [cellsAt, List.mem_cons] at h
    rcases h with rfl | h
    · simp
    · have := ih h
      simp only [List.length_cons]
      omega

theorem cellsAt_wf (a : Nat) (bs : List Byte) : Memory.wf (cellsAt a bs) := by
  induction bs generalizing a with
  | nil => exact List.Pairwise.nil
  | cons b bs ih =>
    refine List.Pairwise.cons (fun c hc => ?_) (ih (a + 1))
    have := mem_cellsAt hc
    simp only
    omega

theorem cellsAt_lookup (a k : Nat) (bs : List Byte) :
    (cellsAt a bs).lookup k = if a ≤ k then bs[k - a]? else none := by
  induction bs generalizing a with
  | nil => simp [cellsAt]
  | cons b bs ih =>
    simp only [cellsAt, List.lookup_cons, ih]
    by_cases h : k = a
    · subst h; simp
    · have hb : (k == a) = false := by simpa using h
      simp only [hb]
      by_cases hk : a + 1 ≤ k
      · have h1 : a ≤ k := by omega
        have h2 : k - a = (k - (a + 1)) + 1 := by omega
        simp [hk, h1, h2]
      · have h1 : ¬ a ≤ k := by omega
        simp [hk, h1]

theorem lookup_filter_of (p : Host.Cell → Bool) (k : Nat) (h : ∀ b, p (k, b) = true) (m : Memory) :
    List.lookup k (m.filter p) = List.lookup k m := by
  induction m with
  | nil => rfl
  | cons c m ih =>
    obtain ⟨j, b⟩ := c
    by_cases hk : k = j
    · subst hk; simp [h b]
    · have hb : (k == j) = false := by simpa using hk
      by_cases hp : p (j, b) = true
      · simp [hp, List.lookup_cons, hb, ih]
      · simp [hp, List.lookup_cons, hb, ih]

theorem lookup_filter_not (p : Host.Cell → Bool) (k : Nat) (h : ∀ b, p (k, b) = false) (m : Memory) :
    List.lookup k (m.filter p) = none := by
  induction m with
  | nil => rfl
  | cons c m ih =>
    obtain ⟨j, b⟩ := c
    by_cases hp : p (j, b) = true
    · have hk : k ≠ j := by rintro rfl; simp [h b] at hp
      have hb : (k == j) = false := by simpa using hk
      simp [hp, List.lookup_cons, hb, ih]
    · simp [hp, ih]

/-! ### Writes -/

/-- A byte after a write: the byte written there, or what stood there before. -/
theorem Memory.get?_put (m : Memory) (a : Nat) (bs : List Byte) (k : Nat) :
    (m.put a bs).get? k = if a ≤ k ∧ k < a + bs.length then bs[k - a]? else m.get? k := by
  cases bs with
  | nil => simp [Memory.put]
  | cons b bs =>
    simp only [Memory.put, Memory.get?, List.lookup_append, cellsAt_lookup]
    by_cases h1 : a ≤ k
    · rw [lookup_filter_not _ k (by intro _; simpa using h1)]
      by_cases h2 : k < a + (b :: bs).length
      · have h4 : k - a < (b :: bs).length := by simp only [List.length_cons] at h2 ⊢; omega
        rw [if_pos h1, if_pos ⟨h1, h2⟩, List.getElem?_eq_getElem h4]
        simp
      · have h4 : (b :: bs)[k - a]? = none := by
          rw [List.getElem?_eq_none_iff]; simp only [List.length_cons] at h2 ⊢; omega
        rw [lookup_filter_of _ k (by intro _; simp only [List.length_cons] at h2; simp; omega)]
        rw [if_pos h1, if_neg (fun h => h2 h.2), h4]
        simp
    · rw [lookup_filter_of _ k (by intro _; simp; omega),
        lookup_filter_not (fun c => decide (a + (bs.length + 1) ≤ c.1)) k (by intro _; simp; omega)]
      have h3 : ¬ (a ≤ k ∧ k < a + (b :: bs).length) := fun h => h1 h.1
      rw [if_neg h1, if_neg h3]
      simp

theorem Memory.get?_put_outside (m : Memory) {a k : Nat} {bs : List Byte} (h : ¬ (a ≤ k ∧ k < a + bs.length)) :
    (m.put a bs).get? k = m.get? k := by rw [Memory.get?_put, if_neg h]

theorem Memory.get?_put_inside (m : Memory) {a j : Nat} {bs : List Byte} (h : j < bs.length) :
    (m.put a bs).get? (a + j) = bs[j]? := by
  rw [Memory.get?_put, if_pos ⟨by omega, by omega⟩]; simp

/-- A write keeps the canonical form. -/
theorem Memory.put_wf {m : Memory} (h : m.wf) (a : Nat) (bs : List Byte) : (m.put a bs).wf := by
  cases bs with
  | nil => exact h
  | cons b bs =>
    simp only [Memory.put, Memory.wf, List.pairwise_append]
    refine ⟨⟨h.filter _, cellsAt_wf a (b :: bs), ?_⟩, h.filter _, ?_⟩
    · intro c hc d hd
      have h1 := (List.mem_filter.mp hc).2
      have h2 := mem_cellsAt hd
      simp only [decide_eq_true_eq] at h1
      omega
    · intro c hc d hd
      have h2 := (List.mem_filter.mp hd).2
      simp only [decide_eq_true_eq] at h2
      rcases List.mem_append.mp hc with hc | hc
      · have h1 := (List.mem_filter.mp hc).2
        simp only [decide_eq_true_eq] at h1
        omega
      · have h1 := mem_cellsAt hc
        simp only [List.length_cons] at h1
        omega

/-- A write inside LMEM keeps memory inside LMEM. -/
theorem Memory.put_within {m : Memory} {size a : Nat} {bs : List Byte} (h : m.within size)
    (hb : bs = [] ∨ a + bs.length ≤ size) : (m.put a bs).within size := by
  cases bs with
  | nil => exact h
  | cons b bs =>
    have hb : a + (b :: bs).length ≤ size := by simpa using hb
    intro c hc
    simp only [Memory.put, List.mem_append, List.mem_filter] at hc
    rcases hc with (⟨hc, -⟩ | hc) | ⟨hc, -⟩
    · exact h c hc
    · have := mem_cellsAt hc; omega
    · exact h c hc

end Sys2Proof.Machine
end

