-- ==== Sys2Proof/Laws/Reads.lean ====
section
/-! SUPPORT. What the reads of a command answer: the values where LMEM holds them, the fault at a byte with no value
otherwise (70_reset_and_hazards.md R401). -/

namespace Sys2Proof.Machine

theorem readByte_ok_iff {s : State} {a : Nat} {b : Byte} : s.readByte a = .ok b ↔ s.lmem.get? a = some b := by
  unfold State.readByte
  split <;> simp_all

theorem readByte_error {s : State} {a : Nat} {e : Stop} (h : s.readByte a = .error e) :
    s.lmem.get? a = none ∧ e = .fault (.noValue a) := by
  unfold State.readByte at h
  split at h <;> simp_all

theorem holds_cons {s : State} {a : Nat} {b : Byte} {bs : List Byte} :
    s.holds a (b :: bs) ↔ s.lmem.get? a = some b ∧ s.holds (a + 1) bs := by
  constructor
  · intro h
    refine ⟨by simpa using h 0 (by simp), fun j hj => ?_⟩
    have := h (j + 1) (by simpa using hj)
    rw [show a + 1 + j = a + (j + 1) by omega]
    simpa using this
  · rintro ⟨h0, h⟩ j hj
    cases j with
    | zero => simpa using h0
    | succ j =>
      have := h j (by simpa using hj)
      rw [show a + (j + 1) = a + 1 + j by omega]
      simpa using this

theorem holds_append {s : State} {a : Nat} {bs cs : List Byte} :
    s.holds a (bs ++ cs) ↔ s.holds a bs ∧ s.holds (a + bs.length) cs := by
  induction bs generalizing a with
  | nil => simp [State.holds]
  | cons b bs ih =>
    rw [List.cons_append, holds_cons, holds_cons, ih, List.length_cons, and_assoc,
      show a + (bs.length + 1) = a + 1 + bs.length by omega]

/-- Bytes just written are held. -/
theorem holds_put (s : State) (a : Nat) (bs : List Byte) : (s.withLmem (s.lmem.put a bs)).holds a bs := by
  intro j hj
  exact Memory.get?_put_inside _ hj

theorem readBytes_ok_iff {s : State} {a n : Nat} {bs : List Byte} :
    s.readBytes a n = .ok bs ↔ bs.length = n ∧ s.holds a bs := by
  induction n generalizing a bs with
  | zero =>
    simp only [State.readBytes, Except.ok.injEq]
    constructor
    · rintro rfl; simp [State.holds]
    · rintro ⟨h, -⟩; exact (List.length_eq_zero_iff.mp h).symm
  | succ n ih =>
    cases hb : s.readByte a with
    | error e =>
      have := (readByte_error hb).1
      simp only [State.readBytes, hb]
      constructor
      · intro h; cases h
      · rintro ⟨hl, hh⟩
        obtain ⟨b, bs, rfl⟩ := List.exists_cons_of_length_eq_add_one hl
        rw [(holds_cons.mp hh).1] at this
        cases this
    | ok b =>
      simp only [State.readBytes, hb]
      cases hr : s.readBytes (a + 1) n with
      | error e =>
        simp only
        constructor
        · intro h; cases h
        · rintro ⟨hl, hh⟩
          obtain ⟨c, cs, rfl⟩ := List.exists_cons_of_length_eq_add_one hl
          rw [(ih (bs := cs)).mpr ⟨by simpa using hl, (holds_cons.mp hh).2⟩] at hr
          cases hr
      | ok cs =>
        obtain ⟨hl, hh⟩ := ih.mp hr
        simp only [Except.ok.injEq]
        constructor
        · rintro rfl
          exact ⟨by simp [hl], holds_cons.mpr ⟨readByte_ok_iff.mp hb, hh⟩⟩
        · rintro ⟨hl', hh'⟩
          obtain ⟨d, ds, rfl⟩ := List.exists_cons_of_length_eq_add_one hl'
          obtain ⟨h0, h1⟩ := holds_cons.mp hh'
          rw [readByte_ok_iff.mp hb] at h0
          have := (ih (bs := ds)).mpr ⟨by simpa using hl', h1⟩
          rw [hr] at this
          cases h0
          cases this
          rfl

/-- A stop of `readBytes` is the fault at a byte with no value. -/
theorem readBytes_error {s : State} {a n : Nat} {e : Stop} (h : s.readBytes a n = .error e) :
    ∃ j, j < n ∧ s.lmem.get? (a + j) = none ∧ e = .fault (.noValue (a + j)) := by
  induction n generalizing a with
  | zero => cases h
  | succ n ih =>
    simp only [State.readBytes] at h
    split at h
    next e' hb =>
      cases h
      obtain ⟨h1, h2⟩ := readByte_error hb
      exact ⟨0, by omega, h1, h2⟩
    next b hb =>
      split at h
      next e' hr =>
        cases h
        obtain ⟨j, hj, h1, h2⟩ := ih hr
        exact ⟨j + 1, by omega, by rw [← h1]; congr 1; omega, by rw [h2]; congr 2; omega⟩
      next => cases h

theorem readEach_ok_iff {α : Type} {f : Nat → Except Stop α} {ks : List Nat} {vs : List α} :
    readEach f ks = .ok vs ↔ List.Forall₂ (fun k v => f k = .ok v) ks vs := by
  induction ks generalizing vs with
  | nil => simp [readEach, eq_comm]
  | cons k ks ih =>
    cases hk : f k with
    | error e =>
      simp only [readEach, hk]
      constructor
      · intro h; cases h
      · intro h
        cases h with
        | cons h1 _ => rw [hk] at h1; cases h1
    | ok v =>
      cases hr : readEach f ks with
      | error e =>
        simp only [readEach, hk, hr]
        constructor
        · intro h; cases h
        · intro h
          cases h with
          | cons _ h2 => rw [ih.mpr h2] at hr; cases hr
      | ok ws =>
        simp only [readEach, hk, hr, Except.ok.injEq]
        constructor
        · rintro rfl
          exact .cons hk (ih.mp hr)
        · intro h
          cases h with
          | cons h1 h2 =>
            rw [hk] at h1
            rw [ih.mpr h2] at hr
            cases h1
            cases hr
            rfl

theorem readEach_length {α : Type} {f : Nat → Except Stop α} {ks : List Nat} {vs : List α}
    (h : readEach f ks = .ok vs) : vs.length = ks.length :=
  (readEach_ok_iff.mp h).length_eq.symm

/-- A stop of `readEach` is a stop of one of its reads. -/
theorem readEach_error {α : Type} {f : Nat → Except Stop α} {ks : List Nat} {e : Stop}
    (h : readEach f ks = .error e) : ∃ k ∈ ks, f k = .error e := by
  induction ks with
  | nil => cases h
  | cons k ks ih =>
    simp only [readEach] at h
    split at h
    next e' hk => cases h; exact ⟨k, by simp, hk⟩
    next v hk =>
      split at h
      next e' hr =>
        cases h
        obtain ⟨j, hj, hf⟩ := ih hr
        exact ⟨j, by simp [hj], hf⟩
      next => cases h

/-- Reading an item for each index of a range gives the items, when each read gives its item. -/
theorem readEach_range {α : Type} {f : Nat → Except Stop α} {n : Nat} {vs : List α} (hl : vs.length = n)
    (h : ∀ k v, vs[k]? = some v → f k = .ok v) : readEach f (List.range n) = .ok vs := by
  rw [readEach_ok_iff, List.forall₂_iff_get]
  refine ⟨by simp [hl], fun i h1 h2 => ?_⟩
  simp only [List.get_eq_getElem, List.getElem_range]
  exact h i _ (by simp)

/-- A part of a flat list of elements of one size. -/
theorem holds_element {α : Type} {s : State} {a n : Nat} {f : α → List Byte} (hf : ∀ x, (f x).length = n) {l : List α}
    (h : s.holds a (l.flatMap f)) {i : Nat} {x : α} (hi : l[i]? = some x) : s.holds (a + n * i) (f x) := by
  induction l generalizing a i with
  | nil => simp at hi
  | cons y l ih =>
    rw [List.flatMap_cons, holds_append, hf] at h
    cases i with
    | zero => simp only [List.getElem?_cons_zero, Option.some.injEq] at hi; subst hi; simpa using h.1
    | succ i =>
      have := ih h.2 (i := i) (by simpa using hi)
      rw [show a + n * (i + 1) = a + n + n * i by ring]
      exact this

/-- RdI32 of the bytes of an i32 (R9). -/
theorem readI32_of_holds {s : State} {a : Nat} {v : Int} (h : s.holds a (i32Bytes v))
    (hv : -2147483648 ≤ v ∧ v ≤ 2147483647) : s.readI32 a = .ok v := by
  have := (readBytes_ok_iff (n := 4)).mpr ⟨i32Bytes_length v, h⟩
  rw [State.readI32, this]
  simp only [Except.map, i32Bytes_value, Except.ok.injEq]
  rw [BitVec.toInt_ofInt, Int.bmod_def]
  have h2 : ((2 ^ 32 : Nat) : Int) = 4294967296 := by norm_num
  rw [h2]
  split <;> omega

/-- RdF64 of the bytes of an f64 (R9). -/
theorem readF64_of_holds {s : State} {a : Nat} {x : Double} (h : s.holds a (f64Bytes x)) : s.readF64 a = .ok x := by
  have := (readBytes_ok_iff (n := 8)).mpr ⟨f64Bytes_length x, h⟩
  rw [State.readF64, this]
  simp only [Except.map, f64Bytes_value]

theorem readI32Block_of_holds {s : State} {a : Nat} {z : List Int} (h : s.holdsI32Block a z) :
    s.readI32Block a = .ok z := by
  obtain ⟨hl, hr, hh⟩ := h
  refine readEach_range hl fun k v hk => ?_
  exact readI32_of_holds (holds_element i32Bytes_length hh hk) (hr v (List.mem_of_getElem? hk))

theorem readF64Block_of_holds {s : State} {a : Nat} {f : List Double} (h : s.holdsF64Block a f) :
    s.readF64Block a = .ok f := by
  obtain ⟨hl, hh⟩ := h
  refine readEach_range hl fun k v hk => ?_
  exact readF64_of_holds (holds_element f64Bytes_length hh hk)

theorem readI32Block_length {s : State} {a : Nat} {z : List Int} (h : s.readI32Block a = .ok z) : z.length = 64 := by
  simpa using readEach_length h

theorem readF64Block_length {s : State} {a : Nat} {f : List Double} (h : s.readF64Block a = .ok f) : f.length = 64 := by
  simpa using readEach_length h

/-- A stop of a block's read is the fault at a byte of the block with no value. -/
theorem readI32Block_error {s : State} {a : Nat} {e : Stop} (h : s.readI32Block a = .error e) :
    ∃ j, j < 256 ∧ s.lmem.get? (a + j) = none ∧ e = .fault (.noValue (a + j)) := by
  obtain ⟨k, hk, hf⟩ := readEach_error h
  unfold State.readI32 at hf
  cases hb : s.readBytes (a + 4 * k) 4 with
  | ok bs => simp [hb, Except.map] at hf
  | error e' =>
    simp only [hb, Except.map, Except.error.injEq] at hf
    obtain ⟨j, hj, h1, h2⟩ := readBytes_error hb
    have := List.mem_range.mp hk
    exact ⟨4 * k + j, by omega, by rw [← h1]; congr 1; omega, by rw [← hf, h2]; congr 2; omega⟩

theorem readF64Block_error {s : State} {a : Nat} {e : Stop} (h : s.readF64Block a = .error e) :
    ∃ j, j < 512 ∧ s.lmem.get? (a + j) = none ∧ e = .fault (.noValue (a + j)) := by
  obtain ⟨k, hk, hf⟩ := readEach_error h
  unfold State.readF64 at hf
  cases hb : s.readBytes (a + 8 * k) 8 with
  | ok bs => simp [hb, Except.map] at hf
  | error e' =>
    simp only [hb, Except.map, Except.error.injEq] at hf
    obtain ⟨j, hj, h1, h2⟩ := readBytes_error hb
    have := List.mem_range.mp hk
    exact ⟨8 * k + j, by omega, by rw [← h1]; congr 1; omega, by rw [← hf, h2]; congr 2; omega⟩

end Sys2Proof.Machine
end

