-- ==== Sys2Proof/Laws/Completion.lean ====
section
/-! SUPPORT. The shared operations of a completion, once each: the check order, the success, the errors, and what
`runCommand`, and so every command, can answer. -/

namespace Sys2Proof.Machine

/-! ### The check order -/

/-- Every check of R351 passes. -/
theorem precheck_none_iff {i : Instr} {s : State} :
    precheck i s = none ↔
      argError i s.latch.args = none ∧
      (∀ r ∈ regions i s.latch.args, r.start + r.len ≤ s.platform.lmemSize) ∧
      (∀ r ∈ regions i s.latch.args, r.start % r.align = 0) ∧
      (refusesOverlap i = true → srcDstOverlap i s.latch.args = false) ∧
      (needsTree i = true → s.treeValid = true) := by
  unfold precheck
  cases argError i s.latch.args with
  | some e => simp
  | none =>
    simp only [List.all_eq_true, Region.inRange, Region.aligned, decide_eq_true_eq, true_and]
    split
    next h1 =>
      split
      next h2 =>
        cases refusesOverlap i <;> cases srcDstOverlap i s.latch.args <;> cases needsTree i <;>
          cases s.treeValid <;> simp_all
      next h2 => simp [h2]
    next h1 => simp [h1]

theorem mem_regions_dst {i : Instr} {l : Args} {r : Region} (h : dstRegion i l = some r) : r ∈ regions i l := by
  simp [regions, h]

theorem mem_regions_src {i : Instr} {l : Args} {r : Region} (h : srcRegion i l = some r) : r ∈ regions i l := by
  simp [regions, h]

/-! ### Success -/

theorem complete_next_iff {s t : State} {e : Effect} :
    complete s e = .next t ↔ e.base + e.bytes.length ≤ s.platform.lmemSize ∧ t = s.succeed e := by
  unfold complete
  split <;> simp_all [eq_comm]

theorem complete_of_le {s : State} {e : Effect} (h : e.base + e.bytes.length ≤ s.platform.lmemSize) :
    complete s e = .next (s.succeed e) := by simp [complete, h]

theorem complete_not_refused {s : State} {e : Effect} {r : Refusal} : complete s e ≠ .refused r := by
  unfold complete
  split <;> simp

@[simp] theorem State.succeed_platform (s : State) (e : Effect) : (s.succeed e).platform = s.platform := rfl
@[simp] theorem State.succeed_ie (s : State) (e : Effect) : (s.succeed e).ie = s.ie := rfl
@[simp] theorem State.succeed_status (s : State) (e : Effect) : (s.succeed e).status = s.status.complete .ok e.malformed := rfl
@[simp] theorem State.succeed_cmd (s : State) (e : Effect) : (s.succeed e).cmd = s.cmd := rfl
@[simp] theorem State.succeed_args (s : State) (e : Effect) : (s.succeed e).args = s.args := rfl
@[simp] theorem State.succeed_res0 (s : State) (e : Effect) : (s.succeed e).res0 = e.res0 := rfl
@[simp] theorem State.succeed_res1 (s : State) (e : Effect) : (s.succeed e).res1 = e.res1 := rfl
@[simp] theorem State.succeed_prevDcEnc (s : State) (e : Effect) : (s.succeed e).prevDcEnc = e.prevDcEnc.getD s.prevDcEnc := rfl
@[simp] theorem State.succeed_prevDcDec (s : State) (e : Effect) : (s.succeed e).prevDcDec = e.prevDcDec.getD s.prevDcDec := rfl
@[simp] theorem State.succeed_latch (s : State) (e : Effect) : (s.succeed e).latch = s.latch := rfl
@[simp] theorem State.succeed_huffman (s : State) (e : Effect) : (s.succeed e).huffman = e.huffman.or s.huffman := rfl
@[simp] theorem State.succeed_lmem (s : State) (e : Effect) : (s.succeed e).lmem = s.lmem.put e.base e.bytes := rfl
@[simp] theorem State.succeed_drawCount (s : State) (e : Effect) : (s.succeed e).drawCount = s.drawCount := rfl
@[simp] theorem State.succeed_schedule (s : State) (e : Effect) : (s.succeed e).schedule = s.schedule := rfl
@[simp] theorem State.succeed_responses (s : State) (e : Effect) : (s.succeed e).responses = s.responses := rfl
@[simp] theorem State.succeed_hostStop (s : State) (e : Effect) : (s.succeed e).hostStop = s.hostStop := rfl

/-! ### Errors -/

@[simp] theorem State.failWith_platform (s : State) (e : ErrCode) : (s.failWith e).platform = s.platform := rfl
@[simp] theorem State.failWith_ie (s : State) (e : ErrCode) : (s.failWith e).ie = s.ie := rfl
@[simp] theorem State.failWith_status (s : State) (e : ErrCode) : (s.failWith e).status = s.status.complete e false := rfl
@[simp] theorem State.failWith_cmd (s : State) (e : ErrCode) : (s.failWith e).cmd = s.cmd := rfl
@[simp] theorem State.failWith_args (s : State) (e : ErrCode) : (s.failWith e).args = s.args := rfl
@[simp] theorem State.failWith_res0 (s : State) (e : ErrCode) : (s.failWith e).res0 = 0 := rfl
@[simp] theorem State.failWith_res1 (s : State) (e : ErrCode) : (s.failWith e).res1 = 0 := rfl
@[simp] theorem State.failWith_prevDcEnc (s : State) (e : ErrCode) : (s.failWith e).prevDcEnc = s.prevDcEnc := rfl
@[simp] theorem State.failWith_prevDcDec (s : State) (e : ErrCode) : (s.failWith e).prevDcDec = s.prevDcDec := rfl
@[simp] theorem State.failWith_latch (s : State) (e : ErrCode) : (s.failWith e).latch = s.latch := rfl
@[simp] theorem State.failWith_huffman (s : State) (e : ErrCode) : (s.failWith e).huffman = s.huffman := rfl
@[simp] theorem State.failWith_lmem (s : State) (e : ErrCode) : (s.failWith e).lmem = s.lmem := rfl
@[simp] theorem State.failWith_drawCount (s : State) (e : ErrCode) : (s.failWith e).drawCount = s.drawCount := rfl
@[simp] theorem State.failWith_schedule (s : State) (e : ErrCode) : (s.failWith e).schedule = s.schedule := rfl
@[simp] theorem State.failWith_responses (s : State) (e : ErrCode) : (s.failWith e).responses = s.responses := rfl
@[simp] theorem State.failWith_hostStop (s : State) (e : ErrCode) : (s.failWith e).hostStop = s.hostStop := rfl

@[simp] theorem State.failCommand_platform (s : State) (i : Instr) (e : ErrCode) : (s.failCommand i e).platform = s.platform := by
  unfold State.failCommand
  split <;> simp [*]
@[simp] theorem State.failCommand_ie (s : State) (i : Instr) (e : ErrCode) : (s.failCommand i e).ie = s.ie := by
  unfold State.failCommand
  split <;> simp [*]
@[simp] theorem State.failCommand_status (s : State) (i : Instr) (e : ErrCode) : (s.failCommand i e).status = s.status.complete e false := by
  unfold State.failCommand
  split <;> simp [*]
@[simp] theorem State.failCommand_cmd (s : State) (i : Instr) (e : ErrCode) : (s.failCommand i e).cmd = s.cmd := by
  unfold State.failCommand
  split <;> simp [*]
@[simp] theorem State.failCommand_args (s : State) (i : Instr) (e : ErrCode) : (s.failCommand i e).args = s.args := by
  unfold State.failCommand
  split <;> simp [*]
@[simp] theorem State.failCommand_res0 (s : State) (i : Instr) (e : ErrCode) : (s.failCommand i e).res0 = 0 := by
  unfold State.failCommand
  split <;> simp [*]
@[simp] theorem State.failCommand_res1 (s : State) (i : Instr) (e : ErrCode) : (s.failCommand i e).res1 = 0 := by
  unfold State.failCommand
  split <;> simp [*]
@[simp] theorem State.failCommand_prevDcEnc (s : State) (i : Instr) (e : ErrCode) : (s.failCommand i e).prevDcEnc = s.prevDcEnc := by
  unfold State.failCommand
  split <;> simp [*]
@[simp] theorem State.failCommand_prevDcDec (s : State) (i : Instr) (e : ErrCode) : (s.failCommand i e).prevDcDec = s.prevDcDec := by
  unfold State.failCommand
  split <;> simp [*]
@[simp] theorem State.failCommand_latch (s : State) (i : Instr) (e : ErrCode) : (s.failCommand i e).latch = s.latch := by
  unfold State.failCommand
  split <;> simp [*]
@[simp] theorem State.failCommand_huffman (s : State) (i : Instr) (e : ErrCode) : (s.failCommand i e).huffman = if dropsTree i then none else s.huffman := by
  unfold State.failCommand
  split <;> simp [*]
@[simp] theorem State.failCommand_lmem (s : State) (i : Instr) (e : ErrCode) : (s.failCommand i e).lmem = s.lmem := by
  unfold State.failCommand
  split <;> simp [*]
@[simp] theorem State.failCommand_drawCount (s : State) (i : Instr) (e : ErrCode) : (s.failCommand i e).drawCount = s.drawCount := by
  unfold State.failCommand
  split <;> simp [*]
@[simp] theorem State.failCommand_schedule (s : State) (i : Instr) (e : ErrCode) : (s.failCommand i e).schedule = s.schedule := by
  unfold State.failCommand
  split <;> simp [*]
@[simp] theorem State.failCommand_responses (s : State) (i : Instr) (e : ErrCode) : (s.failCommand i e).responses = s.responses := by
  unfold State.failCommand
  split <;> simp [*]
@[simp] theorem State.failCommand_hostStop (s : State) (i : Instr) (e : ErrCode) : (s.failCommand i e).hostStop = s.hostStop := by
  unfold State.failCommand
  split <;> simp [*]

@[simp] theorem State.drawRegion_platform (s : State) (r : Region) : (s.drawRegion r).platform = s.platform := rfl
@[simp] theorem State.drawRegion_ie (s : State) (r : Region) : (s.drawRegion r).ie = s.ie := rfl
@[simp] theorem State.drawRegion_status (s : State) (r : Region) : (s.drawRegion r).status = s.status := rfl
@[simp] theorem State.drawRegion_cmd (s : State) (r : Region) : (s.drawRegion r).cmd = s.cmd := rfl
@[simp] theorem State.drawRegion_args (s : State) (r : Region) : (s.drawRegion r).args = s.args := rfl
@[simp] theorem State.drawRegion_res0 (s : State) (r : Region) : (s.drawRegion r).res0 = s.res0 := rfl
@[simp] theorem State.drawRegion_res1 (s : State) (r : Region) : (s.drawRegion r).res1 = s.res1 := rfl
@[simp] theorem State.drawRegion_prevDcEnc (s : State) (r : Region) : (s.drawRegion r).prevDcEnc = s.prevDcEnc := rfl
@[simp] theorem State.drawRegion_prevDcDec (s : State) (r : Region) : (s.drawRegion r).prevDcDec = s.prevDcDec := rfl
@[simp] theorem State.drawRegion_latch (s : State) (r : Region) : (s.drawRegion r).latch = s.latch := rfl
@[simp] theorem State.drawRegion_huffman (s : State) (r : Region) : (s.drawRegion r).huffman = s.huffman := rfl
@[simp] theorem State.drawRegion_lmem (s : State) (r : Region) : (s.drawRegion r).lmem = s.lmem.put r.start (drawBytes s.drawCount (r.lenIn s.platform.lmemSize)) := rfl
@[simp] theorem State.drawRegion_drawCount (s : State) (r : Region) : (s.drawRegion r).drawCount = s.drawCount + r.lenIn s.platform.lmemSize := rfl
@[simp] theorem State.drawRegion_schedule (s : State) (r : Region) : (s.drawRegion r).schedule = s.schedule := rfl
@[simp] theorem State.drawRegion_responses (s : State) (r : Region) : (s.drawRegion r).responses = s.responses := rfl
@[simp] theorem State.drawRegion_hostStop (s : State) (r : Region) : (s.drawRegion r).hostStop = s.hostStop := rfl

@[simp] theorem State.drawDst_platform (s : State) (i : Instr) : (s.drawDst i).platform = s.platform := by
  unfold State.drawDst
  split <;> simp
@[simp] theorem State.drawDst_ie (s : State) (i : Instr) : (s.drawDst i).ie = s.ie := by
  unfold State.drawDst
  split <;> simp
@[simp] theorem State.drawDst_status (s : State) (i : Instr) : (s.drawDst i).status = s.status := by
  unfold State.drawDst
  split <;> simp
@[simp] theorem State.drawDst_cmd (s : State) (i : Instr) : (s.drawDst i).cmd = s.cmd := by
  unfold State.drawDst
  split <;> simp
@[simp] theorem State.drawDst_args (s : State) (i : Instr) : (s.drawDst i).args = s.args := by
  unfold State.drawDst
  split <;> simp
@[simp] theorem State.drawDst_res0 (s : State) (i : Instr) : (s.drawDst i).res0 = s.res0 := by
  unfold State.drawDst
  split <;> simp
@[simp] theorem State.drawDst_res1 (s : State) (i : Instr) : (s.drawDst i).res1 = s.res1 := by
  unfold State.drawDst
  split <;> simp
@[simp] theorem State.drawDst_prevDcEnc (s : State) (i : Instr) : (s.drawDst i).prevDcEnc = s.prevDcEnc := by
  unfold State.drawDst
  split <;> simp
@[simp] theorem State.drawDst_prevDcDec (s : State) (i : Instr) : (s.drawDst i).prevDcDec = s.prevDcDec := by
  unfold State.drawDst
  split <;> simp
@[simp] theorem State.drawDst_latch (s : State) (i : Instr) : (s.drawDst i).latch = s.latch := by
  unfold State.drawDst
  split <;> simp
@[simp] theorem State.drawDst_huffman (s : State) (i : Instr) : (s.drawDst i).huffman = s.huffman := by
  unfold State.drawDst
  split <;> simp
@[simp] theorem State.drawDst_schedule (s : State) (i : Instr) : (s.drawDst i).schedule = s.schedule := by
  unfold State.drawDst
  split <;> simp
@[simp] theorem State.drawDst_responses (s : State) (i : Instr) : (s.drawDst i).responses = s.responses := by
  unfold State.drawDst
  split <;> simp
@[simp] theorem State.drawDst_hostStop (s : State) (i : Instr) : (s.drawDst i).hostStop = s.hostStop := by
  unfold State.drawDst
  split <;> simp

@[simp] theorem State.failExecute_platform (s : State) (i : Instr) (e : ErrCode) : (s.failExecute i e).platform = s.platform := by
  unfold State.failExecute
  split <;> simp
@[simp] theorem State.failExecute_ie (s : State) (i : Instr) (e : ErrCode) : (s.failExecute i e).ie = s.ie := by
  unfold State.failExecute
  split <;> simp
@[simp] theorem State.failExecute_status (s : State) (i : Instr) (e : ErrCode) : (s.failExecute i e).status = s.status.complete e false := by
  unfold State.failExecute
  split <;> simp
@[simp] theorem State.failExecute_cmd (s : State) (i : Instr) (e : ErrCode) : (s.failExecute i e).cmd = s.cmd := by
  unfold State.failExecute
  split <;> simp
@[simp] theorem State.failExecute_args (s : State) (i : Instr) (e : ErrCode) : (s.failExecute i e).args = s.args := by
  unfold State.failExecute
  split <;> simp
@[simp] theorem State.failExecute_res0 (s : State) (i : Instr) (e : ErrCode) : (s.failExecute i e).res0 = 0 := by
  unfold State.failExecute
  split <;> simp
@[simp] theorem State.failExecute_res1 (s : State) (i : Instr) (e : ErrCode) : (s.failExecute i e).res1 = 0 := by
  unfold State.failExecute
  split <;> simp
@[simp] theorem State.failExecute_prevDcEnc (s : State) (i : Instr) (e : ErrCode) : (s.failExecute i e).prevDcEnc = s.prevDcEnc := by
  unfold State.failExecute
  split <;> simp
@[simp] theorem State.failExecute_prevDcDec (s : State) (i : Instr) (e : ErrCode) : (s.failExecute i e).prevDcDec = s.prevDcDec := by
  unfold State.failExecute
  split <;> simp
@[simp] theorem State.failExecute_latch (s : State) (i : Instr) (e : ErrCode) : (s.failExecute i e).latch = s.latch := by
  unfold State.failExecute
  split <;> simp
@[simp] theorem State.failExecute_huffman (s : State) (i : Instr) (e : ErrCode) : (s.failExecute i e).huffman = if dropsTree i then none else s.huffman := by
  unfold State.failExecute
  split <;> simp
@[simp] theorem State.failExecute_schedule (s : State) (i : Instr) (e : ErrCode) : (s.failExecute i e).schedule = s.schedule := by
  unfold State.failExecute
  split <;> simp
@[simp] theorem State.failExecute_responses (s : State) (i : Instr) (e : ErrCode) : (s.failExecute i e).responses = s.responses := by
  unfold State.failExecute
  split <;> simp
@[simp] theorem State.failExecute_hostStop (s : State) (i : Instr) (e : ErrCode) : (s.failExecute i e).hostStop = s.hostStop := by
  unfold State.failExecute
  split <;> simp

@[simp] theorem drawBytes_length (k n : Nat) : (drawBytes k n).length = n := by simp [drawBytes]

/-- A region in range lies in LMEM whole. -/
theorem Region.lenIn_of_le {size : Nat} {r : Region} (h : r.start + r.len ≤ size) : r.lenIn size = r.len := by
  simp only [Region.lenIn]
  omega

theorem Region.lenIn_le (size : Nat) (r : Region) : r.lenIn size ≤ r.len := by
  simp only [Region.lenIn]
  omega

theorem Region.lenIn_within (size : Nat) (r : Region) : r.lenIn size = 0 ∨ r.start + r.lenIn size ≤ size := by
  simp only [Region.lenIn]
  omega

/-- An execute-phase error of a command that stages its output writes nothing (R353). -/
theorem State.failExecute_lmem_of_not {s : State} {i : Instr} {e : ErrCode} (h : drawsOnError i = false) :
    (s.failExecute i e).lmem = s.lmem := by simp [State.failExecute, h]

theorem State.failExecute_drawCount_of_not {s : State} {i : Instr} {e : ErrCode} (h : drawsOnError i = false) :
    (s.failExecute i e).drawCount = s.drawCount := by simp [State.failExecute, h]

/-- An execute-phase error of HENC or HDEC leaves draws in the dst region (R353). -/
theorem State.failExecute_lmem_of_draws {s : State} {i : Instr} {e : ErrCode} {r : Region} (h : drawsOnError i = true)
    (hr : dstRegion i s.latch.args = some r) :
    (s.failExecute i e).lmem = s.lmem.put r.start (drawBytes s.drawCount (r.lenIn s.platform.lmemSize)) := by
  simp [State.failExecute, h, State.drawDst, hr]

/-! ### What a command can answer -/

/-- The execute phase of each command. -/
def commandBody : Instr → State → Except Stop Effect
  | .nop => nopBody
  | .fdct => fdctBody
  | .idct => idctBody
  | .qtab q => qtabBody q
  | .quant q => quantBody q
  | .dequant q => dequantBody q
  | .zzenc => zzencBody
  | .zzdec => zzdecBody
  | .hist => histBody
  | .tbuild ct => tbuildBody ct
  | .henc => hencBody
  | .hdec => hdecBody
  | .subs m => subsBody m
  | .ups m => upsBody m

/-- Every command is the shared completion step over its own execute phase. -/
theorem exec_eq (i : Instr) (s : State) : exec i s = runCommand i s (commandBody i) := by cases i <;> rfl

/-- A command that answers a next state failed a check, succeeded, or raised a code in its execute phase. -/
theorem runCommand_next {i : Instr} {s t : State} {body : State → Except Stop Effect}
    (h : runCommand i s body = .next t) :
    (∃ e, precheck i s = some e ∧ t = s.failCommand i e) ∨
    (precheck i s = none ∧ ∃ eff, body s = .ok eff ∧ eff.base + eff.bytes.length ≤ s.platform.lmemSize ∧
      t = s.succeed eff) ∨
    (precheck i s = none ∧ ∃ e, body s = .error (.raise e) ∧ t = s.failExecute i e) := by
  unfold runCommand at h
  split at h
  next e hp => exact .inl ⟨e, hp, by simpa using h.symm⟩
  next hp =>
    split at h
    next eff hb =>
      obtain ⟨h1, h2⟩ := complete_next_iff.mp h
      exact .inr (.inl ⟨hp, eff, hb, h1, h2⟩)
    next e hb => exact .inr (.inr ⟨hp, e, hb, by simpa using h.symm⟩)
    next => cases h

/-- A command that faults passed its checks; its execute phase read a byte with no value, or its bytes fall outside
LMEM. -/
theorem runCommand_fault {i : Instr} {s : State} {body : State → Except Stop Effect} {f : Fault}
    (h : runCommand i s body = .fault f) :
    precheck i s = none ∧ (body s = .error (.fault f) ∨
      ∃ eff, body s = .ok eff ∧ ¬ eff.base + eff.bytes.length ≤ s.platform.lmemSize) := by
  unfold runCommand at h
  split at h
  next => cases h
  next hp =>
    refine ⟨hp, ?_⟩
    split at h
    next eff hb =>
      refine .inr ⟨eff, hb, fun hle => ?_⟩
      rw [complete_of_le hle] at h
      cases h
    next => cases h
    next f' hb => cases h; exact .inl hb

theorem runCommand_of_precheck {i : Instr} {s : State} {body : State → Except Stop Effect} {e : ErrCode}
    (h : precheck i s = some e) : runCommand i s body = .next (s.failCommand i e) := by simp [runCommand, h]

theorem runCommand_of_ok {i : Instr} {s : State} {body : State → Except Stop Effect} {eff : Effect}
    (hp : precheck i s = none) (hb : body s = .ok eff) (hl : eff.base + eff.bytes.length ≤ s.platform.lmemSize) :
    runCommand i s body = .next (s.succeed eff) := by simp [runCommand, hp, hb, complete, hl]

theorem runCommand_of_raise {i : Instr} {s : State} {body : State → Except Stop Effect} {e : ErrCode}
    (hp : precheck i s = none) (hb : body s = .error (.raise e)) :
    runCommand i s body = .next (s.failExecute i e) := by simp [runCommand, hp, hb]

theorem runCommand_of_fault {i : Instr} {s : State} {body : State → Except Stop Effect} {f : Fault}
    (hp : precheck i s = none) (hb : body s = .error (.fault f)) : runCommand i s body = .fault f := by
  simp [runCommand, hp, hb]

theorem runCommand_not_refused {i : Instr} {s : State} {body : State → Except Stop Effect} {r : Refusal} :
    runCommand i s body ≠ .refused r := by
  unfold runCommand
  split
  · simp
  · split
    · exact complete_not_refused
    · simp
    · simp

end Sys2Proof.Machine
end

