-- ==== Sys2Proof/Laws/Effects.lean ====
section
/-! SUPPORT. What the execute phase of each command can give: where its bytes go (20_memory.md R82), which side effects it
has (60_exceptions.md R355), and how it can stop (R351, 70_reset_and_hazards.md R401). -/

namespace Sys2Proof.Machine

/-! ### Lengths -/

@[simp] theorem fdctBlock_length (b : List Int) : (fdctBlock b).length = 64 := by simp [fdctBlock]

@[simp] theorem idctBlock_length (f : List Double) : (idctBlock f).length = 64 := by simp [idctBlock]

@[simp] theorem quantTable_length (q : Nat) : (quantTable q).length = 64 := by simp [quantTable, quantBase]

@[simp] theorem packBits_length (n : Nat) (bits : List Bool) : (packBits n bits).length = n := by simp [packBits]

@[simp] theorem codeEntry_length (c : List Bool) : (codeEntry c).length = 40 := by simp [codeEntry]

@[simp] theorem tableEntry_length (p : Nat × Nat) : (tableEntry p).length = 8 := by simp [tableEntry]

@[simp] theorem codeTable_length (nodes : List Node) (root : Nat) : (codeTable nodes root).length = 256 := by
  simp [codeTable]

theorem histogram_length_le (bs : List Byte) : (histogram bs).length ≤ 256 := by
  unfold histogram
  exact (List.length_filter_le _ _).trans (by simp)

/-- The decoder keeps the block at its length. -/
theorem decodePairs_length {s : State} {src len : Nat} {d : DecodedBlock} :
    ∀ {rounds : Nat} {z : List Int} {i cur : Nat}, decodePairs s src len rounds z i cur = .ok d →
      d.block.length = z.length := by
  intro rounds
  induction rounds with
  | zero => intro z i cur h; simp only [decodePairs, Except.ok.injEq] at h; rw [← h]
  | succ n ih =>
    intro z i cur h
    simp only [decodePairs] at h
    split at h
    · simp only [Except.ok.injEq] at h; rw [← h]
    · split at h
      · cases h
      · split at h
        · simp only [Except.ok.injEq] at h; rw [← h]
        · split at h
          · cases h
          · split at h
            · simp only [Except.ok.injEq] at h; rw [← h]
            · split at h
              · split at h
                · simp only [Except.ok.injEq] at h; rw [← h]
                · exact ih h
              · split at h
                · simp only [Except.ok.injEq] at h; rw [← h]
                · simpa using ih h

/-- The symbols HDEC writes fit its capacity. -/
theorem decodeBits_length {h : Huffman} {s : State} {src cap : Nat} :
    ∀ {n k node m : Nat} {r : List Byte × Nat}, decodeBits h s src cap n k node m = .ok r → m ≤ cap →
      m + r.1.length ≤ cap := by
  intro n
  induction n with
  | zero =>
    intro k node m r hr hm
    simp only [decodeBits, Except.ok.injEq] at hr
    simpa [← hr] using hm
  | succ n ih =>
    intro k node m r hr hm
    simp only [decodeBits] at hr
    split at hr
    · cases hr
    · split at hr
      · cases hr
      · split at hr
        · exact ih hr hm
        · split at hr
          · cases hr
          · split at hr
            · cases hr
            · next hne _ _ _ hok =>
              simp only [Except.ok.injEq] at hr
              have := ih hok (by omega)
              rw [← hr]
              simp only [List.length_cons] at this ⊢
              omega

/-! ### The bytes a success writes -/

/-- A success writes nothing, or a prefix of its dst region (R82). -/
theorem commandBody_bytes {i : Instr} {s : State} {eff : Effect} (h : commandBody i s = .ok eff) :
    eff.base + eff.bytes.length = 0 ∨
      ∃ r, dstRegion i s.latch.args = some r ∧ eff.base = r.start ∧ eff.bytes.length ≤ r.len := by
  cases i with
  | nop =>
    simp only [commandBody, nopBody, Except.ok.injEq] at h
    subst h
    exact .inl rfl
  | fdct =>
    simp only [commandBody, fdctBody] at h
    split at h
    · cases h
    · simp only [Except.ok.injEq] at h
      subst h
      refine .inr ⟨_, rfl, rfl, ?_⟩
      simp only [plainEffect, flatMap_length_const _ 8 f64Bytes_length, fdctBlock_length]
      exact le_refl _
  | idct =>
    simp only [commandBody, idctBody] at h
    split at h
    · cases h
    · split at h
      · split at h
        · simp only [Except.ok.injEq] at h
          subst h
          refine .inr ⟨_, rfl, rfl, ?_⟩
          simp only [plainEffect, flatMap_length_const _ 4 (fun x => i32Bytes_length _), idctBlock_length]
          exact le_refl _
        · cases h
      · cases h
  | qtab q =>
    simp only [commandBody, qtabBody, Except.ok.injEq] at h
    subst h
    exact .inr ⟨_, rfl, rfl, by simp [plainEffect]⟩
  | quant q =>
    simp only [commandBody, quantBody] at h
    split at h
    · cases h
    · next f hf =>
      split at h
      · simp only [Except.ok.injEq] at h
        subst h
        refine .inr ⟨_, rfl, rfl, ?_⟩
        simp [plainEffect, flatMap_length_const _ 4 i32Bytes_length, readF64Block_length hf]
      · cases h
  | dequant q =>
    simp only [commandBody, dequantBody] at h
    split at h
    · cases h
    · next z hz =>
      simp only [Except.ok.injEq] at h
      subst h
      refine .inr ⟨_, rfl, rfl, ?_⟩
      simp [plainEffect, flatMap_length_const _ 8 f64Bytes_length, readI32Block_length hz]
  | zzenc =>
    simp only [commandBody, zzencBody] at h
    split at h
    · cases h
    · split at h
      · cases h
      · next hle =>
        simp only [Except.ok.injEq] at h
        subst h
        exact .inr ⟨_, rfl, rfl, by simpa [plainEffect] using hle⟩
  | zzdec =>
    simp only [commandBody, zzdecBody] at h
    split at h
    · cases h
    · split at h
      · cases h
      · next d hd =>
        simp only [Except.ok.injEq] at h
        subst h
        refine .inr ⟨_, rfl, rfl, ?_⟩
        simp [plainEffect, flatMap_length_const _ 4 i32Bytes_length, decodePairs_length hd]
  | hist =>
    simp only [commandBody, histBody] at h
    split at h
    · cases h
    · next bs _ =>
      simp only [Except.ok.injEq] at h
      subst h
      refine .inr ⟨_, rfl, rfl, ?_⟩
      have := histogram_length_le bs
      simp only [plainEffect, flatMap_length_const _ 8 tableEntry_length]
      omega
  | tbuild ct =>
    simp only [commandBody, tbuildBody] at h
    split at h
    · cases h
    · split at h
      · simp only [Except.ok.injEq] at h
        subst h
        cases ct with
        | false => exact .inl (by simp [plainEffect])
        | true =>
          refine .inr ⟨_, rfl, rfl, ?_⟩
          simp [plainEffect, flatMap_length_const _ 40 codeEntry_length, buildTree]
      · cases h
  | henc =>
    simp only [commandBody, hencBody] at h
    split at h
    · cases h
    · split at h
      · cases h
      · split at h
        · cases h
        · next hle =>
          simp only [Except.ok.injEq] at h
          subst h
          exact .inr ⟨_, rfl, rfl, by simpa [plainEffect] using hle⟩
  | hdec =>
    simp only [commandBody, hdecBody] at h
    split at h
    · cases h
    · split at h
      · cases h
      · next hd =>
        split at h
        · simp only [Except.ok.injEq] at h
          subst h
          exact .inr ⟨_, rfl, rfl, by simpa [plainEffect] using decodeBits_length hd (Nat.zero_le _)⟩
        · cases h
  | subs m =>
    simp only [commandBody, subsBody] at h
    split at h
    · cases h
    · next bs hb =>
      simp only [Except.ok.injEq] at h
      subst h
      exact .inr ⟨_, rfl, rfl, by simpa [plainEffect] using (readEach_length hb).le⟩
  | ups m =>
    simp only [commandBody, upsBody] at h
    split at h
    · cases h
    · next bs hb =>
      simp only [Except.ok.injEq] at h
      subst h
      exact .inr ⟨_, rfl, rfl, by simpa [plainEffect] using (readEach_length hb).le⟩

/-- A success's bytes lie in LMEM, once the checks have passed. -/
theorem commandBody_within {i : Instr} {s : State} {eff : Effect} (hp : precheck i s = none)
    (h : commandBody i s = .ok eff) : eff.base + eff.bytes.length ≤ s.platform.lmemSize := by
  rcases commandBody_bytes h with h0 | ⟨r, hr, hb, hl⟩
  · omega
  · have := (precheck_none_iff.mp hp).2.1 r (mem_regions_dst hr)
    omega

/-! ### Side effects -/

/-- Only ZZENC writes PREVDC_ENC, only ZZDEC writes PREVDC_DEC and MALFORMED, only TBUILD the tree (R38, R39, R354). -/
theorem commandBody_side {i : Instr} {s : State} {eff : Effect} (h : commandBody i s = .ok eff) :
    (i ≠ .zzenc → eff.prevDcEnc = none) ∧ (i ≠ .zzdec → eff.prevDcDec = none ∧ eff.malformed = false) ∧
      (dropsTree i = false → eff.huffman = none) ∧ (dropsTree i = true → eff.huffman.isSome = true) := by
  cases i with
  | nop =>
    simp only [commandBody, nopBody, Except.ok.injEq] at h
    subst h
    simp [plainEffect, dropsTree]
  | fdct =>
    simp only [commandBody, fdctBody] at h
    split at h
    · cases h
    · simp only [Except.ok.injEq] at h
      subst h
      simp [plainEffect, dropsTree]
  | idct =>
    simp only [commandBody, idctBody] at h
    split at h
    · cases h
    · split at h
      · split at h
        · simp only [Except.ok.injEq] at h
          subst h
          simp [plainEffect, dropsTree]
        · cases h
      · cases h
  | qtab q =>
    simp only [commandBody, qtabBody, Except.ok.injEq] at h
    subst h
    simp [plainEffect, dropsTree]
  | quant q =>
    simp only [commandBody, quantBody] at h
    split at h
    · cases h
    · split at h
      · simp only [Except.ok.injEq] at h
        subst h
        simp [plainEffect, dropsTree]
      · cases h
  | dequant q =>
    simp only [commandBody, dequantBody] at h
    split at h
    · cases h
    · simp only [Except.ok.injEq] at h
      subst h
      simp [plainEffect, dropsTree]
  | zzenc =>
    simp only [commandBody, zzencBody] at h
    split at h
    · cases h
    · split at h
      · cases h
      · simp only [Except.ok.injEq] at h
        subst h
        simp [plainEffect, dropsTree]
  | zzdec =>
    simp only [commandBody, zzdecBody] at h
    split at h
    · cases h
    · split at h
      · cases h
      · simp only [Except.ok.injEq] at h
        subst h
        simp [plainEffect, dropsTree]
  | hist =>
    simp only [commandBody, histBody] at h
    split at h
    · cases h
    · simp only [Except.ok.injEq] at h
      subst h
      simp [plainEffect, dropsTree]
  | tbuild ct =>
    simp only [commandBody, tbuildBody] at h
    split at h
    · cases h
    · split at h
      · simp only [Except.ok.injEq] at h
        subst h
        simp [plainEffect, dropsTree]
      · cases h
  | henc =>
    simp only [commandBody, hencBody] at h
    split at h
    · cases h
    · split at h
      · cases h
      · split at h
        · cases h
        · simp only [Except.ok.injEq] at h
          subst h
          simp [plainEffect, dropsTree]
  | hdec =>
    simp only [commandBody, hdecBody] at h
    split at h
    · cases h
    · split at h
      · cases h
      · split at h
        · simp only [Except.ok.injEq] at h
          subst h
          simp [plainEffect, dropsTree]
        · cases h
  | subs m =>
    simp only [commandBody, subsBody] at h
    split at h
    · cases h
    · simp only [Except.ok.injEq] at h
      subst h
      simp [plainEffect, dropsTree]
  | ups m =>
    simp only [commandBody, upsBody] at h
    split at h
    · cases h
    · simp only [Except.ok.injEq] at h
      subst h
      simp [plainEffect, dropsTree]

/-! ### Stops -/

/-- A stop is the fault at an address of `a`, …, `a + n − 1` that holds no value. -/
def FaultIn (s : State) (a n : Nat) (e : Stop) : Prop :=
  ∃ k, a ≤ k ∧ k < a + n ∧ s.lmem.get? k = none ∧ e = .fault (.noValue k)

theorem faultIn_of_offset {s : State} {a n : Nat} {e : Stop}
    (h : ∃ j, j < n ∧ s.lmem.get? (a + j) = none ∧ e = .fault (.noValue (a + j))) : FaultIn s a n e := by
  obtain ⟨j, hj, h1, h2⟩ := h
  exact ⟨a + j, by omega, by omega, h1, h2⟩

theorem decodePairs_error {s : State} {src len : Nat} {e : Stop} :
    ∀ {rounds : Nat} {z : List Int} {i cur : Nat}, decodePairs s src len rounds z i cur = .error e → i ≤ len →
      FaultIn s src len e := by
  intro rounds
  induction rounds with
  | zero => intro z i cur h; cases h
  | succ n ih =>
    intro z i cur h hi
    simp only [decodePairs] at h
    split at h
    · cases h
    · next hne =>
      split at h
      · next e' hb =>
        cases h
        obtain ⟨h1, h2⟩ := readByte_error hb
        exact ⟨src + i, by omega, by omega, h1, h2⟩
      · split at h
        · cases h
        · next hne' =>
          split at h
          · next e' hb =>
            cases h
            obtain ⟨h1, h2⟩ := readByte_error hb
            exact ⟨src + i + 1, by omega, by omega, h1, h2⟩
          · split at h
            · cases h
            · split at h
              · split at h
                · cases h
                · exact ih h (by omega)
              · split at h
                · cases h
                · exact ih h (by omega)

theorem readEntry_error {s : State} {t n : Nat} {e : Stop} (h : readEntry s t = .error e) (ht : t < n) :
    FaultIn s s.latch.args.a0.toNat (8 * n) e := by
  simp only [readEntry] at h
  split at h
  · next e' hb =>
    cases h
    obtain ⟨h1, h2⟩ := readByte_error hb
    exact ⟨_, by omega, by omega, h1, h2⟩
  · split at h
    · next e' hu =>
      cases h
      simp only [State.readU32] at hu
      cases hb : s.readBytes (s.latch.args.a0.toNat + 8 * t + 4) 4 with
      | ok bs => simp [hb, Except.map] at hu
      | error e'' =>
        simp only [hb, Except.map, Except.error.injEq] at hu
        subst hu
        obtain ⟨j, hj, h1, h2⟩ := readBytes_error hb
        exact ⟨_, by omega, by omega, h1, h2⟩
    · cases h

theorem encodeBits_error {h : Huffman} {s : State} {e : Stop} :
    ∀ {n a : Nat}, encodeBits h s a n = .error e → FaultIn s a n e ∨ e = .raise .noCode := by
  intro n
  induction n with
  | zero => intro a he; cases he
  | succ n ih =>
    intro a he
    simp only [encodeBits] at he
    split at he
    · next e' hb =>
      cases he
      obtain ⟨h1, h2⟩ := readByte_error hb
      exact .inl ⟨a, by omega, by omega, h1, h2⟩
    · split at he
      · cases he
        exact .inr rfl
      · split at he
        · next e' hr =>
          cases he
          rcases ih hr with ⟨k, h1, h2, h3, h4⟩ | hr
          · exact .inl ⟨k, by omega, by omega, h3, h4⟩
          · exact .inr hr
        · cases he

theorem decodeBits_error {h : Huffman} {s : State} {src cap : Nat} {e : Stop} {total : Nat} :
    ∀ {n k node m : Nat}, decodeBits h s src cap n k node m = .error e → k + n = total →
      FaultIn s src ((total + 7) / 8) e ∨ e = .raise .corrupt ∨ e = .raise .capacity := by
  intro n
  induction n with
  | zero => intro k node m he; cases he
  | succ n ih =>
    intro k node m he hk
    simp only [decodeBits] at he
    split at he
    · next e' hb =>
      cases he
      simp only [readBit] at hb
      split at hb
      · next e'' hr =>
        cases hb
        obtain ⟨h1, h2⟩ := readByte_error hr
        exact .inl ⟨_, by omega, by omega, h1, h2⟩
      · cases hb
    · split at he
      · cases he
        exact .inr (.inl rfl)
      · split at he
        · exact ih he (by omega)
        · split at he
          · cases he
            exact .inr (.inr rfl)
          · split at he
            · next e' hr =>
              cases he
              exact ih hr (by omega)
            · cases he

theorem plane_index_lt {w h row col : Nat} (hr : row < h) (hc : col < w) : row * w + col < w * h := by
  have : (row + 1) * w ≤ h * w := Nat.mul_le_mul_right w hr
  have e : (row + 1) * w = row * w + w := by ring
  rw [mul_comm w h]
  omega

theorem factorX_pos (m : Mode) : 0 < factorX m := by cases m <;> decide

theorem factorY_pos (m : Mode) : 0 < factorY m := by cases m <;> decide

/-- A cell of SUBS lies in its src plane. -/
theorem cellAddrs_within {m : Mode} {src w h t k : Nat} (ht : t < w / factorX m * (h / factorY m))
    (hk : k ∈ cellAddrs m src w (t % (w / factorX m)) (t / (w / factorX m))) : src ≤ k ∧ k < src + w * h := by
  simp only [cellAddrs, List.mem_flatMap, List.mem_map, List.mem_range] at hk
  obtain ⟨b, hb, a, ha, rfl⟩ := hk
  have hw : 0 < w / factorX m := by
    rcases Nat.eq_zero_or_pos (w / factorX m) with h0 | h0
    · rw [h0] at ht; omega
    · exact h0
  have hj : t / (w / factorX m) < h / factorY m := by
    rw [Nat.div_lt_iff_lt_mul hw, mul_comm]; exact ht
  have hi : t % (w / factorX m) < w / factorX m := Nat.mod_lt _ hw
  have hrow : factorY m * (t / (w / factorX m)) + b < h := by
    have h1 : factorY m * (t / (w / factorX m) + 1) ≤ factorY m * (h / factorY m) := Nat.mul_le_mul_left _ hj
    have h2 := Nat.mul_div_le h (factorY m)
    rw [mul_add, mul_one] at h1
    omega
  have hcol : factorX m * (t % (w / factorX m)) + a < w := by
    have h1 : factorX m * (t % (w / factorX m) + 1) ≤ factorX m * (w / factorX m) := Nat.mul_le_mul_left _ hi
    have h2 := Nat.mul_div_le w (factorX m)
    rw [mul_add, mul_one] at h1
    omega
  have := plane_index_lt hrow hcol
  omega

/-- The source sample of an output sample of UPS lies in the src plane. -/
theorem upsAddr_within {m : Mode} {src w h t : Nat} (ht : t < w * factorX m * (h * factorY m)) :
    src ≤ src + t / (w * factorX m) / factorY m * w + t % (w * factorX m) / factorX m ∧
      src + t / (w * factorX m) / factorY m * w + t % (w * factorX m) / factorX m < src + w * h := by
  have hw : 0 < w * factorX m := by
    rcases Nat.eq_zero_or_pos (w * factorX m) with h0 | h0
    · rw [h0] at ht; omega
    · exact h0
  have h1 : t / (w * factorX m) < h * factorY m := by
    rw [Nat.div_lt_iff_lt_mul hw, mul_comm]; exact ht
  have h2 : t / (w * factorX m) / factorY m < h := by
    rw [Nat.div_lt_iff_lt_mul (factorY_pos m)]; exact h1
  have h3 : t % (w * factorX m) / factorX m < w := by
    rw [Nat.div_lt_iff_lt_mul (factorX_pos m)]; exact Nat.mod_lt _ hw
  have := plane_index_lt h2 h3
  rw [Nat.add_assoc]
  exact ⟨Nat.le_add_right _ _, Nat.add_lt_add_left this _⟩

/-- The codes a command's execute phase can raise (the table of R351). -/
def executeCodes : Instr → List ErrCode
  | .idct | .quant _ => [.nonFinite]
  | .zzenc => [.capacity]
  | .tbuild _ => [.badTable]
  | .henc => [.noCode, .capacity]
  | .hdec => [.corrupt, .capacity, .truncated]
  | .nop | .fdct | .qtab _ | .dequant _ | .zzdec | .hist | .subs _ | .ups _ => []

/-- The execute phase, once the checks have passed, stops at a byte of the src region that holds no value, or with one of
the command's codes (R351, R401). -/
theorem commandBody_error {i : Instr} {s : State} {e : Stop} (hp : precheck i s = none)
    (h : commandBody i s = .error e) :
    (∃ r, srcRegion i s.latch.args = some r ∧ FaultIn s r.start r.len e) ∨ ∃ c ∈ executeCodes i, e = .raise c := by
  cases i with
  | nop => cases h
  | fdct =>
    simp only [commandBody, fdctBody] at h
    split at h
    · next hr => cases h; exact .inl ⟨_, rfl, faultIn_of_offset (readI32Block_error hr)⟩
    · cases h
  | idct =>
    simp only [commandBody, idctBody] at h
    split at h
    · next hr => cases h; exact .inl ⟨_, rfl, faultIn_of_offset (readF64Block_error hr)⟩
    · split at h
      · split at h
        · cases h
        · cases h; exact .inr ⟨.nonFinite, by simp [executeCodes], rfl⟩
      · cases h; exact .inr ⟨.nonFinite, by simp [executeCodes], rfl⟩
  | qtab q => cases h
  | quant q =>
    simp only [commandBody, quantBody] at h
    split at h
    · next hr => cases h; exact .inl ⟨_, rfl, faultIn_of_offset (readF64Block_error hr)⟩
    · split at h
      · cases h
      · cases h; exact .inr ⟨.nonFinite, by simp [executeCodes], rfl⟩
  | dequant q =>
    simp only [commandBody, dequantBody] at h
    split at h
    · next hr => cases h; exact .inl ⟨_, rfl, faultIn_of_offset (readI32Block_error hr)⟩
    · cases h
  | zzenc =>
    simp only [commandBody, zzencBody] at h
    split at h
    · next hr => cases h; exact .inl ⟨_, rfl, faultIn_of_offset (readI32Block_error hr)⟩
    · split at h
      · cases h; exact .inr ⟨.capacity, by simp [executeCodes], rfl⟩
      · cases h
  | zzdec =>
    have ha := (precheck_none_iff.mp hp).1
    have hlen : 0 < s.latch.args.a1.toNat := by
      simp only [argError] at ha
      split at ha
      · cases ha
      · omega
    simp only [commandBody, zzdecBody] at h
    split at h
    · next hr =>
      cases h
      obtain ⟨h1, h2⟩ := readByte_error hr
      exact .inl ⟨_, rfl, _, le_refl _, by simpa using hlen, h1, h2⟩
    · split at h
      · next hr => cases h; exact .inl ⟨_, rfl, decodePairs_error hr hlen⟩
      · cases h
  | hist =>
    simp only [commandBody, histBody] at h
    split at h
    · next hr => cases h; exact .inl ⟨_, rfl, faultIn_of_offset (readBytes_error hr)⟩
    · cases h
  | tbuild ct =>
    simp only [commandBody, tbuildBody] at h
    split at h
    · next hr =>
      cases h
      obtain ⟨t, ht, he⟩ := readEach_error hr
      exact .inl ⟨_, rfl, readEntry_error he (List.mem_range.mp ht)⟩
    · split at h
      · cases h
      · cases h; exact .inr ⟨.badTable, by simp [executeCodes], rfl⟩
  | henc =>
    have ht := (precheck_none_iff.mp hp).2.2.2.2 rfl
    simp only [commandBody, hencBody] at h
    split at h
    · next hn => simp [State.treeValid, hn] at ht
    · split at h
      · next hr =>
        cases h
        rcases encodeBits_error hr with hf | hf
        · exact .inl ⟨_, rfl, hf⟩
        · exact .inr ⟨.noCode, by simp [executeCodes], hf⟩
      · split at h
        · cases h; exact .inr ⟨.capacity, by simp [executeCodes], rfl⟩
        · cases h
  | hdec =>
    have ht := (precheck_none_iff.mp hp).2.2.2.2 rfl
    simp only [commandBody, hdecBody] at h
    split at h
    · next hn => simp [State.treeValid, hn] at ht
    · split at h
      · next hr =>
        cases h
        rcases decodeBits_error hr (Nat.zero_add _) with hf | hf | hf
        · exact .inl ⟨_, rfl, hf⟩
        · exact .inr ⟨.corrupt, by simp [executeCodes], hf⟩
        · exact .inr ⟨.capacity, by simp [executeCodes], hf⟩
      · split at h
        · cases h
        · cases h; exact .inr ⟨.truncated, by simp [executeCodes], rfl⟩
  | subs m =>
    simp only [commandBody, subsBody] at h
    split at h
    · next hr =>
      cases h
      obtain ⟨t, ht, he⟩ := readEach_error hr
      simp only [subsSample] at he
      split at he
      · next hr' =>
        cases he
        obtain ⟨k, hk, hb⟩ := readEach_error hr'
        obtain ⟨h1, h2⟩ := readByte_error hb
        obtain ⟨h3, h4⟩ := cellAddrs_within (h := s.latch.args.a2.toNat) (List.mem_range.mp ht) hk
        exact .inl ⟨_, rfl, k, h3, h4, h1, h2⟩
      · cases he
    · cases h
  | ups m =>
    simp only [commandBody, upsBody] at h
    split at h
    · next hr =>
      cases h
      obtain ⟨t, ht, he⟩ := readEach_error hr
      obtain ⟨h1, h2⟩ := readByte_error he
      obtain ⟨h3, h4⟩ := upsAddr_within (src := s.latch.args.a0.toNat) (h := s.latch.args.a2.toNat) (List.mem_range.mp ht)
      exact .inl ⟨_, rfl, _, h3, h4, h1, h2⟩
    · cases h

end Sys2Proof.Machine
end

