-- ==== Sys2Proof/Laws/PerInstr.lean ====
section
/-! SUPPORT. Statements made for each command: the fields of its word (30_encoding.md R120). -/

namespace Sys2Proof.Laws

/-- The word of a well-formed command has the command's opcode, its immediate, and 0 in the reserved field. -/
def WordFields.Statement (i : Instr) : Prop :=
  i.wf = true → opField (encode i) = i.opcode ∧ immField (encode i) = i.immediate ∧ rsvField (encode i) = 0

/-- A word built from fields that fit reads back as those fields. -/
theorem word_fields_of_fit (op imm : Nat) (h1 : op < 256) (h2 : imm < 256) :
    opField (BitVec.ofNat 32 (imm * 256 + op)) = op ∧ immField (BitVec.ofNat 32 (imm * 256 + op)) = imm ∧
      rsvField (BitVec.ofNat 32 (imm * 256 + op)) = 0 := by
  simp only [opField, immField, rsvField, BitVec.toNat_ofNat]
  omega

theorem Mode_code_lt (m : Mode) : m.code < 256 := by cases m <;> decide

namespace WordFields

theorem nop : Statement .nop := fun _ => word_fields_of_fit 0x00 0 (by decide) (by decide)
theorem fdct : Statement .fdct := fun _ => word_fields_of_fit 0x01 0 (by decide) (by decide)
theorem idct : Statement .idct := fun _ => word_fields_of_fit 0x02 0 (by decide) (by decide)
theorem qtab (q : Nat) : Statement (.qtab q) := fun h => word_fields_of_fit 0x03 q (by decide) (of_decide_eq_true h)
theorem quant (q : Nat) : Statement (.quant q) := fun h => word_fields_of_fit 0x04 q (by decide) (of_decide_eq_true h)
theorem dequant (q : Nat) : Statement (.dequant q) := fun h =>
  word_fields_of_fit 0x05 q (by decide) (of_decide_eq_true h)
theorem zzenc : Statement .zzenc := fun _ => word_fields_of_fit 0x06 0 (by decide) (by decide)
theorem zzdec : Statement .zzdec := fun _ => word_fields_of_fit 0x07 0 (by decide) (by decide)
theorem hist : Statement .hist := fun _ => word_fields_of_fit 0x08 0 (by decide) (by decide)
theorem tbuild (ct : Bool) : Statement (.tbuild ct) := fun _ => by
  cases ct
  · exact word_fields_of_fit 0x09 0 (by decide) (by decide)
  · exact word_fields_of_fit 0x09 1 (by decide) (by decide)
theorem henc : Statement .henc := fun _ => word_fields_of_fit 0x0A 0 (by decide) (by decide)
theorem hdec : Statement .hdec := fun _ => word_fields_of_fit 0x0B 0 (by decide) (by decide)
theorem subs (mode : Mode) : Statement (.subs mode) := fun _ =>
  word_fields_of_fit 0x0C mode.code (by decide) (Mode_code_lt mode)
theorem ups (mode : Mode) : Statement (.ups mode) := fun _ =>
  word_fields_of_fit 0x0D mode.code (by decide) (Mode_code_lt mode)

end WordFields

end Sys2Proof.Laws
end

