-- ==== Sys2Proof/Tests/Slice0.lean ====
section
/-! SUPPORT. The model's own tests: words and results written out from the spec's tables and vectors (95_test_vectors.md, or the
rule named), and a witness for every statement that has hypotheses. -/

namespace Sys2Proof.Tests

-- Each test is checked before the next one starts, so that their kernel evaluations do not run side by side.
set_option Elab.async false

open Sys2Proof.Machine Sys2Proof.Statements

/-! ### Small states -/

/-- Bytes written as numbers. -/
def bytes (l : List Nat) : List Byte := l.map (BitVec.ofNat 8)

/-- LMEM with these bytes at a, and no other byte holding a value. -/
def at' (a : Nat) (bs : List Byte) : Memory := Memory.put [] a bs

/-- The reset device running a command over an LMEM. -/
def held (i : Instr) (a0 a1 a2 a3 : Word) (m : Memory) : State :=
  { State.reset with
    status := ⟨true, false, false, false, 0x00⟩
    cmd := encode i
    latch := ⟨encode i, ⟨a0, a1, a2, a3⟩⟩
    lmem := m }

/-- The outcome is a next state that meets a check. -/
def answers (o : Host.Outcome State Fault Refusal) (f : State → Bool) : Bool :=
  match o with
  | .next t => f t
  | .fault _ => false
  | .refused _ => false

theorem next_of_answers {o : Host.Outcome State Fault Refusal} {f : State → Bool} (h : answers o f = true) :
    ∃ t, o = .next t ∧ f t = true := by
  cases o with
  | next t => exact ⟨t, rfl, h⟩
  | fault r => exact absurd h (by simp [answers])
  | refused r => exact absurd h (by simp [answers])

/-- The bytes at a, as numbers; a byte with no value is none. -/
def window (s : State) (a n : Nat) : List (Option Nat) := (List.range n).map fun j => (s.lmem.get? (a + j)).map BitVec.toNat

/-- A block with the listed elements, 0 elsewhere. -/
def block (l : List (Nat × Int)) : List Int := l.foldl (fun z p => z.set p.1 p.2) (List.replicate 64 0)

/-- A block given by zigzag positions. -/
def zigzagBlock (l : List (Nat × Int)) : List Int := l.foldl (fun z p => z.set (zigzag.getD p.1 0) p.2) (List.replicate 64 0)

/-- A block of doubles with the listed elements, 0 elsewhere. -/
def doubles (l : List (Nat × Double)) : List Double := l.foldl (fun z p => z.set p.1 p.2) (List.replicate 64 0)

/-- The bytes of a symbol table. -/
def tableOf (t : List (Byte × Nat)) : List Byte := t.flatMap fun e => [e.1, 0, 0, 0] ++ leBytes 4 e.2

/-! ### Well-formedness -/

theorem test_quality_255_is_well_formed : Instr.wf (.qtab 255) = true ∧ Instr.wf (.quant 0) = true := by decide
theorem test_qtab_256_is_ill_formed : Instr.wf (.qtab 256) = false := by decide
theorem test_quant_256_is_ill_formed : Instr.wf (.quant 256) = false := by decide
theorem test_dequant_256_is_ill_formed : Instr.wf (.dequant 256) = false := by decide

/-! ### Words written out from the encoding tables (30_encoding.md R120 to R123): RSV, IMM, OP -/

theorem test_decode_nop : decode 0b0000000000000000_00000000_00000000 = .ok .nop := by decide
theorem test_decode_fdct : decode 0b0000000000000000_00000000_00000001 = .ok .fdct := by decide
theorem test_decode_idct : decode 0b0000000000000000_00000000_00000010 = .ok .idct := by decide
theorem test_decode_qtab : decode 0b0000000000000000_00110010_00000011 = .ok (.qtab 50) := by decide
theorem test_decode_quant : decode 0b0000000000000000_01001011_00000100 = .ok (.quant 75) := by decide
theorem test_decode_dequant : decode 0b0000000000000000_10000000_00000101 = .ok (.dequant 128) := by decide
theorem test_decode_zzenc : decode 0b0000000000000000_00000000_00000110 = .ok .zzenc := by decide
theorem test_decode_zzdec : decode 0b0000000000000000_00000000_00000111 = .ok .zzdec := by decide
theorem test_decode_hist : decode 0b0000000000000000_00000000_00001000 = .ok .hist := by decide
theorem test_decode_tbuild : decode 0b0000000000000000_00000001_00001001 = .ok (.tbuild true) := by decide
theorem test_decode_henc : decode 0b0000000000000000_00000000_00001010 = .ok .henc := by decide
theorem test_decode_hdec : decode 0b0000000000000000_00000000_00001011 = .ok .hdec := by decide
theorem test_decode_subs : decode 0b0000000000000000_00000010_00001100 = .ok (.subs .m420) := by decide
theorem test_decode_ups : decode 0b0000000000000000_00000011_00001101 = .ok (.ups .m411) := by decide
theorem test_decode_refuses_by_name :
    decode 0x0000000E = .error (.reservedOpcode 14) ∧ decode 0x000000FF = .error (.reservedOpcode 255) ∧
    decode 0x00010001 = .error .reservedField ∧ decode 0x80000000 = .error .reservedField ∧
    decode 0x00000100 = .error (.reservedImmediate 1) ∧ decode 0x00000209 = .error (.reservedImmediate 2) ∧
    decode 0x0000040C = .error (.reservedImmediate 4) ∧ decode 0x0000800B = .error (.reservedImmediate 128) := by decide
theorem test_table_words :
    decodeTableWord 32 0x3203 = some (.qtab 50) ∧ decodeTableWord 16 0x030D = some (.ups .m411) ∧
    decodeTableWord 32 0x0E = none ∧ decodeTableWord 64 (2 ^ 32) = none := by decide

/-! ### The commands, one step each -/

-- RG1, R330: NOP from reset leaves STATUS = 0x00000002.
theorem test_nop : answers (step (State.reset.withFetchWord 32 0)) (fun t => t.statusWord == 2 && t.res0 == 0) = true := by
  decide +kernel

-- FD2: a block of 1s has DC 0x4020000000000001.
theorem test_fdct_flat_dc : fdctCoefficient (List.replicate 64 1) 0 0 = 0x4020000000000001 := by decide +kernel

-- ER2: dst = 0xFF00 passes the end of LMEM.
theorem test_fdct_range : answers (exec .fdct (held .fdct 0 0xFF00 0 0 [])) (fun t => t.statusWord == 0x406) = true := by
  decide +kernel

-- ID1: F[0] = 8.0 gives 1 in every sample.
theorem test_idct_dc : sat32 (rhaz (idctSample (doubles [(0, 0x4020000000000000)]) 7 7)) = 1 := by decide +kernel

-- R82, R84: a src at 4 mod 8 is E_ALIGN.
theorem test_idct_align : answers (exec .idct (held .idct 4 0x400 0 0 [])) (fun t => t.statusWord == 0x506) = true := by
  decide +kernel

-- QT9: the first row at q = 75.
theorem test_qtab_75 : answers (exec (.qtab 75) (held (.qtab 75) 0x100 0 0 0 []))
    (fun t => window t 0x100 8 == [8, 6, 5, 8, 12, 20, 26, 31].map some && t.statusWord == 2) = true := by decide +kernel

-- R351 step 2: quality 101 (the word 0x00006503) is E_QUALITY.
theorem test_qtab_101 : answers (exec (.qtab 101) (held (.qtab 101) 0x100 0 0 0 [])) (fun t => t.statusWord == 0x206) = true := by
  decide +kernel

-- QU1: -415.3750000000001 by 16 is -26.
theorem test_quant_element : quantize 0xC079F60000000002 16 = -26 := by decide +kernel

-- QU4, QU5: 24.0 by 16 is 2, the double below it 1.
theorem test_quant_tie : quantize 0x4038000000000000 16 = 2 ∧ quantize 0x4037FFFFFFFFFFFF 16 = 1 := by decide +kernel

-- DQ1: z[0] = -26 and z[63] = -2147483648 at q = 50 give -416.0 and -212600881152.0.
theorem test_dequant : answers
    (exec (.dequant 50) (held (.dequant 50) 0 0x400 0 0 (at' 0 ((block [(0, -26), (63, -2147483648)]).flatMap i32Bytes))))
    (fun t => window t 0x400 8 == [0, 0, 0, 0, 0, 0, 0x7A, 0xC0].map some &&
      window t 0x5F8 8 == [0, 0, 0, 0, 0, 0xC0, 0x48, 0xC2].map some) = true := by decide +kernel

-- ZE9: zigzag position 17 is a run of 16, one filler.
theorem test_zzenc_filler : answers
    (exec .zzenc (held .zzenc 0 0x400 129 0 (at' 0 ((zigzagBlock [(17, 1)]).flatMap i32Bytes))))
    (fun t => window t 0x400 8 == [0, 0xF, 0, 0, 1, 0, 0].map some ++ [none] && t.res1 == 0x407) = true := by decide +kernel

-- ZE3: DC 300 saturates in the stream, not in PREVDC_ENC.
theorem test_zzenc_dc : answers
    (exec .zzenc (held .zzenc 0 0x400 129 0 (at' 0 ((zigzagBlock [(0, 300)]).flatMap i32Bytes))))
    (fun t => window t 0x400 4 == [0x7F, 0, 0].map some ++ [none] && t.prevDcEnc == 300) = true := by decide +kernel

-- ZD6: three fillers and a run of 14 reach position 63, natural index 63.
theorem test_zzdec_last : answers
    (exec .zzdec (held .zzdec 0x400 11 0x800 0 (at' 0x400 (bytes [0, 0xF, 0, 0xF, 0, 0xF, 0, 0xE, 9, 0, 0]))))
    (fun t => t.statusWord == 2 && t.res0 == 11 && window t 0x8FC 4 == [9, 0, 0, 0].map some) = true := by decide +kernel

-- ZD1: the stream ends after the DC byte; PREVDC_DEC was 10.
theorem test_zzdec_malformed : answers
    (exec .zzdec { held .zzdec 0x400 1 0x800 0 (at' 0x400 (bytes [5])) with prevDcDec := 10 })
    (fun t => t.statusWord == 0xA && t.res0 == 1 && t.prevDcDec == 15) = true := by decide +kernel

-- R250: three symbols, ascending.
theorem test_hist : answers (exec .hist (held .hist 0x400 4 0x800 0 (at' 0x400 (bytes [9, 255, 9, 0]))))
    (fun t => t.res0 == 3 && t.res1 == 24 && window t 0x800 25 ==
      [0, 0, 0, 0, 1, 0, 0, 0, 9, 0, 0, 0, 2, 0, 0, 0, 255, 0, 0, 0, 1, 0, 0, 0].map some ++ [none]) = true := by
  decide +kernel

-- HF5: 43 is "0", 41 is "10", 42 is "11"; 5 nodes, MAXLEN 2.
theorem test_tbuild : answers
    (exec (.tbuild false) (held (.tbuild false) 0x800 3 0 0 (at' 0x800 (tableOf [(0x41, 1), (0x42, 1), (0x43, 2)]))))
    (fun t => t.statusWord == 0x12 && t.res0 == 5 && t.res1 == 2 && t.huffman.any fun h =>
      codeAt h 0x43 == [false] && codeAt h 0x41 == [true, false] && codeAt h 0x42 == [true, true]) = true := by
  decide +kernel

-- HS5: a repeated symbol is E_BADTABLE and leaves no tree.
theorem test_tbuild_repeated : answers
    (exec (.tbuild false) { held (.tbuild false) 0x800 2 0 0 (at' 0x800 (tableOf [(7, 1), (7, 2)])) with
      huffman := some (buildTree [(5, 3)]) }) (fun t => t.statusWord == 0xC06) = true := by decide +kernel

-- HF4: 15 symbols pack into 25 bits, 04 AA FF 80.
theorem test_henc : answers
    (exec .henc { held .henc 0x400 15 0x3800 64 (at' 0x400 (bytes [1, 2, 2, 3, 3, 3, 3, 4, 4, 4, 4, 4, 4, 4, 4])) with
      huffman := some (buildTree [(1, 1), (2, 2), (3, 4), (4, 8)]) })
    (fun t => t.res0 == 4 && t.res1 == 25 && window t 0x3800 5 == [0x04, 0xAA, 0xFF, 0x80].map some ++ [none]) = true := by
  decide +kernel

-- ER9: no tree is E_NOTABLE.
theorem test_henc_no_tree : answers (exec .henc (held .henc 0 4 0x200 0x10 [])) (fun t => t.statusWord == 0x706) = true := by
  decide +kernel

-- HF5: 0x58, 5 bits, is 43 41 42.
theorem test_hdec : answers
    (exec .hdec { held .hdec 0x3800 5 0x3900 64 (at' 0x3800 (bytes [0x58])) with
      huffman := some (buildTree [(0x41, 1), (0x42, 1), (0x43, 2)]) })
    (fun t => t.res0 == 3 && t.res1 == 5 && window t 0x3900 4 == [0x43, 0x41, 0x42].map some ++ [none]) = true := by
  decide +kernel

-- HS4: the same payload cut to 4 bits is E_TRUNCATED.
theorem test_hdec_truncated : answers
    (exec .hdec { held .hdec 0x3800 4 0x3900 64 (at' 0x3800 (bytes [0x58])) with
      huffman := some (buildTree [(0x41, 1), (0x42, 1), (0x43, 2)]) }) (fun t => t.statusWord == 0xF16) = true := by
  decide +kernel

-- P5: the first row of the 8x8 plane that 420 makes of P[y][x] = 16y + x.
theorem test_subs : answers
    (exec (.subs .m420) (held (.subs .m420) 0 16 16 0x100 (at' 0 (bytes (List.range 256)))))
    (fun t => t.res0 == 8 && t.res1 == 8 && window t 0x100 8 == [9, 11, 13, 15, 17, 19, 21, 23].map some) = true := by
  decide +kernel

-- CU2: 3x2 to 6x4 in mode 420.
theorem test_ups : answers (exec (.ups .m420) (held (.ups .m420) 0 3 2 0x400 (at' 0 (bytes [1, 2, 3, 4, 5, 6]))))
    (fun t => t.res0 == 6 && t.res1 == 4 && window t 0x400 24 ==
      [1, 1, 2, 2, 3, 3, 1, 1, 2, 2, 3, 3, 4, 4, 5, 5, 6, 6, 4, 4, 5, 5, 6, 6].map some) = true := by decide +kernel

/-! ### Registers, memory and reset -/

-- RG2 to RG5: a CMD write while busy is dropped and shows WLOST in STATUS.
theorem test_cmd_while_busy : answers (writes (held .nop 0 0 0 0 []) 0x0C 1)
    (fun t => t.cmd == 0 && t.statusWord == 0x21) = true := by decide +kernel

-- RG6, RG7: writing 0x20 clears WLOST, 0xFFFFFFDD neither it nor DONE.
theorem test_status_write : answers (writes { State.reset with status := ⟨false, true, false, true, 0⟩ } 0x08 0xFFFFFFDD)
    (fun t => t.statusWord == 0x22) = true ∧
    answers (writes { State.reset with status := ⟨false, true, false, true, 0⟩ } 0x08 0x20) (fun t => t.statusWord == 2) = true := by
  decide +kernel

-- R81: bytes 7 and 8 at the top of LMEM read as the 16-bit value 0x0807.
theorem test_window_read_is_little_endian : answers
    (does { State.reset with lmem := at' 65534 [7, 8] } (.read (State.reset.platform.lmemBase + 65534) 2))
    (fun t => t.responses == [0x0807]) = true := by decide +kernel

-- R81: the low byte lies at the lowest address.
theorem test_window_is_little_endian : answers
    (does State.reset (.write (State.reset.platform.lmemBase + 8) 8 0x1122334455667788))
    (fun t => window t 8 8 == [0x88, 0x77, 0x66, 0x55, 0x44, 0x33, 0x22, 0x11].map some) = true := by decide +kernel

-- P6: a soft reset aborts a ZZENC and leaves LMEM below its dst region as it was.
theorem test_soft_reset : answers (writes (held .zzenc 0 0x400 0x81 0 (at' 0x3FF (bytes [7]))) 0x04 3)
    (fun t => t.statusWord == 0 && t.ie == false && t.drawCount == 0x81 && window t 0x3FF 1 == [some 7] &&
      t.lmem.length == 0x82) = true := by decide +kernel

/-! ### Witnesses: each statement's hypotheses, met together -/

theorem next_such {o : Host.Outcome State Fault Refusal} {P : State → Prop} [DecidablePred P]
    (h : answers o (fun t => decide (P t)) = true) : ∃ t, o = .next t ∧ P t := by
  obtain ⟨t, ht, hp⟩ := next_of_answers h
  exact ⟨t, ht, of_decide_eq_true hp⟩

theorem holds_of_lmem {s : State} {a : Nat} {bs : List Byte} (h : s.lmem = at' a bs) : s.holds a bs := by
  intro j hj
  rw [h]
  exact Memory.get?_put_inside [] hj

def busyNop : State := held .nop 0 0 0 0 []

/-- The device running the illegal word w. -/
def illegal (w : Word) : State := { busyNop with cmd := w, latch := ⟨w, Args.zero⟩ }

/-- One symbol, and three. -/
def tableOne : List (Byte × Nat) := [(5, 3)]
def tableThree : List (Byte × Nat) := [(0x41, 1), (0x42, 1), (0x43, 2)]

/-- The last 8 bytes of the window. -/
def top : Nat := 0x10000000 + 65528

theorem witness_DecodeInvertsEncode : Instr.wf .nop = true ∧ Instr.wf (.quant 0) = true ∧ Instr.wf (.quant 255) = true := by
  decide

theorem witness_EncodeInvertsDecode : decode 0x0000FF05 = .ok (.dequant 255) ∧ decode 0x0000000B = .ok .hdec := by decide

theorem witness_IllegalWords :
    State.reset.status.busy = false ∧
    (decode (illegal 0x00010001).latch.cmd = .error .reservedField ∧ (illegal 0x00010001).status.busy = true) ∧
    ((0 < 1 ∨ 100 < 0) ∧ (101 < 1 ∨ 100 < 101)) := by decide

theorem witness_StepRunsTheLatchedCommand :
    (decode (held .zzenc 0 0 0 0 []).latch.cmd = .ok .zzenc ∧ (held .zzenc 0 0 0 0 []).status.busy = true ∧
      (held .zzenc 0 0 0 0 []).schedule = [] ∧ ({ busyNop with schedule := [.engine] } : State).schedule = .engine :: [] ∧
      busyNop.stalls (.read top 8) = true ∧ busyNop.stalls .wait = true) ∧
    (State.reset.status.busy = false ∧ State.reset.schedule = []) ∧
    (8 ≤ 32 ∧ 0x0D < 2 ^ 8 ∧ decode (BitVec.ofNat 32 0x0D) = .ok (.ups .m444)) ∧
    (32 ≤ 32 ∧ 0x030D < 2 ^ 32 ∧ decode (BitVec.ofNat 32 0x030D) = .ok (.ups .m411)) := by decide +kernel

theorem witness_RegisterAccesses :
    (0 < 256 ∧ 0 % 4 = 0 ∧ 252 < 256 ∧ 252 % 4 = 0) ∧ (0x34 ≤ 0x34 ∧ 0x34 < 256 ∧ 0x34 % 4 = 0 ∧ 0x34 ≤ 252) ∧
    (0x00 ∈ [0x00, 0x20, 0x24, 0x30] ∧ 0x30 ∈ [0x00, 0x20, 0x24, 0x30]) ∧
    (255 < 256 ∧ ¬ (4 = 4 ∧ 255 % 4 = 0) ∧ ¬ (2 = 4 ∧ 0 % 4 = 0)) := by decide

theorem witness_IdentityRegisters : ∃ t, step busyNop = .next t ∧ t.status.done = true := next_such (by decide +kernel)

theorem witness_ControlRegister : (0xFFFFFFFD : Word).getLsbD 1 = false ∧ (2 : Word).getLsbD 1 = true := by decide

theorem witness_CommandRegisters :
    State.reset.status.busy = false ∧ busyNop.status.busy = true ∧
    (∃ t, exec (.ups .m411) (held (.ups .m411) 0 1 1 4 (at' 0 [200])) = .next t ∧ t.res0 = 4) ∧
    decode 0x00000100 = .error (.reservedImmediate 1) := ⟨rfl, rfl, next_such (by decide +kernel), by decide⟩

theorem witness_ResultRegisters :
    (∃ t, step (held (.ups .m411) 0 1 1 4 (at' 0 [200])) = .next t ∧
      (t.res0 ≠ (0 : Word) ∨ t.res1 ≠ (0 : Word))) ∧
    (∃ t, writes { busyNop with res0 := 9 } 0x04 2 = .next t ∧ (t.res0 ≠ (9 : Word) ∨ t.res1 ≠ (0 : Word))) ∧
    (∃ t, exec .fdct (held .fdct 65281 0 0 0 []) = .next t ∧ t.status.errCode ≠ 0) :=
  ⟨next_such (by decide +kernel), next_such (by decide +kernel), next_such (by decide +kernel)⟩

/-- LMEM holding the block of zeros at 0. -/
def zeroBlock : Memory := at' 0 (List.replicate 256 0)

theorem witness_PreviousDcRegisters :
    State.reset.status.busy = false ∧ busyNop.status.busy = true ∧
    (∃ t, writes State.reset 0x28 0x80000000 = .next t ∧ t.prevDcEnc ≠ State.reset.prevDcEnc) ∧
    (∃ t, writes State.reset 0x2C 1 = .next t ∧ t.prevDcDec ≠ State.reset.prevDcDec) ∧
    (∃ t, step { held .zzenc 0 256 3 0 zeroBlock with prevDcEnc := 1 } = .next t ∧ t.prevDcEnc ≠ 1) ∧
    (∃ t, step (held .zzdec 0 1 0 0 (at' 0 [1])) = .next t ∧ t.prevDcDec ≠ 0) ∧
    (∃ t, writes { busyNop with prevDcEnc := 1, prevDcDec := 1 } 0x04 2 = .next t ∧ t.prevDcEnc ≠ 1 ∧ t.prevDcDec ≠ 1) :=
  ⟨rfl, rfl, next_such (by decide +kernel), next_such (by decide +kernel), next_such (by decide +kernel),
    next_such (by decide +kernel), next_such (by decide +kernel)⟩

theorem witness_OnlyTbuildWritesTheTree :
    (∃ t, step (held (.tbuild false) 0x800 1 0 0 (at' 0x800 (tableOf tableOne))) = .next t ∧ t.huffman ≠ none) ∧
    (∃ t, writes { busyNop with huffman := some (buildTree tableOne) } 0x04 2 = .next t ∧
      t.huffman ≠ some (buildTree tableOne)) := ⟨next_such (by decide +kernel), next_such (by decide +kernel)⟩

theorem witness_TreeValid :
    (2 : Word).getLsbD 1 = true ∧
    (∃ t, exec (.tbuild true) (held (.tbuild true) 0x800 1 55296 0 (at' 0x800 (tableOf tableOne))) = .next t ∧
      t.status.errCode = 0) ∧
    (∃ t, exec (.tbuild false) (held (.tbuild false) 0 0 0 0 []) = .next t ∧ t.status.errCode = 0x0B) ∧
    (decode (illegal 0x0000000E).latch.cmd = .error (.reservedOpcode 14) ∧ (illegal 0x0000000E).status.busy = true) ∧
    ((∀ ct, Instr.nop ≠ .tbuild ct) ∧ ∃ t, exec .nop busyNop = .next t ∧ t.status.done = true) ∧
    (let s := held .henc 0 4 4 65532 [];
      s.treeValid = false ∧ InRange s (larg2 s) (larg3 s) ∧ InRange s (larg0 s) (larg1 s) ∧
        Apart (larg0 s) (larg1 s) (larg2 s) (larg3 s)) ∧
    (let s := held .hdec 0 32 4 65532 [];
      s.treeValid = false ∧ InRange s (larg2 s) (larg3 s) ∧ InRange s (larg0 s) ((larg1 s + 7) / 8) ∧
        Apart (larg0 s) ((larg1 s + 7) / 8) (larg2 s) (larg3 s)) :=
  ⟨by decide, next_such (by decide +kernel), next_such (by decide +kernel), by decide,
    ⟨by decide, next_such (by decide +kernel)⟩, by decide +kernel, by decide +kernel⟩

/-- The idle device whose last 8 bytes of LMEM hold 1 to 8. -/
def topHeld : State := { State.reset with lmem := at' 65528 [1, 2, 3, 4, 5, 6, 7, 8] }

theorem witness_StalledAccessWaits :
    State.reset.platform.legal ∧ WindowAccess State.reset.platform top 8 ∧
    WindowAccess State.reset.platform (0x10000000 + 65535) 1 ∧
    busyNop.status.busy = true ∧ Move.read top 8 ∈ [Move.read top 8, Move.write top 8 7] ∧
    (∃ t, does busyNop (.read top 8) = .next t ∧ t.status.busy = false) ∧ State.reset.status.busy = false ∧
    topHeld.status.busy = false ∧ topHeld.holds (top - topHeld.platform.lmemBase) [1, 2, 3, 4, 5, 6, 7, 8] :=
  ⟨by decide, by decide, by decide, rfl, by decide, next_such (by decide +kernel), rfl, rfl, holds_of_lmem rfl⟩

theorem witness_OtherAccessesAreRefused :
    State.reset.platform.legal ∧ RegisterAccess State.reset.platform 252 4 ∧ WindowAccess State.reset.platform top 8 ∧
    ¬ (RegisterAccess State.reset.platform 256 4 ∨ WindowAccess State.reset.platform 256 4) ∧
    ¬ (RegisterAccess State.reset.platform (top + 1) 8 ∨ WindowAccess State.reset.platform (top + 1) 8) ∧
    ¬ (RegisterAccess State.reset.platform (top + 8) 1 ∨ WindowAccess State.reset.platform (top + 8) 1) := by decide

theorem witness_WindowReadsBackWrites :
    State.reset.platform.legal ∧ WindowAccess State.reset.platform top 8 ∧ State.reset.status.busy = false ∧
    State.reset.lmem.get? (top - State.reset.platform.lmemBase) = none ∧
    ¬ (top ≤ State.reset.platform.lmemBase + 65527 ∧ State.reset.platform.lmemBase + 65527 < top + 8) ∧
    WindowAccess topHeld.platform (top + 6) 2 ∧ topHeld.status.busy = false ∧
    topHeld.holds (top + 6 - topHeld.platform.lmemBase) [7, 8] := by decide

theorem witness_WaitAndCheck :
    busyNop.status.busy = true ∧ State.reset.status.busy = false ∧ State.reset.status.errCode = 0 ∧
    ({ State.reset with status := ⟨false, true, false, false, 0x0F⟩ } : State).status.errCode ≠ 0 := by decide

theorem witness_PseudoInstructionIssuesItsCommand :
    Instr.wf .henc = true ∧ [(0x400 : Word), 41, 0x3800, 64].length ≤ 4 ∧ ([] : List Word).length ≤ 4 ∧
    State.reset.status.busy = false ∧ State.reset.schedule = [] := by decide

theorem witness_a_fault :
    exec .fdct (held .fdct 65280 0 0 0 []) = .fault (.noValue 65280) := by
  have h : (match exec .fdct (held .fdct 65280 0 0 0 []) with
      | .fault f => decide (f = .noValue 65280)
      | .next _ => false
      | .refused _ => false) = true := by decide +kernel
  split at h
  · next f hf => rw [hf, of_decide_eq_true h]
  · exact absurd h (by decide)
  · exact absurd h (by decide)

theorem witness_FaultsOnlyAtBytesWithNoValue :
    (∃ f, exec .fdct (held .fdct 65280 0 0 0 []) = .fault f) ∧
    (let s := held (.quant 1) 65024 0 0 0 (at' 65024 (List.replicate 511 0));
      readsWholeSrc (.quant 1) = true ∧ precheck (.quant 1) s = none ∧ srcRegion (.quant 1) s.latch.args = some ⟨65024, 512, 8⟩ ∧
        65024 ≤ 65535 ∧ 65535 < 65024 + 512 ∧ s.lmem.get? 65535 = none) ∧
    (let s := held (.tbuild false) 65528 1 0 0 (at' 65528 [5, 0, 0, 0, 3, 0, 0]);
      precheck (.tbuild false) s = none ∧ 0 < larg1 s ∧ (7 = 0 ∨ (4 ≤ 7 ∧ 7 < 8)) ∧
        s.lmem.get? (larg0 s + 8 * 0 + 7) = none) ∧
    (let s := held .zzdec 65535 1 0 0 [];
      precheck .zzdec s = none ∧ s.lmem.get? (larg0 s) = none) ∧
    (let s := held .zzdec 65533 3 0 0 (at' 65533 [5, 0x3E]);
      precheck .zzdec s = none ∧ s.holds (larg0 s) [5, 0x3E] ∧ [(0x3E : Byte)].length + 1 < larg1 s ∧
        [(0x3E : Byte)].length < (placePairs ([0x3E] ++ [0]) 1).consumed ∧ s.lmem.get? (larg0 s + 2) = none) ∧
    (let s : State := { held .henc 65534 2 0 8 (at' 65534 [5]) with huffman := some (buildTree tableOne) };
      precheck .henc s = none ∧ s.huffman = some (buildTree tableOne) ∧ s.holds (larg0 s) [5] ∧ [(5 : Byte)].length < larg1 s ∧
        (encodeBytes (buildTree tableOne) [5]).1 ≠ none ∧ s.lmem.get? (larg0 s + 1) = none) ∧
    (let s : State := { held .hdec 65534 9 0 8 (at' 65534 [0]) with huffman := some (buildTree tableOne) };
      precheck .hdec s = none ∧ s.huffman = some (buildTree tableOne) ∧ s.holds (larg0 s) [0] ∧ 8 * 1 < larg1 s ∧
        (decodeWalk (buildTree tableOne) (payloadBits [0] 8) (buildTree tableOne).root (larg3 s)).1 ≠ .raised 0x0E ∧
        (decodeWalk (buildTree tableOne) (payloadBits [0] 8) (buildTree tableOne).root (larg3 s)).1 ≠ .raised 0x09 ∧
        s.lmem.get? (larg0 s + 1) = none) := by
  exact ⟨⟨_, witness_a_fault⟩, by decide +kernel, by decide +kernel, by decide +kernel, by decide +kernel, by decide +kernel,
    by decide +kernel⟩

theorem witness_ReadableCommandsComplete :
    (∀ r, srcRegion (.ups .m411) (held (.ups .m411) 65535 1 1 4 (at' 65535 [200])).latch.args = some r →
      ∀ a, r.start ≤ a → a < r.start + r.len → (held (.ups .m411) 65535 1 1 4 (at' 65535 [200])).lmem.get? a ≠ none) := by
  intro r hr a h1 h2
  have e : srcRegion (.ups .m411) (held (.ups .m411) 65535 1 1 4 (at' 65535 [200])).latch.args = some ⟨65535, 1, 1⟩ := by
    decide
  rw [e] at hr
  cases hr
  have : a = 65535 := by simp at h1 h2; omega
  subst this
  decide

theorem witness_CommandsWriteOnlyTheirDst :
    (∃ t, exec (.qtab 1) (held (.qtab 1) 0x100 0 0 0 []) = .next t ∧ t.status.errCode = 0) ∧
    (∀ r, dstRegion (.qtab 1) (held (.qtab 1) 0x100 0 0 0 []).latch.args = some r →
      ¬ (r.start ≤ 0xFF ∧ 0xFF < r.start + r.len) ∧ ¬ (r.start ≤ 0x140 ∧ 0x140 < r.start + r.len)) ∧
    (∃ t, exec .nop busyNop = .next t ∧ t.status.errCode = 0) ∧
    (∀ r, dstRegion .nop busyNop.latch.args = some r → ¬ (r.start ≤ 0 ∧ 0 < r.start + r.len)) := by
  refine ⟨next_such (by decide +kernel), ?_, next_such (by decide +kernel), ?_⟩
  · intro r hr
    have e : dstRegion (.qtab 1) (held (.qtab 1) 0x100 0 0 0 []).latch.args = some ⟨0x100, 64, 1⟩ := by decide
    rw [e] at hr
    cases hr
    decide
  · intro r hr
    exact absurd hr (by simp [dstRegion])

theorem witness_CommandFrame :
    ∃ t, exec (.ups .m420) (held (.ups .m420) 0 1 1 4 (at' 0 [200])) = .next t ∧
      Instr.ups .m420 ≠ .zzenc ∧ Instr.ups .m420 ≠ .zzdec ∧ (∀ ct, Instr.ups .m420 ≠ .tbuild ct) ∧
      Instr.ups .m420 ≠ .henc ∧ Instr.ups .m420 ≠ .hdec := next_such (by decide +kernel)

/-- The three conditions of CheckOrder. -/
def rangeOk (s : State) (i : Instr) : Prop := ∀ r ∈ regions i s.latch.args, r.start + r.len ≤ s.platform.lmemSize
def alignOk (s : State) (i : Instr) : Prop := ∀ r ∈ regions i s.latch.args, r.start % r.align = 0
def apartOk (s : State) (i : Instr) : Prop :=
  refusesOverlap i = true → ∀ r q, srcRegion i s.latch.args = some r → dstRegion i s.latch.args = some q →
    Apart r.start r.len q.start q.len

theorem witness_CheckOrder :
    argError (.qtab 101) (held (.qtab 101) 0 0 0 0 []).latch.args = some .quality ∧
    (argError .fdct (held .fdct 65281 0 0 0 []).latch.args = none ∧ ¬ rangeOk (held .fdct 65281 0 0 0 []) .fdct) ∧
    (rangeOk (held .fdct 65280 4 0 0 []) .fdct ∧ ¬ alignOk (held .fdct 65280 4 0 0 []) .fdct) ∧
    (rangeOk (held .henc 0 4 3 4 []) .henc ∧ alignOk (held .henc 0 4 3 4 []) .henc ∧ ¬ apartOk (held .henc 0 4 3 4 []) .henc) ∧
    (rangeOk (held .henc 0 4 4 4 []) .henc ∧ alignOk (held .henc 0 4 4 4 []) .henc ∧ apartOk (held .henc 0 4 4 4 []) .henc ∧
      (held .henc 0 4 4 4 []).treeValid = false) := by
  have r1 : regions .fdct (held .fdct 65281 0 0 0 []).latch.args = [⟨65281, 256, 4⟩, ⟨0, 512, 8⟩] := by decide
  have r2 : regions .fdct (held .fdct 65280 4 0 0 []).latch.args = [⟨65280, 256, 4⟩, ⟨4, 512, 8⟩] := by decide
  have r3 : regions .henc (held .henc 0 4 3 4 []).latch.args = [⟨0, 4, 1⟩, ⟨3, 4, 1⟩] := by decide
  have r4 : regions .henc (held .henc 0 4 4 4 []).latch.args = [⟨0, 4, 1⟩, ⟨4, 4, 1⟩] := by decide
  refine ⟨by decide, ⟨by decide, ?_⟩, ⟨?_, ?_⟩, ⟨?_, ?_, ?_⟩, ?_, ?_, ?_, by decide⟩
  · unfold rangeOk; rw [r1]; decide
  · unfold rangeOk; rw [r2]; decide
  · unfold alignOk; rw [r2]; decide
  · unfold rangeOk; rw [r3]; decide
  · unfold alignOk; rw [r3]; decide
  · intro h
    exact absurd (h (by decide) ⟨0, 4, 1⟩ ⟨3, 4, 1⟩ (by decide) (by decide)) (by decide)
  · unfold rangeOk; rw [r4]; decide
  · unfold alignOk; rw [r4]; decide
  · intro _ r q hr hq
    have e : srcRegion .henc (held .henc 0 4 4 4 []).latch.args = some ⟨0, 4, 1⟩ := by decide
    have e' : dstRegion .henc (held .henc 0 4 4 4 []).latch.args = some ⟨4, 4, 1⟩ := by decide
    rw [e] at hr
    rw [e'] at hq
    cases hr
    cases hq
    decide

theorem witness_ErrorsLeaveTheirState :
    (∃ t, exec .zzenc (held .zzenc 0 256 2 0 zeroBlock) = .next t ∧ t.status.errCode ≠ 0 ∧
      precheck .zzenc (held .zzenc 0 256 2 0 zeroBlock) = none) ∧
    (∃ t, exec .zzdec (held .zzdec 0 0 0 0 []) = .next t ∧ t.status.errCode ≠ 0 ∧
      precheck .zzdec (held .zzdec 0 0 0 0 []) ≠ none) ∧
    (decode (illegal 0x00000209).latch.cmd = .error (.reservedImmediate 2) ∧ (illegal 0x00000209).status.busy = true) :=
  ⟨next_such (by decide +kernel), next_such (by decide +kernel), by decide⟩

/-- HENC over one byte with a code and one without, its dst region the last 8 bytes of LMEM. -/
def hencNoCode : State :=
  { held .henc 0x400 2 65528 8 (at' 0x400 [5, 6]) with huffman := some (buildTree tableOne) }

/-- HENC of nine bits into one byte. -/
def hencShort : State :=
  { held .henc 0x400 9 65535 1 (at' 0x400 (List.replicate 9 5)) with huffman := some (buildTree tableOne) }

/-- HDEC of the bits 01 with the tree of one symbol. -/
def hdecCorrupt : State := { held .hdec 0x400 2 65528 8 (at' 0x400 [0x40]) with huffman := some (buildTree tableOne) }

/-- HDEC of two symbols into one byte. -/
def hdecShort : State := { held .hdec 0x400 2 65535 1 (at' 0x400 [0x00]) with huffman := some (buildTree tableOne) }

/-- HDEC ending inside a code. -/
def hdecTruncated : State := { held .hdec 0x400 4 65528 8 (at' 0x400 [0x58]) with huffman := some (buildTree tableThree) }

theorem witness_MemoryAfterExecuteError :
    (∃ t, exec .zzenc (held .zzenc 0 256 2 0 zeroBlock) = .next t ∧ t.status.errCode ≠ 0) ∧
    (∃ t, exec .henc hencNoCode = .next t ∧ t.status.errCode = 0x0D ∧ precheck .henc hencNoCode = none ∧
      7 < larg3 hencNoCode ∧ ¬ (larg2 hencNoCode ≤ 65527 ∧ 65527 < larg2 hencNoCode + larg3 hencNoCode)) ∧
    (∃ t, exec .henc hencShort = .next t ∧ t.status.errCode = 0x09 ∧ precheck .henc hencShort = none) ∧
    (∃ t, exec .hdec hdecCorrupt = .next t ∧ t.status.errCode = 0x0E ∧ precheck .hdec hdecCorrupt = none) ∧
    (∃ t, exec .hdec hdecShort = .next t ∧ t.status.errCode = 0x09 ∧ precheck .hdec hdecShort = none) ∧
    (∃ t, exec .hdec hdecTruncated = .next t ∧ t.status.errCode = 0x0F ∧ precheck .hdec hdecTruncated = none) :=
  ⟨next_such (by decide +kernel), next_such (by decide +kernel), next_such (by decide +kernel),
    next_such (by decide +kernel), next_such (by decide +kernel), next_such (by decide +kernel)⟩

theorem witness_InterruptOutput :
    (∃ t, exec .nop { busyNop with ie := true } = .next t ∧ t.irq = true) ∧ State.reset.status.busy = false :=
  ⟨next_such (by decide +kernel), rfl⟩

theorem witness_SoftReset :
    (2 : Word).getLsbD 1 = true ∧ State.reset.status.busy = false ∧
    abortedRegion (held .fdct 0 65024 0 0 []) = some ⟨65024, 512, 8⟩ ∧ 65024 + 512 ≤ 65536 ∧ 511 < 512 ∧
    ¬ (65024 ≤ 65023 ∧ 65023 < 65024 + 512) ∧ abortedRegion busyNop = none := by decide

theorem witness_StepKeepsInvariant :
    hencNoCode.Inv ∧ ∃ t, step hencNoCode = .next t ∧ t.drawCount = 8 := by
  refine ⟨⟨by decide, ?_, by decide, rfl, ?_⟩, next_such (by decide +kernel)⟩
  · decide +kernel
  · intro h hh
    cases hh
    decide +kernel

theorem witness_NopResult : (0x00000100 : Word).extractLsb' 0 8 = 0 ∧ (0x00000100 : Word) ≠ 0 := by decide

/-! #### The block commands -/

/-- A block of i32 elements with both ends of the range. -/
def ints : List Int := block [(0, -2147483648), (1, 2147483647), (63, -1)]

/-- LMEM holding `ints` in its last 256 bytes. -/
def intMemory : Memory := at' 65280 (ints.flatMap i32Bytes)

theorem holds_ints {s : State} (h : s.lmem = intMemory) : s.holdsI32Block 65280 ints :=
  ⟨by decide, by decide, holds_of_lmem h⟩

/-- Finite doubles whose sum is not finite: the largest of them, four times. -/
def huge : List Double :=
  doubles [(0, 0x7FEFFFFFFFFFFFFF), (9, 0x7FEFFFFFFFFFFFFF), (18, 0x7FEFFFFFFFFFFFFF), (27, 0x7FEFFFFFFFFFFFFF)]

/-- A NaN as the last element. -/
def withNan : List Double := doubles [(63, 0x7FF8000000000000)]

/-- LMEM holding a block of doubles in its last 512 bytes. -/
def doubleMemory (f : List Double) : Memory := at' 65024 (f.flatMap f64Bytes)

theorem all_finite {f : List Double} (h : f.all f64Finite = true) : ∀ x ∈ f, f64Finite x = true := List.all_eq_true.mp h

theorem holds_doubles {s : State} {f : List Double} (hl : f.length = 64) (h : s.lmem = doubleMemory f) :
    s.holdsF64Block 65024 f := ⟨hl, holds_of_lmem h⟩

theorem witness_FdctResult :
    (let s := held .fdct 65281 0 0 0 [];
      ¬ (InRange s (larg0 s) 256 ∧ InRange s (larg1 s) 512)) ∧
    (let s := held .fdct 0 65025 0 0 [];
      ¬ (InRange s (larg0 s) 256 ∧ InRange s (larg1 s) 512)) ∧
    (let s := held .fdct 65280 65020 0 0 [];
      (InRange s (larg0 s) 256 ∧ InRange s (larg1 s) 512) ∧ ¬ (larg0 s % 4 = 0 ∧ larg1 s % 8 = 0)) ∧
    (let s := held .fdct 65280 65024 0 0 intMemory;
      (InRange s (larg0 s) 256 ∧ InRange s (larg1 s) 512) ∧ (larg0 s % 4 = 0 ∧ larg1 s % 8 = 0) ∧
        s.holdsI32Block (larg0 s) ints) := by
  exact ⟨by decide, by decide, by decide, by decide, by decide, holds_ints rfl⟩

theorem sum_is_not_finite : f64Finite (f64Mul 0x3FD0000000000000 (idctSum huge 0 0)) = false := by decide +kernel

/-! The IDCT of a block of zeros is finite: every term is a zero, and +0 plus a zero is +0. -/

abbrev IsZero (x : Double) : Prop := x = 0 ∨ x = 0x8000000000000000

theorem zero_mul_cosine (z : Double) (hz : IsZero z) : ∀ c ∈ cosines, IsZero (f64Mul z c) := by
  have h : cosines.all (fun c => decide (f64Mul 0 c = 0 ∨ f64Mul 0 c = 0x8000000000000000)) = true ∧
      cosines.all (fun c => decide (f64Mul 0x8000000000000000 c = 0 ∨
        f64Mul 0x8000000000000000 c = 0x8000000000000000)) = true := by decide +kernel
  intro c hc
  rcases hz with rfl | rfl
  · have := List.all_eq_true.mp h.1 c hc
    exact of_decide_eq_true this
  · have := List.all_eq_true.mp h.2 c hc
    exact of_decide_eq_true this

theorem zero_mul_cosOf (z : Double) (hz : IsZero z) (x u : Nat) : IsZero (f64Mul z (cosOf x u)) := by
  have h : (2 * x + 1) * u % 32 < cosines.length := Nat.mod_lt _ (by decide)
  have e : cosOf x u = cosines[(2 * x + 1) * u % 32] := by
    unfold cosOf
    rw [List.getD_eq_getElem?_getD, List.getElem?_eq_getElem h, Option.getD_some]
  rw [e]
  exact zero_mul_cosine z hz _ (List.getElem_mem h)

theorem scale_mul_zero (u v : Nat) : IsZero (f64Mul (f64Mul (cuOf u) (cuOf v)) 0) := by
  rcases u with _ | u <;> rcases v with _ | v <;> exact Or.inl (by simp only [cuOf]; decide +kernel)

theorem zero_add_zero (z : Double) (hz : IsZero z) : f64Add 0 z = 0 := by
  rcases hz with rfl | rfl <;> decide +kernel

theorem foldl_stays {α β : Type} (f : β → α → β) (b : β) (l : List α) (h : ∀ a, f b a = b) : l.foldl f b = b := by
  induction l with
  | nil => rfl
  | cons a l ih => rw [List.foldl_cons, h, ih]

theorem zeros_getD (k : Nat) : (doubles []).getD k 0 = 0 := by
  have : doubles [] = List.replicate 64 0 := rfl
  rw [this, List.getD_eq_getElem?_getD, List.getElem?_replicate]
  split <;> rfl

theorem idct_of_zeros (x y : Nat) : idctSum (doubles []) x y = 0 := by
  unfold idctSum
  refine foldl_stays _ _ _ fun u => foldl_stays _ _ _ fun v => zero_add_zero _ ?_
  rw [zeros_getD]
  exact zero_mul_cosOf _ (zero_mul_cosOf _ (scale_mul_zero u v) x u) y v

theorem idct_of_zeros_finite : ∀ r ∈ idctOut (doubles []), f64Finite r = true := by
  intro r hr
  obtain ⟨x, -, hx⟩ := List.mem_flatMap.mp hr
  obtain ⟨y, -, rfl⟩ := List.mem_map.mp hx
  rw [idct_of_zeros]
  decide +kernel

theorem witness_IdctResult :
    (let s := held .idct 65025 0 0 0 [];
      ¬ (InRange s (larg0 s) 512 ∧ InRange s (larg1 s) 256)) ∧
    (let s := held .idct 65020 65280 0 0 [];
      (InRange s (larg0 s) 512 ∧ InRange s (larg1 s) 256) ∧ ¬ (larg0 s % 8 = 0 ∧ larg1 s % 4 = 0)) ∧
    (let s := held .idct 65024 65280 0 0 (doubleMemory withNan);
      (InRange s (larg0 s) 512 ∧ InRange s (larg1 s) 256) ∧ (larg0 s % 8 = 0 ∧ larg1 s % 4 = 0) ∧
        s.holdsF64Block (larg0 s) withNan ∧ ∃ x ∈ withNan, f64Finite x = false) ∧
    (let s := held .idct 65024 65280 0 0 (doubleMemory huge);
      s.holdsF64Block (larg0 s) huge ∧ (∀ x ∈ huge, f64Finite x = true) ∧ ∃ x ∈ idctOut huge, f64Finite x = false) ∧
    (let s := held .idct 65024 65280 0 0 (doubleMemory (doubles []));
      s.holdsF64Block (larg0 s) (doubles []) ∧ (∀ x ∈ doubles [], f64Finite x = true) ∧
        ∀ x ∈ idctOut (doubles []), f64Finite x = true) := by
  refine ⟨by decide, by decide, ⟨by decide, by decide, holds_doubles rfl rfl, ⟨0x7FF8000000000000, by decide +kernel, by decide⟩⟩,
    ⟨holds_doubles rfl rfl, all_finite (by decide +kernel), ⟨_, ?_, sum_is_not_finite⟩⟩, holds_doubles rfl rfl, all_finite (by decide +kernel), idct_of_zeros_finite⟩
  exact List.mem_flatMap.mpr ⟨0, by decide, List.mem_map.mpr ⟨0, by decide, rfl⟩⟩

theorem witness_QtabResult :
    (0 < 256 ∧ 255 < 256) ∧ (¬ (1 ≤ 0 ∧ 0 ≤ 100) ∧ ¬ (1 ≤ 101 ∧ 101 ≤ 100)) ∧
    (1 ≤ 1 ∧ 100 ≤ 100 ∧ ¬ InRange State.reset (larg0 (held (.qtab 1) 65473 0 0 0 [])) 64 ∧
      InRange State.reset (larg0 (held (.qtab 1) 65472 0 0 0 [])) 64) := by decide

theorem witness_QuantResult :
    (¬ (1 ≤ 0 ∧ 0 ≤ 100) ∧ ¬ (1 ≤ 101 ∧ 101 ≤ 100)) ∧
    (let s := held (.quant 1) 0 65281 0 0 [];
      ¬ (InRange s (larg0 s) 512 ∧ InRange s (larg1 s) 256)) ∧
    (let s := held (.quant 100) 65020 65280 0 0 [];
      (InRange s (larg0 s) 512 ∧ InRange s (larg1 s) 256) ∧ ¬ (larg0 s % 8 = 0 ∧ larg1 s % 4 = 0)) ∧
    (let s := held (.quant 1) 65024 65280 0 0 (doubleMemory withNan);
      (InRange s (larg0 s) 512 ∧ InRange s (larg1 s) 256) ∧ (larg0 s % 8 = 0 ∧ larg1 s % 4 = 0) ∧
        s.holdsF64Block (larg0 s) withNan ∧ ∃ x ∈ withNan, f64Finite x = false) ∧
    (let s := held (.quant 100) 65024 65280 0 0 (doubleMemory huge);
      s.holdsF64Block (larg0 s) huge ∧ ∀ x ∈ huge, f64Finite x = true) := by
  exact ⟨by decide, by decide, by decide,
    ⟨by decide, by decide, holds_doubles rfl rfl, ⟨0x7FF8000000000000, by decide +kernel, by decide⟩⟩,
    holds_doubles rfl rfl, all_finite (by decide +kernel)⟩

theorem witness_DequantResult :
    (¬ (1 ≤ 0 ∧ 0 ≤ 100) ∧ ¬ (1 ≤ 101 ∧ 101 ≤ 100)) ∧
    (let s := held (.dequant 1) 0 65025 0 0 [];
      ¬ (InRange s (larg0 s) 256 ∧ InRange s (larg1 s) 512)) ∧
    (let s := held (.dequant 100) 65278 65024 0 0 [];
      (InRange s (larg0 s) 256 ∧ InRange s (larg1 s) 512) ∧ ¬ (larg0 s % 4 = 0 ∧ larg1 s % 8 = 0)) ∧
    (let s := held (.dequant 100) 65280 65024 0 0 intMemory;
      (InRange s (larg0 s) 256 ∧ InRange s (larg1 s) 512) ∧ (larg0 s % 4 = 0 ∧ larg1 s % 8 = 0) ∧
        s.holdsI32Block (larg0 s) ints ∧ 63 < 64) := by
  exact ⟨by decide, by decide, by decide, by decide, by decide, holds_ints rfl, by decide⟩

theorem witness_ZzencResult :
    (let s := held .zzenc 65280 65533 4 0 [];
      ¬ (InRange s (larg0 s) 256 ∧ InRange s (larg1 s) (larg2 s))) ∧
    (let s := held .zzenc 65278 65533 3 0 [];
      (InRange s (larg0 s) 256 ∧ InRange s (larg1 s) (larg2 s)) ∧ larg0 s % 4 ≠ 0) ∧
    (let s := held .zzenc 65280 65527 8 0 intMemory;
      (InRange s (larg0 s) 256 ∧ InRange s (larg1 s) (larg2 s)) ∧ larg0 s % 4 = 0 ∧ s.holdsI32Block (larg0 s) ints ∧
        larg2 s < (streamOf ints s.prevDcEnc.toInt).length) ∧
    (let s := held .zzenc 65280 65523 13 0 intMemory;
      (InRange s (larg0 s) 256 ∧ InRange s (larg1 s) (larg2 s)) ∧ larg0 s % 4 = 0 ∧ s.holdsI32Block (larg0 s) ints ∧
        (streamOf ints s.prevDcEnc.toInt).length = larg2 s) := by
  exact ⟨by decide, by decide, ⟨by decide, by decide, holds_ints rfl, by decide +kernel⟩, by decide, by decide,
    holds_ints rfl, by decide +kernel⟩

theorem witness_ZzencStreamSize :
    ∃ t, exec .zzenc (held .zzenc 0 256 129 0 zeroBlock) = .next t ∧ 129 ≤ larg2 (held .zzenc 0 256 129 0 zeroBlock) :=
  next_such (by decide +kernel)

theorem witness_ZzdecResult :
    larg1 (held .zzdec 0 0 0 0 []) = 0 ∧
    (let s := held .zzdec 65533 4 0 0 [];
      larg1 s ≠ 0 ∧ ¬ (InRange s (larg0 s) (larg1 s) ∧ InRange s (larg2 s) 256)) ∧
    (let s := held .zzdec 65533 3 65278 0 [];
      larg1 s ≠ 0 ∧ (InRange s (larg0 s) (larg1 s) ∧ InRange s (larg2 s) 256) ∧ larg2 s % 4 ≠ 0) ∧
    (let s := held .zzdec 65531 5 65280 0 (at' 65531 [5, 0x3F, 1]);
      (InRange s (larg0 s) (larg1 s) ∧ InRange s (larg2 s) 256) ∧ larg2 s % 4 = 0 ∧
        [(5 : Byte), 0x3F, 1, 0, 0].length = larg1 s ∧
        s.holds (larg0 s) ([(5 : Byte), 0x3F, 1, 0, 0].take ((placePairs [0x3F, 1, 0, 0] 1).consumed + 1)) ∧
        (placePairs [0x3F, 1, 0, 0] 1).malformed = true) ∧
    (let s := held .zzdec 65531 5 65280 0 (at' 65531 [5, 0x3E, 9, 0, 0]);
      (InRange s (larg0 s) (larg1 s) ∧ InRange s (larg2 s) 256) ∧ larg2 s % 4 = 0 ∧
        [(5 : Byte), 0x3E, 9, 0, 0].length = larg1 s ∧
        s.holds (larg0 s) ([(5 : Byte), 0x3E, 9, 0, 0].take ((placePairs [0x3E, 9, 0, 0] 1).consumed + 1)) ∧
        (placePairs [0x3E, 9, 0, 0] 1).malformed = false) := by
  exact ⟨by decide, by decide, by decide, by decide +kernel, by decide +kernel⟩

/-- A block whose differences are at the ends of the byte range. -/
def smallInts : List Int := block [(0, 127), (1, -128), (63, 127)]

theorem holds_small {s : State} (h : s.lmem = at' 0x400 (smallInts.flatMap i32Bytes)) : s.holdsI32Block 0x400 smallInts :=
  ⟨by decide, by decide, holds_of_lmem h⟩

theorem witness_ZigzagRoundTrip :
    let s := held .zzenc 0x400 0x800 129 0 (at' 0x400 (smallInts.flatMap i32Bytes))
    s.holdsI32Block (larg0 s) smallInts ∧
    (∀ k, 1 ≤ k → k < 64 → -128 ≤ smallInts.getD k 0 ∧ smallInts.getD k 0 ≤ 127) ∧
    -128 ≤ smallInts.getD 0 0 - s.prevDcEnc.toInt ∧ smallInts.getD 0 0 - s.prevDcEnc.toInt ≤ 127 ∧
    (∃ t, exec .zzenc s = .next t ∧ t.status.errCode = 0) ∧
    InRange s (65280 : Word).toNat 256 ∧ (65280 : Word).toNat % 4 = 0 := by
  refine ⟨holds_small rfl, ?_, by decide, by decide, next_such (by decide +kernel), by decide,
    by decide⟩
  intro k _ hk
  have h : ∀ k, k < 64 → -128 ≤ smallInts.getD k 0 ∧ smallInts.getD k 0 ≤ 127 := by decide +kernel
  exact h k hk

/-! #### The stream and plane commands -/

theorem witness_HistResult :
    (let s := held .hist 65533 3 63489 0 [];
      ¬ (InRange s (larg0 s) (larg1 s) ∧ InRange s (larg2 s) 2048)) ∧
    (let s := held .hist 65533 3 63486 0 [];
      (InRange s (larg0 s) (larg1 s) ∧ InRange s (larg2 s) 2048) ∧ larg2 s % 4 ≠ 0) ∧
    (let s := held .hist 0 257 256 0 [];
      (InRange s (larg0 s) (larg1 s) ∧ InRange s (larg2 s) 2048) ∧ larg2 s % 4 = 0 ∧
        ¬ Apart (larg0 s) (larg1 s) (larg2 s) 2048) ∧
    (let s := held .hist 63485 3 63488 0 (at' 63485 [0, 255, 0]);
      (InRange s (larg0 s) (larg1 s) ∧ InRange s (larg2 s) 2048) ∧ larg2 s % 4 = 0 ∧
        Apart (larg0 s) (larg1 s) (larg2 s) 2048 ∧ [(0 : Byte), 255, 0].length = larg1 s ∧
        s.holds (larg0 s) [0, 255, 0]) ∧
    (let s := held .hist 0 0 0 0 [];
      Apart (larg0 s) (larg1 s) (larg2 s) 2048 ∧ ([] : List Byte).length = larg1 s ∧ s.holds (larg0 s) []) := by
  exact ⟨by decide, by decide, by decide, ⟨by decide, by decide, by decide, by decide, holds_of_lmem rfl⟩, by decide⟩

theorem holdsTable_one (a : Nat) (s : State) (h : s.lmem = at' a (tableOf tableOne)) : HoldsTable s a tableOne := by
  have e : at' a (tableOf tableOne) = at' a [5, 0, 0, 0, 3, 0, 0, 0] := by rw [show tableOf tableOne = [5, 0, 0, 0, 3, 0, 0, 0] by decide]
  intro k hk
  have k0 : k = 0 := by simp [tableOne] at hk; exact hk
  subst k0
  refine ⟨?_, (by decide : 3 < 2 ^ 32), ?_⟩
  · rw [h, e]
    exact Memory.get?_put_inside (j := 0) [] (by decide)
  · have hh : s.holds a [5, 0, 0, 0, 3, 0, 0, 0] := holds_of_lmem (h.trans e)
    have := (holds_append (bs := [5, 0, 0, 0]) (cs := [3, 0, 0, 0])).mp hh
    have four : leBytes 4 3 = [3, 0, 0, 0] := by decide
    show s.holds (a + 4) (leBytes 4 3)
    rw [four]
    exact this.2

theorem witness_TbuildResult :
    larg1 (held (.tbuild false) 0 0 0 0 []) = 0 ∧ 256 < larg1 (held (.tbuild false) 0 257 0 0 []) ∧
    (let s := held (.tbuild false) 63489 256 0 0 [];
      1 ≤ larg1 s ∧ larg1 s ≤ 256 ∧ ¬ InRange s (larg0 s) (8 * larg1 s)) ∧
    (let s := held (.tbuild true) 0 1 55297 0 [];
      1 ≤ larg1 s ∧ InRange s (larg0 s) (8 * larg1 s) ∧ ¬ InRange s (larg2 s) 10240) ∧
    (let s := held (.tbuild true) 0 1 55294 0 [];
      InRange s (larg0 s) (8 * larg1 s) ∧ InRange s (larg2 s) 10240 ∧ ¬ (larg0 s % 4 = 0 ∧ larg2 s % 4 = 0)) ∧
    (let s := held (.tbuild true) 0 1 4 0 [];
      InRange s (larg0 s) (8 * larg1 s) ∧ InRange s (larg2 s) 10240 ∧ larg0 s % 4 = 0 ∧ larg2 s % 4 = 0 ∧
        ¬ Apart (larg0 s) (8 * larg1 s) (larg2 s) 10240) ∧
    (let s := held (.tbuild true) 55288 1 55296 0 (at' 55288 (tableOf tableOne));
      1 ≤ larg1 s ∧ larg1 s ≤ 256 ∧ InRange s (larg0 s) (8 * larg1 s) ∧ InRange s (larg2 s) 10240 ∧ larg0 s % 4 = 0 ∧
        larg2 s % 4 = 0 ∧ Apart (larg0 s) (8 * larg1 s) (larg2 s) 10240 ∧ tableOne.length = larg1 s ∧
        (tableOne.map Prod.fst).Nodup ∧ HoldsTable s (larg0 s) tableOne) ∧
    (let s := held (.tbuild false) 65520 2 0 0 (at' 65520 (tableOf (tableOne ++ tableOne)));
      larg1 s = (tableOne ++ tableOne).length ∧ InRange s (larg0 s) (8 * larg1 s) ∧ larg0 s % 4 = 0 ∧
        ¬ ((tableOne ++ tableOne).map Prod.fst).Nodup ∧ HoldsTable s (larg0 s) (tableOne ++ tableOne)) := by
  refine ⟨by decide, by decide, by decide, by decide, by decide, by decide,
    ⟨by decide, by decide, by decide, by decide, by decide, by decide, by decide, by decide, by decide,
      holdsTable_one _ _ rfl⟩, by decide, by decide, by decide, by decide, ?_⟩
  have h : ∀ k, (h : k < 2) →
      ((held (.tbuild false) 65520 2 0 0 (at' 65520 (tableOf (tableOne ++ tableOne)))).lmem.get? (65520 + 8 * k) = some 5) ∧
      (held (.tbuild false) 65520 2 0 0 (at' 65520 (tableOf (tableOne ++ tableOne)))).holds (65520 + 8 * k + 4)
        (leBytes 4 3) := by decide +kernel
  have e : ∀ k, (h : k < (tableOne ++ tableOne).length) → (tableOne ++ tableOne)[k] = (5, 3) := by decide
  intro k hk
  rw [e k hk]
  exact ⟨(h k hk).1, by decide, (h k hk).2⟩

theorem isTable_one : IsTable tableOne := by decide
theorem isTable_three : IsTable tableThree := by decide

theorem witness_BuildFollowsTieBreak :
    IsTable tableOne ∧ tableOne.length = 1 ∧ IsTable tableThree ∧ 2 ≤ tableThree.length ∧
    IsTable ((List.range 256).map fun k => (BitVec.ofNat 8 k, 1)) := by decide +kernel

theorem witness_CodesAreLeafPaths :
    IsTable tableOne ∧ Path (buildTree tableOne).nodes (buildTree tableOne).root [false] 0 ∧
    (buildTree tableOne).nodes[0]? = some (.leaf 5 3) ∧ 0 < tableOne.length ∧ (6 : Byte) ∉ tableOne.map Prod.fst :=
  ⟨isTable_one, Path.left 1 3 0 0 none [] (by decide) (Path.here 0), by decide, by decide, by decide⟩

theorem witness_TreeProperties :
    IsTable tableThree ∧ 2 ≤ tableThree.length ∧
    Node.internal 4 (some 2) (some 3) ∈ (buildTree tableThree).nodes ∧ (0x41 : Byte) ≠ 0x42 ∧
    codeAt (buildTree tableThree) 0x41 ≠ [] := by decide +kernel

theorem witness_SingleSymbol :
    let s : State := { held .hdec 65528 1 65529 7 (at' 65528 [0x80]) with huffman := some (buildTree [(5, 3)]) }
    s.huffman = some (buildTree [(5, 3)]) ∧ InRange s (larg0 s) ((larg1 s + 7) / 8) ∧ InRange s (larg2 s) (larg3 s) ∧
    Apart (larg0 s) ((larg1 s + 7) / 8) (larg2 s) (larg3 s) ∧ 1 ≤ larg1 s ∧ s.lmem.get? (larg0 s) = some 0x80 ∧
    (0x80 : Byte).getLsbD 7 = true := by
  exact ⟨rfl, by decide, by decide, by decide, by decide, by decide, by decide⟩

theorem witness_HencResult :
    (let s := held .henc 65533 4 0 4 [];
      ¬ (InRange s (larg0 s) (larg1 s) ∧ InRange s (larg2 s) (larg3 s))) ∧
    (let s := held .henc 0 4 3 4 [];
      (InRange s (larg0 s) (larg1 s) ∧ InRange s (larg2 s) (larg3 s)) ∧
        ¬ Apart (larg0 s) (larg1 s) (larg2 s) (larg3 s)) ∧
    (let s := held .henc 0 4 4 65532 [];
      (InRange s (larg0 s) (larg1 s) ∧ InRange s (larg2 s) (larg3 s)) ∧ Apart (larg0 s) (larg1 s) (larg2 s) (larg3 s) ∧
        s.huffman = none) ∧
    (let s := hencNoCode;
      let h := buildTree tableOne;
      (InRange s (larg0 s) (larg1 s) ∧ InRange s (larg2 s) (larg3 s)) ∧ Apart (larg0 s) (larg1 s) (larg2 s) (larg3 s) ∧
        s.huffman = some h ∧ [(5 : Byte), 6].length = larg1 s ∧
        s.holds (larg0 s) ([(5 : Byte), 6].take (encodeBytes h [5, 6]).2) ∧ (encodeBytes h [5, 6]).1 = none) ∧
    (let s := hencShort;
      let h := buildTree tableOne;
      let bs := List.replicate 9 (5 : Byte);
      Apart (larg0 s) (larg1 s) (larg2 s) (larg3 s) ∧ s.huffman = some h ∧ bs.length = larg1 s ∧
        s.holds (larg0 s) (bs.take (encodeBytes h bs).2) ∧
        (encodeBytes h bs).1 = some (List.replicate 9 false) ∧ larg3 s < ((List.replicate 9 false).length + 7) / 8) ∧
    (let s : State := { held .henc 0x400 8 65535 1 (at' 0x400 (List.replicate 8 5)) with huffman := some (buildTree tableOne) };
      let h := buildTree tableOne;
      let bs := List.replicate 8 (5 : Byte);
      (InRange s (larg0 s) (larg1 s) ∧ InRange s (larg2 s) (larg3 s)) ∧ Apart (larg0 s) (larg1 s) (larg2 s) (larg3 s) ∧
        s.huffman = some h ∧ bs.length = larg1 s ∧ s.holds (larg0 s) (bs.take (encodeBytes h bs).2) ∧
        (encodeBytes h bs).1 = some (List.replicate 8 false) ∧ ((List.replicate 8 false).length + 7) / 8 = larg3 s) := by
  decide +kernel

theorem witness_HdecResult :
    (let s := held .hdec 65535 9 0 4 [];
      ¬ (InRange s (larg0 s) ((larg1 s + 7) / 8) ∧ InRange s (larg2 s) (larg3 s))) ∧
    (let s := held .hdec 0 25 3 4 [];
      (InRange s (larg0 s) ((larg1 s + 7) / 8) ∧ InRange s (larg2 s) (larg3 s)) ∧
        ¬ Apart (larg0 s) ((larg1 s + 7) / 8) (larg2 s) (larg3 s)) ∧
    (let s := held .hdec 65535 8 0 65535 [];
      (InRange s (larg0 s) ((larg1 s + 7) / 8) ∧ InRange s (larg2 s) (larg3 s)) ∧
        Apart (larg0 s) ((larg1 s + 7) / 8) (larg2 s) (larg3 s) ∧ s.huffman = none) ∧
    (let s := hdecCorrupt;
      let d := decodeWalk (buildTree tableOne) (payloadBits [0x40] 2) (buildTree tableOne).root (larg3 s);
      (InRange s (larg0 s) ((larg1 s + 7) / 8) ∧ InRange s (larg2 s) (larg3 s)) ∧
        Apart (larg0 s) ((larg1 s + 7) / 8) (larg2 s) (larg3 s) ∧ s.huffman = some (buildTree tableOne) ∧
        [(0x40 : Byte)].length = (larg1 s + 7) / 8 ∧ s.holds (larg0 s) ([(0x40 : Byte)].take ((d.2 + 7) / 8)) ∧
        d.1 = .raised 0x0E) ∧
    (decodeWalk (buildTree tableOne) (payloadBits [0x00] 2) (buildTree tableOne).root (larg3 hdecShort)).1 = .raised 0x09 ∧
    (decodeWalk (buildTree tableThree) (payloadBits [0x58] 4) (buildTree tableThree).root (larg3 hdecTruncated)).1
      = .raised 0x0F ∧
    (let s : State := { held .hdec 0x400 5 65533 3 (at' 0x400 [0x58]) with huffman := some (buildTree tableThree) };
      let d := decodeWalk (buildTree tableThree) (payloadBits [0x58] 5) (buildTree tableThree).root (larg3 s);
      (InRange s (larg0 s) ((larg1 s + 7) / 8) ∧ InRange s (larg2 s) (larg3 s)) ∧
        Apart (larg0 s) ((larg1 s + 7) / 8) (larg2 s) (larg3 s) ∧ s.huffman = some (buildTree tableThree) ∧
        s.holds (larg0 s) ([(0x58 : Byte)].take ((d.2 + 7) / 8)) ∧ d.1 = .symbols [0x43, 0x41, 0x42]) := by
  decide +kernel

theorem witness_FullTreeIsNeverCorrupt :
    ∃ t, exec .hdec hdecTruncated = .next t ∧ IsTable tableThree ∧ 2 ≤ tableThree.length ∧
      hdecTruncated.huffman = some (buildTree tableThree) := next_such (by decide +kernel)

/-- HENC of the stream 43 41 42. -/
def hencThree : State :=
  { held .henc 0x400 3 65528 1 (at' 0x400 [0x43, 0x41, 0x42]) with huffman := some (buildTree tableThree) }

theorem witness_HuffmanRoundTrip :
    hencThree.platform.legal ∧ IsTable tableThree ∧ hencThree.huffman = some (buildTree tableThree) ∧
    [(0x43 : Byte), 0x41, 0x42].length = larg1 hencThree ∧ hencThree.holds (larg0 hencThree) [0x43, 0x41, 0x42] ∧
    (∃ t, exec .henc hencThree = .next t ∧ t.status.errCode = 0 ∧
      Apart (larg2 hencThree) ((t.res1.toNat + 7) / 8) (65533 : Word).toNat (3 : Word).toNat) ∧
    InRange hencThree (65533 : Word).toNat (3 : Word).toNat ∧ 3 ≤ (3 : Word).toNat :=
  ⟨by decide, by decide, rfl, by decide, holds_of_lmem rfl, next_such (by decide +kernel), by decide, by decide⟩

theorem witness_ByteStreamRoundTrip :
    let s : State := { State.reset with lmem := at' 0x400 [0x43, 0x41, 0x42] }
    s.platform.legal ∧ (3 : Word).toNat = [(0x43 : Byte), 0x41, 0x42].length ∧
    s.holds (0x400 : Word).toNat [0x43, 0x41, 0x42] ∧ InRange s (0x400 : Word).toNat (3 : Word).toNat ∧
    InRange s (63488 : Word).toNat 2048 ∧ (63488 : Word).toNat % 4 = 0 ∧
    InRange s (0x403 : Word).toNat (1 : Word).toNat ∧ InRange s (65533 : Word).toNat (3 : Word).toNat ∧
    Apart (0x400 : Word).toNat (3 : Word).toNat (63488 : Word).toNat 2048 ∧
    Apart (0x400 : Word).toNat (3 : Word).toNat (0x403 : Word).toNat (1 : Word).toNat ∧
    Apart (0x403 : Word).toNat (1 : Word).toNat (65533 : Word).toNat (3 : Word).toNat ∧
    ([(0x43 : Byte), 0x41, 0x42].map fun b =>
      (codeAt (buildTree (histogramOf [0x43, 0x41, 0x42])) b.toNat).length).sum ≤ 8 * (1 : Word).toNat := by
  exact ⟨by decide, by decide, holds_of_lmem rfl, by decide, by decide, by decide, by decide, by decide, by decide,
    by decide, by decide, by decide +kernel⟩

theorem witness_SubsResult :
    (let s := held (.subs .m420) 0 16 8 0 [];
      ¬ (0 < larg1 s ∧ 0 < larg2 s ∧ larg1 s % (8 * (factors .m420).1) = 0 ∧ larg2 s % (8 * (factors .m420).2) = 0)) ∧
    (let s := held (.subs .m444) 65473 8 8 0 [];
      (0 < larg1 s ∧ 0 < larg2 s ∧ larg1 s % 8 = 0 ∧ larg2 s % 8 = 0) ∧ ¬ InRange s (larg0 s) (larg1 s * larg2 s)) ∧
    (let s := held (.subs .m422) 0 16 8 127 [];
      (0 < larg1 s ∧ 0 < larg2 s ∧ larg1 s % (8 * (factors .m422).1) = 0 ∧ larg2 s % 8 = 0) ∧
        (InRange s (larg0 s) (larg1 s * larg2 s) ∧ InRange s (larg3 s) (larg1 s / 2 * larg2 s)) ∧
        ¬ Apart (larg0 s) (larg1 s * larg2 s) (larg3 s) (larg1 s / 2 * larg2 s)) ∧
    (let s := held (.subs .m444) 65408 8 8 65472 (at' 65408 (List.replicate 64 255));
      (0 < larg1 s ∧ 0 < larg2 s ∧ larg1 s % 8 = 0 ∧ larg2 s % 8 = 0) ∧
        (InRange s (larg0 s) (larg1 s * larg2 s) ∧ InRange s (larg3 s) (larg1 s * larg2 s)) ∧
        Apart (larg0 s) (larg1 s * larg2 s) (larg3 s) (larg1 s * larg2 s) ∧
        (List.replicate 64 (255 : Byte)).length = larg1 s * larg2 s ∧
        s.holds (larg0 s) (List.replicate 64 (255 : Byte))) := by
  exact ⟨by decide, by decide, by decide, by decide, by decide, by decide, by decide, holds_of_lmem rfl⟩

theorem witness_UpsResult :
    (let s := held (.ups .m420) 0 0 1 0 [];
      ¬ (0 < larg1 s ∧ 0 < larg2 s)) ∧
    (let s := held (.ups .m411) 0 1 1 65533 [];
      (0 < larg1 s ∧ 0 < larg2 s) ∧ ¬ InRange s (larg3 s) (larg1 s * (factors .m411).1 * (larg2 s * (factors .m411).2))) ∧
    (let s := held (.ups .m411) 3 1 1 0 [];
      (0 < larg1 s ∧ 0 < larg2 s) ∧ (InRange s (larg0 s) (larg1 s * larg2 s) ∧ InRange s (larg3 s) 4) ∧
        ¬ Apart (larg0 s) (larg1 s * larg2 s) (larg3 s) 4) ∧
    (let s := held (.ups .m411) 65531 1 1 65532 (at' 65531 [200]);
      (0 < larg1 s ∧ 0 < larg2 s) ∧ (InRange s (larg0 s) (larg1 s * larg2 s) ∧
        InRange s (larg3 s) (larg1 s * (factors .m411).1 * (larg2 s * (factors .m411).2))) ∧
        Apart (larg0 s) (larg1 s * larg2 s) (larg3 s) 4 ∧ [(200 : Byte)].length = larg1 s * larg2 s ∧
        s.holds (larg0 s) [200]) := by decide

/-- SUBS of an 8x8 plane in mode 444, and UPS of an 8x8 plane in mode 420. -/
def subsPlane : State := held (.subs .m444) 0 8 8 64 (at' 0 (List.replicate 64 9))
def upsPlane : State := held (.ups .m420) 0 8 8 64 (at' 0 (List.replicate 64 9))

theorem witness_ChromaRoundTrip :
    (∃ t, exec (.subs .m444) subsPlane = .next t ∧ t.status.errCode = 0 ∧
      Apart (larg3 subsPlane) (t.res0.toNat * t.res1.toNat) (65472 : Word).toNat (larg1 subsPlane * larg2 subsPlane)) ∧
    InRange subsPlane (65472 : Word).toNat (larg1 subsPlane * larg2 subsPlane) ∧
    upsPlane.platform.legal ∧ (List.replicate 64 (9 : Byte)).length = larg1 upsPlane * larg2 upsPlane ∧
    upsPlane.holds (larg0 upsPlane) (List.replicate 64 9) ∧ larg1 upsPlane % 8 = 0 ∧ larg2 upsPlane % 8 = 0 ∧
    (∃ t, exec (.ups .m420) upsPlane = .next t ∧ t.status.errCode = 0 ∧
      Apart (larg3 upsPlane) (t.res0.toNat * t.res1.toNat) (65472 : Word).toNat (larg1 upsPlane * larg2 upsPlane)) ∧
    InRange upsPlane (65472 : Word).toNat (larg1 upsPlane * larg2 upsPlane) ∧ Mode.m411 ≠ .m444 :=
  ⟨next_such (by decide +kernel), by decide, by decide, by decide, holds_of_lmem rfl, by decide, by decide,
    next_such (by decide +kernel), by decide, by decide⟩

/-! #### Arithmetic -/

/-- The largest finite double, and its sum with itself, which passes the finite range. -/
theorem witness_OperationsRoundToNearestEven :
    f64Finite 0x7FEFFFFFFFFFFFFF = true ∧ f64Finite 0x0000000000000001 = true ∧ f64Units 0x0000000000000001 ≠ 0 ∧
    (f64Units 0x0000000000000001 + f64Units 0x0000000000000001).natAbs < 1 * ((2 ^ 54 - 1) * 2 ^ 2044) ∧
    ¬ (f64Units 0x7FEFFFFFFFFFFFFF + f64Units 0x7FEFFFFFFFFFFFFF).natAbs < 1 * ((2 ^ 54 - 1) * 2 ^ 2044) ∧
    f64Units 0 + f64Units 0x8000000000000000 = 0 ∧ f64Finite 0x8000000000000000 = true ∧
    f64Units 0x8000000000000000 = 0 ∧ (f64IsNan 0x7FF8000000000000 = true ∨ f64IsNan 0 = true) ∧
    f64IsInf 0xFFF0000000000000 = true ∧ true = true ∧ true ≠ false := by
  decide +kernel

-- R163: +0.0 plus -0.0 is +0.0.
theorem test_zero_sum : f64Add 0x0000000000000000 0x8000000000000000 = 0x0000000000000000 := by decide +kernel

theorem witness_IntegerConversionIsExact :
    (9007199254740992 : Int).natAbs ≤ 2 ^ 53 ∧ (-9007199254740992 : Int).natAbs ≤ 2 ^ 53 := by decide

-- R8: rhaz(2.5) = 3 and rhaz(-2.5) = -3.
theorem witness_RhazRoundsHalfAway :
    f64Finite 0x4004000000000000 = true ∧ rhaz 0x4004000000000000 = 3 ∧ rhaz 0xC004000000000000 = -3 ∧
    (3 * 2 ^ 1074 - f64Units 0x4004000000000000).natAbs = (2 * 2 ^ 1074 - f64Units 0x4004000000000000).natAbs := by
  decide +kernel

theorem witness_QuantTableCases : 1 ≤ 1 ∧ 1 ≤ 100 ∧ 100 ≤ 100 ∧ (8 : Nat) ∈ quantTable 75 := by decide +kernel

end Sys2Proof.Tests
end

section
/-! Proofs for 00_scope.md R8: what RN64 does to an exact quotient, what each binary64 operation answers in each of its
cases, and from these the statements on arithmetic. -/

namespace Sys2Proof.Proofs

open Sys2Proof.Machine Sys2Proof.Statements

/-! ### Signed magnitudes -/

/-- v, or -v where the sign is set. -/
def withSign (b : Bool) (v : Int) : Int := if b then -v else v

@[simp] theorem withSign_false (v : Int) : withSign false v = v := rfl

@[simp] theorem withSign_true (v : Int) : withSign true v = -v := rfl

@[simp] theorem withSign_zero (b : Bool) : withSign b 0 = 0 := by cases b <;> rfl

@[simp] theorem withSign_withSign (b : Bool) (v : Int) : withSign b (withSign b v) = v := by cases b <;> simp

@[simp] theorem natAbs_withSign (b : Bool) (v : Int) : (withSign b v).natAbs = v.natAbs := by cases b <;> simp

theorem mul_withSign (b : Bool) (c v : Int) : c * withSign b v = withSign b (c * v) := by cases b <;> simp

theorem withSign_mul (b : Bool) (v c : Int) : withSign b v * c = withSign b (v * c) := by cases b <;> simp

theorem withSign_mul_withSign (b c : Bool) (v w : Int) : withSign b v * withSign c w = withSign (b != c) (v * w) := by
  cases b <;> cases c <;> simp

theorem sign_withSign_mul {c : Bool} {w : Int} (hw : 0 < w) (b : Bool) (v : Int) :
    (withSign c w).sign * withSign b v = withSign (b != c) v := by
  cases b <;> cases c <;> simp [Int.sign_eq_one_of_pos hw]

theorem decide_withSign_neg (b : Bool) {v : Int} (hv : 0 < v) : decide (withSign b v < 0) = b := by
  cases b
  · exact decide_eq_false hv.not_gt
  · exact decide_eq_true (neg_neg_of_pos hv)

/-- The distance to a signed value is the distance to its magnitude, seen from the other side of zero where need be. -/
theorem natAbs_sub_withSign (b : Bool) (v w : Int) : (v - withSign b w).natAbs = (withSign b v - w).natAbs := by
  cases b <;> simp only [withSign_false, withSign_true]
  omega

theorem eq_withSign_natAbs (n : Int) : n = withSign (decide (n < 0)) n.natAbs := by
  by_cases h : n < 0 <;> simp only [h, decide_true, decide_false, withSign_true, withSign_false] <;> omega

/-! ### The sign and the magnitude of a pattern -/

/-- The sign is the pattern's upper half. -/
theorem f64Neg_eq_decide (x : Double) : f64Neg x = decide (2 ^ 63 ≤ x.toNat) := by
  rw [f64Neg, ← BitVec.msb_eq_getLsbD_last (x := x), BitVec.msb_eq_decide]

theorem f64Units_eq_withSign (x : Double) : f64Units x = withSign (f64Neg x) (f64Mag x) := rfl

theorem natAbs_f64Units (x : Double) : (f64Units x).natAbs = f64Mag x := by simp [f64Units_eq_withSign]

theorem infinity_eq_make (b : Bool) : infinity b = f64Make b f64InfBits := by cases b <;> rfl

theorem signedZero_eq_make (b : Bool) : signedZero b = f64Make b 0 := by cases b <;> rfl

theorem f64IsNan_nan : f64IsNan f64Nan = true := by decide

@[simp] theorem f64Finite_infinity (b : Bool) : f64Finite (infinity b) = false := by cases b <;> decide

@[simp] theorem f64IsNan_infinity (b : Bool) : f64IsNan (infinity b) = false := by cases b <;> decide

@[simp] theorem f64IsInf_infinity (b : Bool) : f64IsInf (infinity b) = true := by cases b <;> decide

@[simp] theorem f64Neg_infinity (b : Bool) : f64Neg (infinity b) = b := by cases b <;> decide

/-- The infinities are the two patterns `infinity` gives. -/
theorem eq_infinity_of_isInf {x : Double} (h : f64IsInf x = true) : x = infinity (f64Neg x) := by
  simp only [f64IsInf, f64Exp, f64Frac, Bool.and_eq_true, beq_iff_eq] at h
  obtain ⟨hexp, hfrac⟩ := h
  have hlt := x.isLt
  apply BitVec.eq_of_toNat_eq
  rw [f64Neg_eq_decide, infinity_eq_make, f64Make_toNat _ (by decide)]
  simp only [decide_eq_true_eq, f64InfBits]
  split <;> omega

/-- A finite value is a multiple of 2^k units or smaller in magnitude than 2^(52+k) units. -/
theorem f64Mag_dvd_or_lt (x : Double) (k : Nat) : 2 ^ k ∣ f64Mag x ∨ f64Mag x < 2 ^ 52 * 2 ^ k := by
  have hfrac : f64Frac x < 2 ^ 52 := Nat.mod_lt _ (by decide)
  have hk := Nat.two_pow_pos k
  unfold f64Mag
  split
  · right; nlinarith
  · by_cases h : k ≤ f64Exp x - 1
    · exact .inl (Nat.dvd_mul_left_of_dvd (Nat.pow_dvd_pow 2 h) _)
    · right
      have hscale : 2 * 2 ^ (f64Exp x - 1) ≤ 2 ^ k := by
        rw [← Nat.pow_succ']
        exact Nat.pow_le_pow_right (by decide) (by omega)
      nlinarith

/-! ### The significand: `divTiesEven` -/

/-- `divTiesEven` passes an odd m from half a step above m on. -/
theorem odd_lt_divTiesEven {n d m : Nat} (hd : 0 < d) (hm : m % 2 = 1) :
    m < divTiesEven n d ↔ (2 * m + 1) * d ≤ 2 * n := by
  have hdiv := Nat.div_add_mod n d
  have hmod := Nat.mod_lt n hd
  simp only [divTiesEven]
  rcases Nat.lt_trichotomy m (n / d) with h | h | h
  · have : (m + 1) * d ≤ n / d * d := Nat.mul_le_mul_right d h
    have hr : (2 * m + 1) * d ≤ 2 * n := by linarith [Nat.div_mul_le_self n d]
    simp only [hr, iff_true]
    split <;> omega
  · subst h
    have hr : (2 * (n / d) + 1) * d ≤ 2 * n ↔ d ≤ 2 * (n % d) := by
      constructor <;> intro <;> nlinarith
    rw [hr]
    split <;> omega
  · have : (n / d + 1) * d ≤ m * d := Nat.mul_le_mul_right d h
    have hr : ¬ (2 * m + 1) * d ≤ 2 * n := by nlinarith
    simp only [hr, iff_false]
    split <;> omega

/-- The multiples of u below q * u lie a whole u below it. -/
theorem mul_le_mul_sub {c q : Int} (u : Nat) (h : c < q) : c * u ≤ q * u - u := by nlinarith

/-- No multiple of d is nearer to n than `divTiesEven` times d, and on a tie it is the even one. -/
theorem divTiesEven_nearest {n d : Nat} (hd : 0 < d) (c : Int) :
    ((divTiesEven n d : Int) * d - n).natAbs ≤ (c * d - n).natAbs ∧
      (((divTiesEven n d : Int) * d - n).natAbs = (c * d - n).natAbs → c ≠ divTiesEven n d →
        divTiesEven n d % 2 = 0) := by
  have hdiv : (n : Int) = (n / d : Nat) * d + (n % d : Nat) := by
    exact_mod_cast (Nat.div_add_mod' n d).symm
  have hmod := Nat.mod_lt n hd
  have hup : ((n / d : Nat) + 1 : Int) * d = (n / d : Nat) * d + d := by ring
  simp only [divTiesEven]
  generalize n / d = q at hdiv hup ⊢
  generalize n % d = r at hdiv hmod ⊢
  have hc : c * d ≤ q * d - d ∨ c = q ∨ c = q + 1 ∨ q * d + 2 * d ≤ c * d := by
    rcases Int.lt_trichotomy c q with h | h | h
    · exact .inl (mul_le_mul_sub d h)
    · exact .inr (.inl h)
    · rcases Int.lt_or_eq_of_le (Int.add_one_le_of_lt h) with h | h
      · have := mul_le_mul_sub d h
        omega
      · exact .inr (.inr (.inl h.symm))
  split
  · push_cast
    rcases hc with h | rfl | rfl | h <;> omega
  · rcases hc with h | rfl | rfl | h <;> omega

/-! ### The scale and the range of RN64 -/

/-- At its scale n/d is below 2^53. -/
theorem lt_two_pow_roundScale {n d : Nat} (hd : 0 < d) : n < 2 ^ 53 * (d * 2 ^ roundScale n d) := by
  have h : n / d < 2 ^ (roundScale n d + 53) :=
    Nat.lt_of_lt_of_le Nat.lt_log2_self (Nat.pow_le_pow_right (by decide) (by unfold roundScale; omega))
  rw [Nat.div_lt_iff_lt_mul hd, Nat.pow_add] at h
  nlinarith

/-- At a scale above 0 n/d is 2^52 or more. -/
theorem two_pow_roundScale_le {n d : Nat} (hd : 0 < d) (hk : 0 < roundScale n d) :
    2 ^ 52 * (d * 2 ^ roundScale n d) ≤ n := by
  have hlog : 52 < (n / d).log2 := by unfold roundScale at hk; omega
  have h : 2 ^ (roundScale n d + 52) ≤ n / d := by
    rw [roundScale, Nat.sub_add_cancel hlog.le]
    exact Nat.log2_self_le (by intro h; simp [h] at hlog)
  rw [Nat.le_div_iff_mul_le hd, Nat.pow_add] at h
  nlinarith

theorem roundMag_eq_min (n d : Nat) :
    roundMag n d = min (roundScale n d * 2 ^ 52 + divTiesEven n (d * 2 ^ roundScale n d)) f64InfBits := rfl

theorem roundMag_zero (d : Nat) : roundMag 0 d = 0 := by simp [roundMag, divTiesEven]

/-- The pattern RN64 makes before it is cut off at the infinity stays below the exponent field e + 3 exactly below half a
step above the largest value of exponent field e + 2. -/
theorem round_pattern_lt_iff {n d : Nat} (hd : 0 < d) (e : Nat) :
    roundScale n d * 2 ^ 52 + divTiesEven n (d * 2 ^ roundScale n d) < (e + 3) * 2 ^ 52 ↔
      n < d * ((2 ^ 54 - 1) * 2 ^ e) := by
  have hupper := lt_two_pow_roundScale (n := n) hd
  have hlower := two_pow_roundScale_le (n := n) hd
  obtain ⟨hq, hq'⟩ := round_significand n d
  have hcarry := odd_lt_divTiesEven (n := n) (m := 2 ^ 53 - 1)
    (Nat.mul_pos hd (Nat.two_pow_pos (roundScale n d))) (by decide)
  generalize roundScale n d = k at *
  rw [Nat.mul_left_comm]
  rcases Nat.lt_trichotomy k (e + 1) with h | h | h
  · have : d * 2 ^ k ≤ d * 2 ^ e := Nat.mul_le_mul_left d (Nat.pow_le_pow_right (by decide) (by omega))
    omega
  · have : d * 2 ^ k = 2 * (d * 2 ^ e) := by rw [h, Nat.pow_succ]; ring
    omega
  · have : d * 2 ^ (e + 2) ≤ d * 2 ^ k := Nat.mul_le_mul_left d (Nat.pow_le_pow_right (by decide) h)
    have : d * 2 ^ (e + 2) = 4 * (d * 2 ^ e) := by rw [Nat.pow_add]; ring
    omega

/-- RN64 stays below the infinity exactly below half a step above the largest finite value. -/
theorem roundMag_lt_inf_iff {n d : Nat} (hd : 0 < d) :
    roundMag n d < f64InfBits ↔ n < d * ((2 ^ 54 - 1) * 2 ^ 2044) := by
  rw [← round_pattern_lt_iff hd, roundMag_eq_min, f64InfBits]
  omega

/-- A rounded result that is not below the infinity's pattern is the infinity. -/
theorem f64Make_round_of_not_lt {n d : Nat} (b : Bool) (h : ¬ roundMag n d < f64InfBits) :
    f64Make b (roundMag n d) = infinity b := by
  rw [infinity_eq_make, Nat.le_antisymm (roundMag_le n d) (Nat.not_lt.1 h)]

/-- A rounded result below the infinity's pattern is finite. -/
theorem f64Finite_round {n d : Nat} (b : Bool) (h : roundMag n d < f64InfBits) :
    f64Finite (f64Make b (roundMag n d)) = true := by
  rw [f64InfBits] at h
  rw [f64Finite, f64Exp_make b (by omega)]
  simp only [bne_iff_ne, ne_eq]
  omega

/-- The last bit of a finite rounded result is that of its significand. -/
theorem f64Frac_round_parity {n d : Nat} (b : Bool) (h : roundMag n d < f64InfBits) :
    f64Frac (f64Make b (roundMag n d)) % 2 = divTiesEven n (d * 2 ^ roundScale n d) % 2 := by
  have hmin := roundMag_eq_min n d
  rw [f64InfBits] at h hmin
  rw [f64Frac_make b (by omega)]
  omega

/-- The magnitude RN64 gives n/d where it is finite. -/
def roundedMag (n d : Nat) : Nat := divTiesEven n (d * 2 ^ roundScale n d) * 2 ^ roundScale n d

/-- No multiple of n/d's scale and no integer below 2^52 at that scale is nearer to n/d than the rounded magnitude, and on
a tie with one its significand is even. -/
theorem roundedMag_nearest {n d : Nat} (hd : 0 < d) {v : Int}
    (hv : 2 ^ roundScale n d ∣ v.natAbs ∨ v.natAbs < 2 ^ 52 * 2 ^ roundScale n d) :
    (d * (roundedMag n d : Int) - n).natAbs ≤ (d * v - n).natAbs ∧
      ((d * (roundedMag n d : Int) - n).natAbs = (d * v - n).natAbs → v ≠ roundedMag n d →
        divTiesEven n (d * 2 ^ roundScale n d) % 2 = 0) := by
  have hlower := two_pow_roundScale_le (n := n) hd
  have hD : 0 < d * 2 ^ roundScale n d := Nat.mul_pos hd (Nat.two_pow_pos _)
  have hnear := divTiesEven_nearest (n := n) hD
  have hz : (d * (roundedMag n d : Int)) =
      (divTiesEven n (d * 2 ^ roundScale n d) : Int) * (d * 2 ^ roundScale n d : Nat) := by
    unfold roundedMag; push_cast; ring
  rw [hz]
  by_cases hdvd : 2 ^ roundScale n d ∣ v.natAbs
  · obtain ⟨c, rfl⟩ := Int.natCast_dvd.2 hdvd
    have hc : d * (((2 ^ roundScale n d : Nat) : Int) * c) = c * (d * 2 ^ roundScale n d : Nat) := by push_cast; ring
    rw [hc]
    refine ⟨(hnear c).1, fun heq hne => (hnear c).2 heq ?_⟩
    rintro rfl
    exact hne (by unfold roundedMag; push_cast; ring)
  · have hlt : v < 2 ^ 52 * 2 ^ roundScale n d :=
      lt_of_le_of_lt Int.le_natAbs (by exact_mod_cast hv.resolve_left hdvd)
    have hk : 0 < roundScale n d := by
      by_contra h
      exact hdvd (by simp [Nat.eq_zero_of_not_pos h])
    have hfar : d * v < 2 ^ 52 * (d * 2 ^ roundScale n d : Nat) := by
      push_cast
      nlinarith
    have := (hnear (2 ^ 52)).1
    have := hlower hk
    omega

/-! ### One rounding -/

/-- `Rounds`, closed to unfolding: where a lemma that concludes it is applied, Lean does not evaluate its bound, a number
of 2098 bits. -/
@[irreducible] def Rounded (n : Int) (d : Nat) (z : Double) : Prop := Rounds n d z

theorem rounds_eq_rounded : Rounds = Rounded := by
  delta Rounded
  rfl

/-- A pattern made by RN64 of m/d and a sign is the quotient of that sign, rounded. -/
theorem rounded_make {n : Int} {b : Bool} {m d : Nat} (hd : 0 < d) (hn : n = withSign b m) :
    Rounded n d (f64Make b (roundMag m d)) := by
  have habs : n.natAbs = m := by rw [hn, natAbs_withSign, Int.natAbs_natCast]
  rw [← rounds_eq_rounded, Rounds, habs]
  simp only [← roundMag_lt_inf_iff hd]
  by_cases h : roundMag m d < f64InfBits
  · have hf := f64Finite_round b h
    rw [if_pos h, f64Units_eq_withSign, f64Neg_round, f64Mag_round b _ _ hf, f64Frac_round_parity b h]
    refine ⟨hf, fun w _ => ?_⟩
    have hw : 2 ^ roundScale m d ∣ (withSign b (f64Units w)).natAbs ∨
        (withSign b (f64Units w)).natAbs < 2 ^ 52 * 2 ^ roundScale m d := by
      rw [natAbs_withSign, natAbs_f64Units]
      exact f64Mag_dvd_or_lt w _
    have hnear := roundedMag_nearest hd hw
    simp only [hn, natAbs_sub_withSign, mul_withSign, withSign_withSign] at hnear ⊢
    refine ⟨hnear.1, fun heq hne => hnear.2 heq fun heq' => hne ?_⟩
    rw [← withSign_withSign b (f64Units w), heq', roundedMag]
  · have hm : m ≠ 0 := by
      rintro rfl
      exact h (by rw [roundMag_zero]; decide)
    rw [if_neg h, f64Make_round_of_not_lt b h, f64IsInf_infinity, f64Neg_infinity, hn]
    exact ⟨rfl, (decide_withSign_neg b (by omega)).symm⟩

/-! ### The operations -/

/-- The sum of finite values, rounded once. -/
theorem f64Add_finite {x y : Double} (hx : f64Finite x = true) (hy : f64Finite y = true) :
    f64Add x y = f64Make (if f64Units x + f64Units y = 0 then f64Neg x && f64Neg y
      else decide (f64Units x + f64Units y < 0)) (roundMag (f64Units x + f64Units y).natAbs 1) := by
  obtain ⟨hxn, hxi⟩ := f64Finite_not_special hx
  obtain ⟨hyn, hyi⟩ := f64Finite_not_special hy
  by_cases h : f64Units x + f64Units y = 0 <;> simp [f64Add, hxn, hxi, hyn, hyi, h, roundMag_zero]

/-- The product of finite values, rounded once. -/
theorem f64Mul_finite {x y : Double} (hx : f64Finite x = true) (hy : f64Finite y = true) :
    f64Mul x y = f64Make (f64Neg x != f64Neg y) (roundMag (f64Mag x * f64Mag y) (2 ^ 1074)) := by
  obtain ⟨hxn, hxi⟩ := f64Finite_not_special hx
  obtain ⟨hyn, hyi⟩ := f64Finite_not_special hy
  simp only [f64Mul, hxn, hxi, hyn, hyi, Bool.false_eq_true, or_self, if_false]

/-- The quotient of finite values by one other than zero, rounded once. -/
theorem f64Div_finite {x y : Double} (hx : f64Finite x = true) (hy : f64Finite y = true) (h : f64Mag y ≠ 0) :
    f64Div x y = f64Make (f64Neg x != f64Neg y) (roundMag (f64Mag x * 2 ^ 1074) (f64Mag y)) := by
  obtain ⟨hxn, hxi⟩ := f64Finite_not_special hx
  obtain ⟨hyn, hyi⟩ := f64Finite_not_special hy
  simp only [f64Div, hxn, hxi, hyn, hyi, h, Bool.false_eq_true, or_self, if_false]

/-- A finite value divided by zero. -/
theorem f64Div_by_zero {x y : Double} (hx : f64Finite x = true) (hy : f64Finite y = true) (h : f64Mag y = 0) :
    f64Div x y = if f64Mag x = 0 then f64Nan else infinity (f64Neg x != f64Neg y) := by
  obtain ⟨hxn, hxi⟩ := f64Finite_not_special hx
  obtain ⟨hyn, hyi⟩ := f64Finite_not_special hy
  simp only [f64Div, hxn, hxi, hyn, hyi, h, Bool.false_eq_true, or_self, if_false, if_true, infinity_eq_make]

/-- Every operation on a NaN answers a NaN. -/
theorem operations_of_nan {x y : Double} (h : f64IsNan x = true ∨ f64IsNan y = true) :
    f64Add x y = f64Nan ∧ f64Mul x y = f64Nan ∧ f64Div x y = f64Nan := by
  simp [f64Add, f64Mul, f64Div, h]

/-- The sum, the product and the quotient of two infinities. -/
theorem operations_of_infinities (p q : Bool) :
    f64Add (infinity p) (infinity q) = (if p = q then infinity p else f64Nan) ∧
      f64Mul (infinity p) (infinity q) = infinity (p != q) ∧ f64Div (infinity p) (infinity q) = f64Nan := by
  simp [f64Add, f64Mul, f64Div, infinity_eq_make (p != q)]

theorem f64Add_infinity_finite (p : Bool) {y : Double} (hy : f64Finite y = true) :
    f64Add (infinity p) y = infinity p ∧ f64Add y (infinity p) = infinity p := by
  obtain ⟨hyn, hyi⟩ := f64Finite_not_special hy
  simp [f64Add, hyn, hyi]

theorem f64Mul_infinity_finite (p : Bool) {y : Double} (hy : f64Finite y = true) :
    f64Mul (infinity p) y = (if f64Mag y = 0 then f64Nan else infinity (p != f64Neg y)) ∧
      f64Mul y (infinity p) = (if f64Mag y = 0 then f64Nan else infinity (f64Neg y != p)) := by
  obtain ⟨hyn, hyi⟩ := f64Finite_not_special hy
  simp [f64Mul, hy, hyn, infinity_eq_make (_ != _)]

theorem f64Div_infinity_finite (p : Bool) {y : Double} (hy : f64Finite y = true) :
    f64Div (infinity p) y = infinity (p != f64Neg y) ∧ f64Div y (infinity p) = signedZero (f64Neg y != p) := by
  obtain ⟨hyn, hyi⟩ := f64Finite_not_special hy
  simp [f64Div, hyn, hyi, infinity_eq_make (_ != _), signedZero_eq_make]

/-! ### Each operation rounds once -/

theorem rounded_f64Add {x y : Double} (hx : f64Finite x = true) (hy : f64Finite y = true) :
    Rounded (f64Units x + f64Units y) 1 (f64Add x y) := by
  rw [f64Add_finite hx hy]
  refine rounded_make (by decide) ?_
  split
  next h => simp [h]
  next => exact eq_withSign_natAbs _

theorem rounded_f64Mul {x y : Double} (hx : f64Finite x = true) (hy : f64Finite y = true) :
    Rounded (f64Units x * f64Units y) (2 ^ 1074) (f64Mul x y) := by
  rw [f64Mul_finite hx hy]
  refine rounded_make (by positivity) ?_
  rw [f64Units_eq_withSign, f64Units_eq_withSign, withSign_mul_withSign, Nat.cast_mul]

theorem rounded_f64Div {x y : Double} (hx : f64Finite x = true) (hy : f64Finite y = true) (h : f64Mag y ≠ 0) :
    Rounded ((f64Units y).sign * f64Units x * 2 ^ 1074) (f64Units y).natAbs (f64Div x y) := by
  have hpos : 0 < f64Mag y := Nat.pos_of_ne_zero h
  rw [f64Div_finite hx hy h, natAbs_f64Units]
  refine rounded_make hpos ?_
  rw [f64Units_eq_withSign, f64Units_eq_withSign, sign_withSign_mul (Int.natCast_pos.2 hpos), withSign_mul,
    Nat.cast_mul, Nat.cast_pow, Nat.cast_ofNat]

theorem rounded_f64OfInt (n : Int) : Rounded (n * 2 ^ 1074) 1 (f64OfInt n) := by
  unfold f64OfInt
  refine rounded_make (by decide) ?_
  rw [Nat.cast_mul, Nat.cast_pow, Nat.cast_ofNat, ← withSign_mul, ← eq_withSign_natAbs]

theorem f64OfInt_zero : f64OfInt 0 = signedZero false := by
  rw [f64OfInt, Int.natAbs_zero, Nat.zero_mul, roundMag_zero, signedZero_eq_make]
  rfl

/-- Settles O57: each operation is `f64Make` of one rounding of the exact magnitude, or one of the special results. -/
theorem operationsRoundToNearestEven : Obligations.OperationsRoundToNearestEven := by
  unfold Obligations.OperationsRoundToNearestEven
  simp only [rounds_eq_rounded, ne_eq, f64Units_eq_zero_iff]
  refine ⟨fun x y hx hy => ⟨rounded_f64Add hx hy, rounded_f64Mul hx hy, rounded_f64Div hx hy, fun h => ?_, ?_,
      fun h => ?_, fun h hne => ?_, fun h h0 => ?_⟩,
    rounded_f64OfInt, f64OfInt_zero, fun x y h => ?_, fun p q => ?_, fun p y hy => ?_, fun x => eq_infinity_of_isInf⟩
  · rw [f64Add_finite hx hy, h, if_pos rfl, Int.natAbs_zero, roundMag_zero, signedZero_eq_make]
  · rw [f64Mul_finite hx hy, f64Neg_round]
  · rw [f64Div_finite hx hy h, f64Neg_round]
  · rw [f64Div_by_zero hx hy h, if_neg hne]
  · rw [f64Div_by_zero hx hy h, if_pos h0, f64IsNan_nan]
  · obtain ⟨hadd, hmul, hdiv⟩ := operations_of_nan h
    simp [hadd, hmul, hdiv, f64IsNan_nan]
  · obtain ⟨hadd, hmul, hdiv⟩ := operations_of_infinities p q
    rw [hadd, hmul, hdiv]
    exact ⟨rfl, f64IsNan_nan, fun h => if_pos h, fun h => by rw [if_neg h, f64IsNan_nan]⟩
  · obtain ⟨hadd, hadd'⟩ := f64Add_infinity_finite p hy
    obtain ⟨hmul, hmul'⟩ := f64Mul_infinity_finite p hy
    obtain ⟨hdiv, hdiv'⟩ := f64Div_infinity_finite p hy
    rw [hmul, hmul']
    exact ⟨hadd, hadd', hdiv, hdiv', fun h => ⟨if_neg h, if_neg h⟩,
      fun h => by rw [if_pos h, if_pos h]; exact ⟨f64IsNan_nan, f64IsNan_nan⟩⟩

/-! ### Conversion of an integer -/

/-- RN64 is exact where its scale divides the quotient. -/
theorem roundedMag_of_dvd {n : Nat} (h : 2 ^ roundScale n 1 ∣ n) : roundedMag n 1 = n := by
  unfold roundedMag
  generalize roundScale n 1 = k at *
  obtain ⟨m, rfl⟩ := h
  rw [Nat.one_mul, Nat.mul_comm (2 ^ k) m, divTiesEven_mul m (Nat.two_pow_pos k)]

/-- An integer of at most 2^53, in units of 2^-e, is a multiple of the scale it is rounded at. -/
theorem two_pow_roundScale_dvd {m : Nat} (hm : m ≤ 2 ^ 53) (e : Nat) :
    2 ^ roundScale (m * 2 ^ e) 1 ∣ m * 2 ^ e := by
  rcases Nat.eq_zero_or_pos m with rfl | hpos
  · simp
  have hne : m * 2 ^ e ≠ 0 := (Nat.mul_pos hpos (Nat.two_pow_pos e)).ne'
  rcases Nat.lt_or_eq_of_le hm with h | rfl
  · have hlog : (m * 2 ^ e).log2 < 53 + e := by
      rw [Nat.log2_lt hne, Nat.pow_add]
      exact Nat.mul_lt_mul_of_pos_right h (Nat.two_pow_pos e)
    rw [roundScale, Nat.div_one]
    exact Nat.dvd_mul_left_of_dvd (Nat.pow_dvd_pow 2 (by omega)) m
  · rw [← Nat.pow_add, roundScale, Nat.div_one, Nat.log2_two_pow]
    exact Nat.pow_dvd_pow 2 (by omega)

/-- Such an integer lies below the infinity's threshold. -/
theorem mul_two_pow_lt {m e f : Nat} (hm : m ≤ 2 ^ 53) (he : e ≤ f) : m * 2 ^ e < (2 ^ 54 - 1) * 2 ^ f :=
  calc m * 2 ^ e
    _ ≤ 2 ^ 53 * 2 ^ f := Nat.mul_le_mul hm (Nat.pow_le_pow_right (by decide) he)
    _ < (2 ^ 54 - 1) * 2 ^ f := Nat.mul_lt_mul_of_pos_right (by decide) (Nat.two_pow_pos f)

/-- Settles O58: the scale of rounding divides an integer of at most 2^53 in magnitude. -/
theorem integerConversionIsExact : Obligations.IntegerConversionIsExact := by
  unfold Obligations.IntegerConversionIsExact
  intro n hn
  have hlt : roundMag (n.natAbs * 2 ^ 1074) 1 < f64InfBits := by
    rw [roundMag_lt_inf_iff (by decide), Nat.one_mul]
    exact mul_two_pow_lt hn (by decide)
  have hf := f64Finite_round (decide (n < 0)) hlt
  have hmag := f64Mag_round _ _ _ hf
  rw [← roundedMag, roundedMag_of_dvd (two_pow_roundScale_dvd hn 1074)] at hmag
  refine ⟨hf, ?_⟩
  rw [f64Units_eq_withSign, f64OfInt, f64Neg_round, hmag, Nat.cast_mul, Nat.cast_pow, Nat.cast_ofNat, ← withSign_mul,
    ← eq_withSign_natAbs]

/-! ### Rounding to an integer -/

/-- `rhaz` is the sign and the magnitude rounded half up. -/
theorem rhaz_eq_withSign (x : Double) :
    rhaz x = withSign (f64Neg x) ((2 * f64Mag x + 2 ^ 1074) / 2 ^ 1075 : Nat) := by
  unfold rhaz withSign
  rfl

/-- A magnitude of m, counted in units of 2^-e and rounded half up, is a nearest integer, and on a tie the greatest. -/
theorem roundHalfUp_nearest {e f : Nat} (hf : f = e + 1) (m : Nat) (c : Int) :
    ((((2 * m + 2 ^ e) / 2 ^ f : Nat) : Int) * 2 ^ e - m).natAbs ≤ (c * 2 ^ e - m).natAbs ∧
      (((((2 * m + 2 ^ e) / 2 ^ f : Nat) : Int) * 2 ^ e - m).natAbs = (c * 2 ^ e - m).natAbs →
        c.natAbs ≤ (2 * m + 2 ^ e) / 2 ^ f) := by
  have hdiv := Nat.div_add_mod' (2 * m + 2 ^ e) (2 ^ f)
  have hmod := Nat.mod_lt (2 * m + 2 ^ e) (Nat.two_pow_pos f)
  have hpow : 2 ^ f = 2 * 2 ^ e := by rw [hf, Nat.pow_succ']
  have hcast : (2 : Int) ^ e = (2 ^ e : Nat) := by simp
  generalize (2 * m + 2 ^ e) / 2 ^ f = q at *
  generalize (2 * m + 2 ^ e) % 2 ^ f = r at *
  rw [hcast]
  rw [hpow] at hdiv hmod
  generalize 2 ^ e = u at *
  have hq : 2 * ((q : Int) * u) + r = 2 * m + u := by
    have : ((q * (2 * u) + r : Nat) : Int) = (2 * m + u : Nat) := by rw [hdiv]
    push_cast at this
    linarith
  have hc : c * u ≤ -(q * u) - u ∨ (c.natAbs ≤ q ∧ c * u ≤ q * u - u) ∨ c = q ∨ q * u + u ≤ c * u := by
    rcases Int.lt_trichotomy c q with h | h | h
    · by_cases hneg : c < -q
      · have := mul_le_mul_sub u hneg
        rw [Int.neg_mul] at this
        exact .inl this
      · exact .inr (.inl ⟨by omega, mul_le_mul_sub u h⟩)
    · exact .inr (.inr (.inl h))
    · have := mul_le_mul_sub u h
      omega
  rcases hc with h | h | rfl | h <;> omega

/-- Settles O59: half a unit is added to the magnitude before it is cut off. -/
theorem rhazRoundsHalfAway : Obligations.RhazRoundsHalfAway := by
  unfold Obligations.RhazRoundsHalfAway
  intro x _ n
  have hnear := roundHalfUp_nearest (e := 1074) (f := 1075) rfl (f64Mag x) (withSign (f64Neg x) n)
  rwa [rhaz_eq_withSign, f64Units_eq_withSign, withSign_mul, natAbs_sub_withSign, natAbs_sub_withSign,
    withSign_withSign, natAbs_withSign, Int.natAbs_natCast, ← withSign_mul, ← natAbs_withSign (f64Neg x) n]

end Sys2Proof.Proofs
end

section
/-! Proofs for 10_state.md: what an access of the register block answers, what one step can do and what a command that
completes can leave, each said once; and from these the statements on the registers, the tree and the invariant. -/

namespace Sys2Proof.Proofs

open Sys2Proof.Machine Sys2Proof.Statements

/-! ### Accesses of the register block (R31, R32) -/

/-- The register block comes before the window, and takes aligned 32-bit accesses alone. -/
theorem route_register {p : Platform} {off : Nat} (h : off < 256) (width : Nat) :
    p.route (p.regBase + off) width = if width = 4 ∧ off % 4 = 0 then some (.reg off) else none := by
  simp [Platform.route, h]

/-- An access that reaches a register is one of the block's aligned 32-bit accesses. -/
theorem eq_of_route_register {p : Platform} {addr width off : Nat} (h : p.route addr width = some (.reg off)) :
    addr = p.regBase + off ∧ width = 4 := by
  unfold Platform.route at h
  split at h
  next hblock =>
    split at h
    next hal =>
      cases h
      exact ⟨by omega, hal.1⟩
    next => cases h
  next => split at h <;> cases h

/-- An access that reaches LMEM lies in LMEM whole. -/
theorem within_of_route_lmem {p : Platform} {addr width a : Nat} (h : p.route addr width = some (.lmem a)) :
    a + width ≤ p.lmemSize := by
  unfold Platform.route at h
  split at h
  next => split at h <;> cases h
  next =>
    split at h
    next hwin =>
      cases h
      omega
    next => cases h

theorem does_engine (s : State) : does s .engine = engineStep s := rfl

/-- A read that does not reach LMEM never stalls (R87). -/
theorem does_read {s : State} {addr width : Nat} (h : s.platform.reachesLmem addr width = false) :
    does s (.read addr width) = s.hostRead addr width := by
  simp only [does, step, nextMove, State.stalls, h, Bool.and_false, Bool.false_eq_true, if_false]
  rfl

/-- A write that does not reach LMEM never stalls (R87). -/
theorem does_write {s : State} {addr width : Nat} (v : BitVec 64) (h : s.platform.reachesLmem addr width = false) :
    does s (.write addr width v) = s.hostWrite addr width v := by
  simp only [does, step, nextMove, State.stalls, h, Bool.and_false, Bool.false_eq_true, if_false]
  rfl

theorem reachesLmem_register {p : Platform} {off : Nat} (h : off < 256) (width : Nat) :
    p.reachesLmem (p.regBase + off) width = false := by
  rw [Platform.reachesLmem, route_register h]
  split_ifs <;> rfl

/-- A register read answers the register and changes nothing in the device, whatever BUSY is. -/
theorem reads_eq (s : State) {off : Nat} (h : off < 256) (ha : off % 4 = 0) :
    reads s off = .next (answeredWord s (s.readReg off)) := by
  rw [reads, does_read (reachesLmem_register h 4), State.hostRead, route_register h, if_pos ⟨rfl, ha⟩]
  rfl

/-- A register write takes effect at once, whatever BUSY is. -/
theorem writes_eq (s : State) {off : Nat} (v : Word) (h : off < 256) (ha : off % 4 = 0) :
    writes s off v = .next (s.writeReg off v) := by
  rw [writes, does_write _ (reachesLmem_register h 4), State.hostWrite, route_register h, if_pos ⟨rfl, ha⟩,
    BitVec.setWidth_setWidth_of_le v (by decide), BitVec.setWidth_eq]

theorem readReg_reserved (s : State) {off : Nat} (h : 0x34 ≤ off) : s.readReg off = 0 := by
  unfold State.readReg
  split <;> simp at h ⊢

theorem writeReg_reserved (s : State) {off : Nat} (v : Word) (h : 0x34 ≤ off) : s.writeReg off v = s := by
  unfold State.writeReg
  split <;> simp at h ⊢

/-- ID, RES0, RES1 and LMEMSZ are read-only (R32). -/
theorem writeReg_readOnly (s : State) {off : Nat} (v : Word) (h : off ∈ [0x00, 0x20, 0x24, 0x30]) :
    s.writeReg off v = s := by
  simp only [List.mem_cons, List.not_mem_nil, or_false] at h
  rcases h with rfl | rfl | rfl | rfl <;> rfl

/-! ### What a register write can do -/

/-- The states a write of v to the register at an offset can leave (R34 to R38). -/
inductive RegisterWrite (s : State) (off : Nat) (v : Word) : State → Prop
  | softReset : off = 0x04 → v.getLsbD 1 = true → RegisterWrite s off v s.softReset
  | interruptEnable (b : Bool) : RegisterWrite s off v (s.withIe b)
  | status : RegisterWrite s off v (s.withStatus (s.status.write v))
  | accept : s.status.busy = false → RegisterWrite s off v (s.accept v)
  | lose : s.status.busy = true → RegisterWrite s off v s.loseWrite
  | args (a : Args) : RegisterWrite s off v (s.withArgs a)
  | prevDcEnc : off = 0x28 → s.status.busy = false → RegisterWrite s off v (s.withPrevDcEnc v)
  | prevDcDec : off = 0x2C → s.status.busy = false → RegisterWrite s off v (s.withPrevDcDec v)
  | ignored : RegisterWrite s off v s

theorem registerWrite_writeReg (s : State) (off : Nat) (v : Word) : RegisterWrite s off v (s.writeReg off v) := by
  unfold State.writeReg
  split
  · split
    next hv => exact .softReset rfl hv
    next => exact .interruptEnable _
  · exact .status
  · split
    next hb => exact .lose hb
    next hb => exact .accept (by simpa using hb)
  · exact .args _
  · exact .args _
  · exact .args _
  · exact .args _
  · split
    next hb => exact .lose hb
    next hb => exact .prevDcEnc rfl (by simpa using hb)
  · split
    next hb => exact .lose hb
    next hb => exact .prevDcDec rfl (by simpa using hb)
  · exact .ignored

/-! ### What a step can do -/

/-- s but for the host's side, which is the model's own: the moves to come, the answers returned, and where the host's
program stopped. -/
def withHostSide (s : State) (ms : List Move) (rs : List (BitVec 64)) (stop : Option Byte) : State :=
  ((s.withSchedule ms).withResponses rs).withHostStop stop

/-- The states one step can lead to: only the host's side moves on; the command the engine holds completes, or an illegal
word does (R355, R124); a write of a register; a write of the LMEM window, never while a command runs (R87). -/
inductive StepTo (s : State) : State → Prop
  | hostSide (ms : List Move) (rs : List (BitVec 64)) (stop : Option Byte) : StepTo s (withHostSide s ms rs stop)
  | command (ms : List Move) (i : Instr) (t : State) : s.status.busy = true → decode s.latch.cmd = .ok i →
      exec i (s.withSchedule ms) = .next t → StepTo s t
  | illegal (ms : List Move) (e : Illegal) : s.status.busy = true → decode s.latch.cmd = .error e →
      StepTo s (s.withSchedule ms).failIllegal
  | register (off : Nat) (v : BitVec 64) (rest : List Move) (t : State) :
      s.schedule = .write (s.platform.regBase + off) 4 v :: rest →
      RegisterWrite (s.withSchedule rest) off (v.setWidth 32) t → StepTo s t
  | window (rest : List Move) (a width : Nat) (v : BitVec 64) : s.status.busy = false → a + width ≤ s.platform.lmemSize →
      StepTo s ((s.withSchedule rest).writeWindow a width v)

theorem stepTo_engineStep {s t : State} {ms : List Move} (h : engineStep (s.withSchedule ms) = .next t) : StepTo s t := by
  unfold engineStep at h
  split at h
  next hb =>
    split at h
    next i hd => exact .command ms i t hb hd h
    next e hd =>
      cases h
      exact .illegal ms e hb hd
  next =>
    cases h
    exact .hostSide ms s.responses s.hostStop

theorem stepTo_respond (s : State) (ms : List Move) (v : BitVec 64) : StepTo s ((s.withSchedule ms).respond v) :=
  .hostSide ms (v :: s.responses) s.hostStop

theorem stepTo_hostRead {s t : State} {ms : List Move} {addr width : Nat}
    (h : (s.withSchedule ms).hostRead addr width = .next t) : StepTo s t := by
  unfold State.hostRead at h
  split at h
  · cases h
    exact stepTo_respond s ms _
  · cases h
    exact stepTo_respond s ms _
  · cases h

theorem stepTo_hostWrite {s t : State} {addr width : Nat} {v : BitVec 64} {rest : List Move}
    (hs : s.schedule = .write addr width v :: rest) (hst : s.stalls (.write addr width v) = false)
    (h : (s.withSchedule rest).hostWrite addr width v = .next t) : StepTo s t := by
  unfold State.hostWrite at h
  split at h
  next off hr =>
    cases h
    obtain ⟨rfl, rfl⟩ := eq_of_route_register hr
    exact .register off v rest _ hs (registerWrite_writeReg _ _ _)
  next a hr =>
    cases h
    rw [State.withSchedule_platform] at hr
    refine .window rest a width v ?_ (within_of_route_lmem hr)
    simpa [State.stalls, Platform.reachesLmem, hr] using hst
  next => cases h

theorem stepTo_hostCheck (s : State) (ms : List Move) : StepTo s (s.withSchedule ms).hostCheck := by
  simp only [State.hostCheck]
  split
  · exact stepTo_respond s ms _
  · exact .hostSide [] (_ :: s.responses) (some s.status.errCode)

/-- Everything a step can do. -/
theorem stepTo_of_step {s t : State} (h : step s = .next t) : StepTo s t := by
  unfold step nextMove at h
  split at h
  next => exact stepTo_engineStep (ms := s.schedule) h
  next rest _ => exact stepTo_engineStep h
  next m rest _ hs =>
    split at h
    next => exact stepTo_engineStep (ms := s.schedule) h
    next hst =>
      cases m with
      | read addr width => exact stepTo_hostRead h
      | write addr width v => exact stepTo_hostWrite hs (by simpa using hst) h
      | wait =>
        cases h
        exact stepTo_respond s rest _
      | check =>
        cases h
        exact stepTo_hostCheck s rest
      | engine =>
        cases h
        exact .hostSide rest s.responses s.hostStop

/-! ### What a command that completes can leave -/

theorem code_ne_zero {e : ErrCode} (h : e ≠ .ok) : e.code ≠ 0 := by
  cases e with
  | ok => exact absurd rfl h
  | _ => decide

theorem argError_ne_ok {i : Instr} {l : Args} : argError i l ≠ some .ok := by
  cases i with
  | qtab | quant | dequant | zzdec | tbuild | subs | ups =>
    simp only [argError, qualityError]
    split_ifs <;> nofun
  | _ => nofun

theorem precheck_ne_ok {i : Instr} {s : State} : precheck i s ≠ some .ok := by
  unfold precheck
  split
  next e he =>
    rw [← he]
    exact argError_ne_ok
  next => split_ifs <;> nofun

theorem ok_not_mem_executeCodes (i : Instr) : ErrCode.ok ∉ executeCodes i := by
  cases i <;> simp [executeCodes]

/-- A command that answers a next state failed a check, succeeded with its effect, or raised one of its own codes in its
execute phase (R351, R355). -/
theorem exec_next_cases {i : Instr} {s t : State} (h : exec i s = .next t) :
    (∃ e, e ≠ .ok ∧ precheck i s = some e ∧ t = s.failCommand i e) ∨
    (∃ eff, precheck i s = none ∧ commandBody i s = .ok eff ∧ t = s.succeed eff) ∨
    (∃ e ∈ executeCodes i, precheck i s = none ∧ e ≠ .ok ∧ t = s.failExecute i e) := by
  rw [exec_eq] at h
  rcases runCommand_next h with ⟨e, hp, rfl⟩ | ⟨hp, eff, hb, -, rfl⟩ | ⟨hp, e, hb, rfl⟩
  · refine .inl ⟨e, ?_, hp, rfl⟩
    rintro rfl
    exact precheck_ne_ok hp
  · exact .inr (.inl ⟨eff, hp, hb, rfl⟩)
  · obtain ⟨r, -, k, -, -, -, hk⟩ | ⟨c, hc, he⟩ := commandBody_error hp hb
    · cases hk
    · cases he
      refine .inr (.inr ⟨e, hc, hp, ?_, rfl⟩)
      rintro rfl
      exact ok_not_mem_executeCodes i hc

theorem dropsTree_eq_false {i : Instr} (h : ∀ ct, i ≠ .tbuild ct) : dropsTree i = false := by
  cases i with
  | tbuild ct => exact absurd rfl (h ct)
  | _ => rfl

theorem drawsOnError_eq_false {i : Instr} (h1 : i ≠ .henc) (h2 : i ≠ .hdec) : drawsOnError i = false := by
  cases i with
  | henc => exact absurd rfl h1
  | hdec => exact absurd rfl h2
  | _ => rfl

/-- No command changes these fields, and every completion leaves BUSY = 0 and DONE = 1 (R36, R355). -/
theorem exec_frame {i : Instr} {s t : State} (h : exec i s = .next t) :
    t.platform = s.platform ∧ t.ie = s.ie ∧ t.cmd = s.cmd ∧ t.args = s.args ∧ t.latch = s.latch ∧
    t.schedule = s.schedule ∧ t.responses = s.responses ∧ t.hostStop = s.hostStop ∧
    t.status.wlost = s.status.wlost ∧ t.status.busy = false ∧ t.status.done = true := by
  obtain ⟨e, -, -, rfl⟩ | ⟨eff, -, -, rfl⟩ | ⟨e, -, -, -, rfl⟩ := exec_next_cases h <;> simp [Status.complete]

theorem exec_platform {i : Instr} {s t : State} (h : exec i s = .next t) : t.platform = s.platform :=
  (exec_frame h).1

/-- A completion with an error leaves 0 in RES0 and RES1 (R352). -/
theorem exec_results_of_error {i : Instr} {s t : State} (h : exec i s = .next t) (he : t.status.errCode ≠ 0) :
    t.res0 = 0 ∧ t.res1 = 0 := by
  obtain ⟨e, -, -, rfl⟩ | ⟨eff, -, -, rfl⟩ | ⟨e, -, -, -, rfl⟩ := exec_next_cases h
  · simp
  · exact absurd rfl he
  · simp

/-- Only a ZZENC that succeeds writes PREVDC_ENC (R38, R352). -/
theorem exec_prevDcEnc_changes {i : Instr} {s t : State} (h : exec i s = .next t) (hne : t.prevDcEnc ≠ s.prevDcEnc) :
    i = .zzenc ∧ t.status.errCode = 0 := by
  obtain ⟨e, -, -, rfl⟩ | ⟨eff, -, hb, rfl⟩ | ⟨e, -, -, -, rfl⟩ := exec_next_cases h
  · simp at hne
  · refine ⟨by_contra fun hi => hne ?_, rfl⟩
    simp [(commandBody_side hb).1 hi]
  · simp at hne

/-- Only a ZZDEC that succeeds writes PREVDC_DEC (R38, R352). -/
theorem exec_prevDcDec_changes {i : Instr} {s t : State} (h : exec i s = .next t) (hne : t.prevDcDec ≠ s.prevDcDec) :
    i = .zzdec ∧ t.status.errCode = 0 := by
  obtain ⟨e, -, -, rfl⟩ | ⟨eff, -, hb, rfl⟩ | ⟨e, -, -, -, rfl⟩ := exec_next_cases h
  · simp at hne
  · refine ⟨by_contra fun hi => hne ?_, rfl⟩
    simp [((commandBody_side hb).2.1 hi).1]
  · simp at hne

/-- Only ZZDEC sets MALFORMED (R354). -/
theorem exec_malformed {i : Instr} {s t : State} (h : exec i s = .next t) (hi : i ≠ .zzdec) :
    t.status.malformed = false := by
  obtain ⟨e, -, -, rfl⟩ | ⟨eff, -, hb, rfl⟩ | ⟨e, -, -, -, rfl⟩ := exec_next_cases h
  · simp [Status.complete]
  · simp [Status.complete, ((commandBody_side hb).2.1 hi).2]
  · simp [Status.complete]

/-- Only TBUILD writes the tree (R42). -/
theorem exec_huffman {i : Instr} {s t : State} (h : exec i s = .next t) (hi : ∀ ct, i ≠ .tbuild ct) :
    t.huffman = s.huffman := by
  have hd := dropsTree_eq_false hi
  obtain ⟨e, -, -, rfl⟩ | ⟨eff, -, hb, rfl⟩ | ⟨e, -, -, -, rfl⟩ := exec_next_cases h
  · simp [hd]
  · simp [(commandBody_side hb).2.2.1 hd]
  · simp [hd]

/-- Only HENC and HDEC use draws (R353). -/
theorem exec_drawCount {i : Instr} {s t : State} (h : exec i s = .next t) (h1 : i ≠ .henc) (h2 : i ≠ .hdec) :
    t.drawCount = s.drawCount := by
  obtain ⟨e, -, -, rfl⟩ | ⟨eff, -, -, rfl⟩ | ⟨e, -, -, -, rfl⟩ := exec_next_cases h
  · simp
  · rfl
  · exact State.failExecute_drawCount_of_not (drawsOnError_eq_false h1 h2)

/-! ### The events that change a result, a previous DC or the tree -/

/-- The completion of the command the engine holds, its entry taken off the schedule or not. -/
theorem completionStep_of_exec {i : Instr} {s t : State} {ms : List Move} (hb : s.status.busy = true)
    (h : exec i (s.withSchedule ms) = .next t) : CompletionStep s t := by
  obtain ⟨-, -, -, -, -, -, -, -, -, hbusy, hdone⟩ := exec_frame h
  exact ⟨hb, hbusy, hdone⟩

theorem completionStep_illegal {s : State} {ms : List Move} (hb : s.status.busy = true) :
    CompletionStep s (s.withSchedule ms).failIllegal := ⟨hb, rfl, rfl⟩

theorem softResetStep_of_write {s : State} {off : Nat} {v : BitVec 64} {rest : List Move}
    (hs : s.schedule = .write (s.platform.regBase + off) 4 v :: rest) (ho : off = 0x04)
    (hv : (v.setWidth 32).getLsbD 1 = true) : SoftResetStep s (s.withSchedule rest).softReset := by
  subst ho
  refine ⟨rfl, v, rest, hs, ?_⟩
  simpa [BitVec.getLsbD_setWidth] using hv

/-- Settles O11: of all a step can do, only a completion and a soft reset write RES0 or RES1. -/
theorem resultRegisters : Obligations.ResultRegisters := by
  unfold Obligations.ResultRegisters
  refine ⟨fun s => ⟨reads_eq s (by decide) rfl, reads_eq s (by decide) rfl, fun v =>
    ⟨writes_eq s v (by decide) rfl, writes_eq s v (by decide) rfl⟩⟩, fun s t hstep hne => ?_,
    fun s t i h he => exec_results_of_error h he⟩
  cases stepTo_of_step hstep with
  | hostSide => exact absurd hne (by simp [withHostSide])
  | command ms i _ hb _ he => exact .inl (completionStep_of_exec hb he)
  | illegal ms e hb => exact .inl (completionStep_illegal hb)
  | register off v rest _ hs hw =>
    cases hw with
    | softReset ho hv => exact .inr ⟨softResetStep_of_write hs ho hv, rfl, rfl⟩
    | interruptEnable | status | accept | lose | args | prevDcEnc | prevDcDec | ignored =>
      exact absurd hne (by simp [State.accept, State.loseWrite])
  | window => exact absurd hne (by simp [State.writeWindow])

/-- Settles O12: the host's access, and of all else a step can do only a ZZENC or ZZDEC that succeeds and a soft reset. -/
theorem previousDcRegisters : Obligations.PreviousDcRegisters := by
  unfold Obligations.PreviousDcRegisters
  refine ⟨fun s => ⟨reads_eq s (by decide) rfl, reads_eq s (by decide) rfl⟩, fun s v hb => ?_, fun s v hb => ?_,
    fun s t hstep hne => ?_, fun s t hstep hne => ?_⟩
  · simp [writes_eq, State.writeReg, hb, State.withPrevDcEnc, State.withPrevDcDec]
  · simp [writes_eq, State.writeReg, hb, State.loseWrite, State.withStatus, Status.lose, lost]
  · cases stepTo_of_step hstep with
    | hostSide => exact absurd rfl hne
    | command ms i _ hb hd he =>
      obtain ⟨rfl, hcode⟩ := exec_prevDcEnc_changes he hne
      exact .inr (.inl ⟨completionStep_of_exec hb he, hd, hcode⟩)
    | illegal => exact absurd rfl hne
    | register off v rest _ hs hw =>
      cases hw with
      | softReset ho hv => exact .inr (.inr ⟨softResetStep_of_write hs ho hv, rfl⟩)
      | prevDcEnc ho hb =>
        subst ho
        exact .inl ⟨hb, v, rest, hs, rfl⟩
      | interruptEnable | status | accept | lose | args | prevDcDec | ignored => exact absurd rfl hne
    | window => exact absurd rfl hne
  · cases stepTo_of_step hstep with
    | hostSide => exact absurd rfl hne
    | command ms i _ hb hd he =>
      obtain ⟨rfl, hcode⟩ := exec_prevDcDec_changes he hne
      exact .inr (.inl ⟨completionStep_of_exec hb he, hd, hcode⟩)
    | illegal => exact absurd rfl hne
    | register off v rest _ hs hw =>
      cases hw with
      | softReset ho hv => exact .inr (.inr ⟨softResetStep_of_write hs ho hv, rfl⟩)
      | prevDcDec ho hb =>
        subst ho
        exact .inl ⟨hb, v, rest, hs, rfl⟩
      | interruptEnable | status | accept | lose | args | prevDcEnc | ignored => exact absurd rfl hne
    | window => exact absurd rfl hne

/-- Settles O13: of all a step can do, only the completion of a TBUILD and a soft reset write the tree. -/
theorem onlyTbuildWritesTheTree : Obligations.OnlyTbuildWritesTheTree := by
  unfold Obligations.OnlyTbuildWritesTheTree
  intro s t hstep hne
  cases stepTo_of_step hstep with
  | hostSide => exact absurd rfl hne
  | command ms i _ hb hd he =>
    refine .inl ⟨completionStep_of_exec hb he, by_contra fun hi => hne ?_⟩
    have hkeep : t.huffman = (s.withSchedule ms).huffman := exec_huffman he fun ct hct => hi ⟨ct, hct ▸ hd⟩
    exact hkeep
  | illegal => exact absurd rfl hne
  | register off v rest _ hs hw =>
    cases hw with
    | softReset ho hv => exact .inr ⟨softResetStep_of_write hs ho hv, rfl⟩
    | interruptEnable | status | accept | lose | args | prevDcEnc | prevDcDec | ignored => exact absurd rfl hne
  | window => exact absurd rfl hne

/-! ### The size of a tree (R251, R254) -/

theorem argmin_mem (nodes : List Node) (i : Nat) (js : List Nat) : argmin nodes i js ∈ i :: js := by
  induction js generalizing i with
  | nil => exact List.mem_singleton_self i
  | cons j js ih =>
    unfold argmin
    split
    · exact List.mem_cons_of_mem i (ih j)
    · exact List.mem_cons.mpr ((List.mem_cons.mp (ih i)).imp_right (List.mem_cons_of_mem j))

theorem length_erase_argmin (nodes : List Node) (i : Nat) (js : List Nat) :
    ((i :: js).erase (argmin nodes i js)).length = js.length :=
  List.length_erase_of_mem (argmin_mem nodes i js)

/-- Each merge takes two live nodes away and adds one, so n merges of n + 1 live nodes add n nodes. -/
theorem mergeLoop_length (n : Nat) (nodes : List Node) (live : List Nat) (h : live.length = n + 1) :
    (mergeLoop n nodes live).length = nodes.length + n := by
  induction n generalizing nodes live with
  | zero => rfl
  | succ n ih =>
    obtain ⟨i, is, rfl⟩ := List.exists_cons_of_length_eq_add_one h
    have hone := length_erase_argmin nodes i is
    unfold mergeLoop
    simp only [List.length_cons, Nat.add_right_cancel_iff] at h ⊢
    split
    next he =>
      rw [he, h] at hone
      cases hone
    next j js he =>
      rw [he, h, List.length_cons, Nat.add_right_cancel_iff] at hone
      rw [ih _ _ (by simp [length_erase_argmin, hone]), List.length_append, List.length_singleton]
      omega

/-- The arena of n entries: a root and its one leaf, or n leaves and n - 1 merges (R254). -/
theorem buildNodes_length (t : List (Byte × Nat)) (h : t ≠ []) :
    (buildNodes t).length = if t.length = 1 then 2 else 2 * t.length - 1 := by
  have hpos := List.length_pos_iff.mpr h
  have hleaves : (leafNodes t).length = t.length := List.length_map _
  unfold buildNodes
  split
  next h1 => simp [hleaves, h1]
  next => rw [mergeLoop_length _ _ _ (by rw [List.length_range]; omega), hleaves]; omega

theorem buildTree_wf (t : List (Byte × Nat)) (h1 : 0 < t.length) (h2 : t.length ≤ 256) : (buildTree t).wf := by
  have hl := buildNodes_length t (List.length_pos_iff.mp h1)
  have hb : 2 ≤ (buildNodes t).length ∧ (buildNodes t).length ≤ 511 := by
    split at hl <;> omega
  exact ⟨rfl, hb.1, hb.2, Nat.sub_add_cancel (by omega), codeTable_length _ _⟩

/-- The tree a TBUILD installs is that of a table of LARG1 entries, 1 to 256 of them (R252). -/
theorem tbuild_installs {ct : Bool} {s : State} {eff : Effect} (hp : precheck (.tbuild ct) s = none)
    (h : commandBody (.tbuild ct) s = .ok eff) :
    ∃ t, eff.huffman = some (buildTree t) ∧ 0 < t.length ∧ t.length ≤ 256 := by
  have hlen : 0 < s.latch.args.a1.toNat ∧ s.latch.args.a1.toNat ≤ 256 := by
    have ha := (precheck_none_iff.mp hp).1
    simp only [argError] at ha
    split_ifs at ha
    omega
  simp only [commandBody, tbuildBody] at h
  split at h
  next => cases h
  next t ht =>
    split at h
    next =>
      cases h
      have htl := readEach_length ht
      rw [List.length_range] at htl
      exact ⟨t, rfl, htl ▸ hlen⟩
    next => cases h

/-! ### The invariant over each operation (R35, R40, R44, R46) -/

/-- Draws over the part of a region that lies in LMEM keep memory canonical and in LMEM. -/
theorem put_draws_inv {m : Memory} {size : Nat} (h : m.wf ∧ m.within size) (r : Region) (k : Nat) :
    (m.put r.start (drawBytes k (r.lenIn size))).wf ∧ (m.put r.start (drawBytes k (r.lenIn size))).within size := by
  refine ⟨Memory.put_wf h.1 _ _, Memory.put_within h.2 ?_⟩
  rw [drawBytes_length, ← List.length_eq_zero_iff, drawBytes_length]
  exact r.lenIn_within size

theorem drawDst_keeps_lmemInv {s : State} (h : s.lmemInv) (i : Instr) : (s.drawDst i).lmemInv := by
  unfold State.drawDst
  split
  next r _ => exact put_draws_inv h r s.drawCount
  next => exact h

theorem failExecute_keeps_lmemInv {s : State} (h : s.lmemInv) (i : Instr) (e : ErrCode) :
    (s.failExecute i e).lmemInv := by
  unfold State.failExecute
  split
  · simpa only [State.lmemInv, State.failCommand_lmem, State.failCommand_platform] using drawDst_keeps_lmemInv h i
  · simpa only [State.lmemInv, State.failCommand_lmem, State.failCommand_platform] using h

/-- A write inside LMEM, by a command or through the window. -/
theorem put_keeps_lmemInv {s : State} (h : s.lmemInv) {a : Nat} {bs : List Byte}
    (hb : a + bs.length ≤ s.platform.lmemSize) : (s.withLmem (s.lmem.put a bs)).lmemInv :=
  ⟨Memory.put_wf h.1 a bs, Memory.put_within h.2 (.inr hb)⟩

/-- The soft reset of the model is the state R402 gives. -/
theorem softReset_eq (s : State) : s.softReset = afterSoftReset s := by
  unfold afterSoftReset abortedRegion State.softReset State.abort
  split
  next =>
    cases decode s.latch.cmd with
    | error e => rfl
    | ok i =>
      simp only [Except.toOption, Option.bind_some, State.drawDst]
      cases dstRegion i s.latch.args <;> rfl
  next => rfl

theorem zero_status_inv {s : State} (h : s.status = Status.zero) : s.statusInv := by
  rw [State.statusInv, h]
  decide

theorem softReset_keeps_inv {s : State} (h : s.Inv) : s.softReset.Inv := by
  obtain ⟨hplat, hmem, -, -, -⟩ := h
  rw [softReset_eq]
  refine ⟨hplat, ?_, zero_status_inv rfl, rfl, nofun⟩
  cases hr : abortedRegion s with
  | none => simpa only [State.lmemInv, afterSoftReset, State.resetOn, hr] using hmem
  | some r => simpa only [State.lmemInv, afterSoftReset, State.resetOn, hr] using put_draws_inv hmem r s.drawCount

theorem RegisterWrite.keeps_inv {s t : State} {off : Nat} {v : Word} (hw : RegisterWrite s off v t) (h : s.Inv) :
    t.Inv := by
  obtain ⟨hplat, hmem, hstat, hlatch, htree⟩ := h
  cases hw with
  | softReset => exact softReset_keeps_inv ⟨hplat, hmem, hstat, hlatch, htree⟩
  | status =>
    refine ⟨hplat, hmem, ⟨fun hb => ?_, hstat.2⟩, hlatch, htree⟩
    obtain ⟨hdone, hrest⟩ := hstat.1 hb
    exact ⟨by simp [Status.write, hdone], hrest⟩
  | accept => exact ⟨hplat, hmem, by simp [State.statusInv, State.accept, Status.accept], rfl, htree⟩
  | interruptEnable | lose | args | prevDcEnc | prevDcDec | ignored => exact ⟨hplat, hmem, hstat, hlatch, htree⟩

theorem code_lt (e : ErrCode) : e.code.toNat < 16 := by cases e <;> decide

/-- STATUS after any completion (R355). -/
theorem complete_status_inv {s : State} {st : Status} {e : ErrCode} {m : Bool} (hs : s.status = st.complete e m)
    (hm : m = true → e = .ok) : s.statusInv := by
  rw [State.statusInv, hs]
  refine ⟨nofun, code_lt e, fun h => ?_⟩
  rw [Status.complete, hm h]
  rfl

theorem exec_statusInv {i : Instr} {s t : State} (h : exec i s = .next t) : t.statusInv := by
  obtain ⟨e, -, -, rfl⟩ | ⟨eff, -, -, rfl⟩ | ⟨e, -, -, -, rfl⟩ := exec_next_cases h
  · exact complete_status_inv (State.failCommand_status s i e) nofun
  · exact complete_status_inv (State.succeed_status s eff) fun _ => rfl
  · exact complete_status_inv (State.failExecute_status s i e) nofun

theorem exec_keeps_lmemInv {i : Instr} {s t : State} (hmem : s.lmemInv) (h : exec i s = .next t) : t.lmemInv := by
  obtain ⟨e, -, -, rfl⟩ | ⟨eff, hp, hb, rfl⟩ | ⟨e, -, -, -, rfl⟩ := exec_next_cases h
  · simpa [State.lmemInv] using hmem
  · exact put_keeps_lmemInv hmem (commandBody_within hp hb)
  · exact failExecute_keeps_lmemInv hmem i e

theorem exec_tbuild_treeInv {ct : Bool} {s t : State} (h : exec (.tbuild ct) s = .next t) : t.treeInv := by
  obtain ⟨e, -, -, rfl⟩ | ⟨eff, hp, hb, rfl⟩ | ⟨e, -, -, -, rfl⟩ := exec_next_cases h
  · simp [State.treeInv, dropsTree]
  · obtain ⟨tab, ht, h1, h2⟩ := tbuild_installs hp hb
    simpa [State.treeInv, ht] using buildTree_wf tab h1 h2
  · simp [State.treeInv, dropsTree]

theorem exec_keeps_inv {i : Instr} {s t : State} (hinv : s.Inv) (h : exec i s = .next t) : t.Inv := by
  obtain ⟨hplat, hmem, -, hlatch, htree⟩ := hinv
  obtain ⟨hp, -, hcmd, -, hl, -⟩ := exec_frame h
  refine ⟨hp ▸ hplat, exec_keeps_lmemInv hmem h, exec_statusInv h, ?_, ?_⟩
  · rw [State.latchInv, hcmd, hl]
    exact hlatch
  · by_cases hi : ∃ ct, i = .tbuild ct
    · obtain ⟨ct, rfl⟩ := hi
      exact exec_tbuild_treeInv h
    · rw [State.treeInv, exec_huffman h fun ct hct => hi ⟨ct, hct⟩]
      exact htree

/-- Settles O30: the invariant over each of the things a step can do. -/
theorem stepKeepsInvariant : Obligations.StepKeepsInvariant := by
  unfold Obligations.StepKeepsInvariant
  intro s t hinv hstep
  cases stepTo_of_step hstep with
  | hostSide => exact hinv
  | command ms i _ _ _ he => exact exec_keeps_inv (s := s.withSchedule ms) hinv he
  | illegal ms e =>
    obtain ⟨hplat, hmem, -, hlatch, htree⟩ := hinv
    exact ⟨hplat, hmem, complete_status_inv rfl nofun, hlatch, htree⟩
  | register off v rest _ _ hw => exact hw.keeps_inv (s := s.withSchedule rest) hinv
  | window rest a width v _ hin =>
    obtain ⟨hplat, hmem, hstat, hlatch, htree⟩ := hinv
    exact ⟨hplat, put_keeps_lmemInv hmem (by rwa [leBytes_length]), hstat, hlatch, htree⟩

/-! ### ID, LMEMSZ and CTRL (R32 to R34) -/

/-- Settles O6: an offset below 256 is the register block's, whatever BUSY is. -/
theorem registerAccesses : Obligations.RegisterAccesses := by
  unfold Obligations.RegisterAccesses
  intro s off
  refine ⟨fun h ha => ⟨_, reads_eq s h ha⟩, fun hres h ha => ⟨?_, fun v => ?_⟩, fun hro v => ?_,
    fun width v h hbad => ⟨?_, ?_⟩⟩
  · rw [reads_eq s h ha, readReg_reserved s hres]
  · rw [writes_eq s v h ha, writeReg_reserved s v hres]
  · have hoff : off < 256 ∧ off % 4 = 0 := by
      simp only [List.mem_cons, List.not_mem_nil, or_false] at hro
      omega
    rw [writes_eq s v hoff.1 hoff.2, writeReg_readOnly s v hro]
  · rw [does_read (reachesLmem_register h width), State.hostRead, route_register h, if_neg hbad]
  · rw [does_write v (reachesLmem_register h width), State.hostWrite, route_register h, if_neg hbad]

theorem softReset_platform (s : State) : s.softReset.platform = s.platform := by
  rw [softReset_eq]
  rfl

theorem RegisterWrite.platform {s t : State} {off : Nat} {v : Word} (hw : RegisterWrite s off v t) :
    t.platform = s.platform := by
  cases hw with
  | softReset => exact softReset_platform s
  | interruptEnable | status | accept | lose | args | prevDcEnc | prevDcDec | ignored => rfl

theorem step_platform {s t : State} (h : step s = .next t) : t.platform = s.platform := by
  cases stepTo_of_step h with
  | hostSide | illegal | window => rfl
  | command ms i _ _ _ he => exact exec_platform (s := s.withSchedule ms) he
  | register off v rest _ _ hw => exact hw.platform

/-- Settles O7: both registers are read-only, and no step changes the platform. -/
theorem identityRegisters : Obligations.IdentityRegisters := by
  unfold Obligations.IdentityRegisters
  exact fun s => ⟨reads_eq s (by decide) rfl, reads_eq s (by decide) rfl,
    fun v => ⟨writes_eq s v (by decide) rfl, writes_eq s v (by decide) rfl⟩, fun t => step_platform⟩

theorem ctrlWord_eq (s : State) : s.ctrlWord = if s.ie then 1 else 0 := by
  unfold State.ctrlWord bitAt
  cases s.ie <;> rfl

theorem writes_ctrl_reset (s : State) {v : Word} (hv : v.getLsbD 1 = true) :
    writes s 0x04 v = .next (afterSoftReset s) := by
  rw [writes_eq s v (by decide) rfl, ← softReset_eq]
  simp [State.writeReg, hv]

/-- Settles O8: bit 1 of the word written decides between the soft reset and a write of IE alone. -/
theorem controlRegister : Obligations.ControlRegister := by
  unfold Obligations.ControlRegister
  refine fun s => ⟨?_, fun v hv => ?_, fun v hv => ⟨writes_ctrl_reset s hv, rfl⟩⟩
  · rw [reads_eq s (by decide) rfl, ← ctrlWord_eq]
    rfl
  · rw [writes_eq s v (by decide) rfl]
    simp only [State.writeReg, hv, Bool.false_eq_true, if_false]
    rfl

/-! ### STATUS (R35) -/

theorem bitAt_eq (k : Nat) (b : Bool) : bitAt k b = 2 ^ k * b.toNat := by cases b <;> simp [bitAt]

theorem statusFields_bounds (s : State) :
    s.status.busy.toNat ≤ 1 ∧ s.status.done.toNat ≤ 1 ∧ s.status.err.toNat ≤ 1 ∧ s.status.malformed.toNat ≤ 1 ∧
    s.treeValid.toNat ≤ 1 ∧ s.status.wlost.toNat ≤ 1 ∧ s.status.errCode.toNat < 256 :=
  ⟨Bool.toNat_le _, Bool.toNat_le _, Bool.toNat_le _, Bool.toNat_le _, Bool.toNat_le _, Bool.toNat_le _,
    s.status.errCode.isLt⟩

/-- STATUS as a number; it fits its 16 low bits. -/
theorem statusWord_toNat (s : State) :
    s.statusWord.toNat = s.status.busy.toNat + 2 * s.status.done.toNat + 4 * s.status.err.toNat
      + 8 * s.status.malformed.toNat + 16 * s.treeValid.toNat + 32 * s.status.wlost.toNat
      + 256 * s.status.errCode.toNat := by
  have hbounds := statusFields_bounds s
  simp only [State.statusWord, bitAt_eq, BitVec.toNat_ofNat]
  omega

theorem getLsbD_of_toNat {w : Word} {k : Nat} {b : Bool} (h : w.toNat / 2 ^ k % 2 = b.toNat) : w.getLsbD k = b := by
  rw [BitVec.getLsbD, Nat.testBit_eq_decide_div_mod_eq, h]
  cases b <;> rfl

theorem extractLsb'_of_toNat {w : Word} {k n : Nat} {b : BitVec n} (h : w.toNat / 2 ^ k % 2 ^ n = b.toNat) :
    w.extractLsb' k n = b := by
  apply BitVec.eq_of_toNat_eq
  rw [BitVec.extractLsb'_toNat, Nat.shiftRight_eq_div_pow, h]

/-- Every bit of STATUS (R35). -/
theorem statusWord_bits (s : State) :
    s.statusWord.getLsbD 0 = s.status.busy ∧ s.statusWord.getLsbD 1 = s.status.done ∧
    s.statusWord.getLsbD 2 = s.status.err ∧ s.statusWord.getLsbD 3 = s.status.malformed ∧
    s.statusWord.getLsbD 4 = s.treeValid ∧ s.statusWord.getLsbD 5 = s.status.wlost ∧
    s.statusWord.extractLsb' 6 2 = 0 ∧ s.statusWord.extractLsb' 8 8 = s.status.errCode ∧
    s.statusWord.extractLsb' 16 16 = 0 := by
  have hword := statusWord_toNat s
  have hbounds := statusFields_bounds s
  have : (0 : BitVec 2).toNat = 0 := rfl
  have : (0 : BitVec 16).toNat = 0 := rfl
  refine ⟨getLsbD_of_toNat ?_, getLsbD_of_toNat ?_, getLsbD_of_toNat ?_, getLsbD_of_toNat ?_, getLsbD_of_toNat ?_,
    getLsbD_of_toNat ?_, extractLsb'_of_toNat ?_, extractLsb'_of_toNat ?_, extractLsb'_of_toNat ?_⟩ <;> omega

theorem status_err_eq (st : Status) : st.err = decide (st.errCode ≠ 0) := by
  rw [Status.err, Bool.eq_iff_iff, bne_iff_ne, decide_eq_true_iff]

/-- A write of 1 clears DONE and WLOST, and nothing else. -/
theorem status_write_eq (st : Status) (w : Word) :
    st.write w = ⟨st.busy, if w.getLsbD 1 then false else st.done, st.malformed,
      if w.getLsbD 5 then false else st.wlost, st.errCode⟩ := by
  unfold Status.write
  cases w.getLsbD 1 <;> cases w.getLsbD 5 <;> simp

/-- Settles O9: the bits of the word as a number, and the two fields a write can clear. -/
theorem statusRegister : Obligations.StatusRegister := by
  unfold Obligations.StatusRegister
  refine fun s => ⟨⟨s.statusWord, reads_eq s (by decide) rfl, ?_⟩, fun w => ?_⟩
  · rw [← status_err_eq]
    exact statusWord_bits s
  · rw [writes_eq s w (by decide) rfl, ← status_write_eq]
    rfl

/-! ### What a command reads -/

section Congruence

variable {s t : State}

theorem readByte_congr (hl : s.lmem = t.lmem) (a : Nat) : s.readByte a = t.readByte a := by
  rw [State.readByte, hl, State.readByte]

theorem readBytes_congr (hl : s.lmem = t.lmem) (a n : Nat) : s.readBytes a n = t.readBytes a n := by
  induction n generalizing a with
  | zero => rfl
  | succ n ih => simp only [State.readBytes, readByte_congr hl, ih]

theorem readI32Block_congr (hl : s.lmem = t.lmem) (a : Nat) : s.readI32Block a = t.readI32Block a := by
  simp only [State.readI32Block, State.readI32, readBytes_congr hl]

theorem readF64Block_congr (hl : s.lmem = t.lmem) (a : Nat) : s.readF64Block a = t.readF64Block a := by
  simp only [State.readF64Block, State.readF64, readBytes_congr hl]

theorem decodePairs_congr (hl : s.lmem = t.lmem) (src len rounds : Nat) (z : List Int) (i cur : Nat) :
    decodePairs s src len rounds z i cur = decodePairs t src len rounds z i cur := by
  induction rounds generalizing z i cur with
  | zero => rfl
  | succ n ih => simp only [decodePairs, readByte_congr hl, ih]

theorem encodeBits_congr (hl : s.lmem = t.lmem) (h : Huffman) (a n : Nat) :
    encodeBits h s a n = encodeBits h t a n := by
  induction n generalizing a with
  | zero => rfl
  | succ n ih => simp only [encodeBits, readByte_congr hl, ih]

theorem decodeBits_congr (hl : s.lmem = t.lmem) (h : Huffman) (src cap n k node m : Nat) :
    decodeBits h s src cap n k node m = decodeBits h t src cap n k node m := by
  induction n generalizing k node m with
  | zero => rfl
  | succ n ih => simp only [decodeBits, readBit, readByte_congr hl, ih]

/-- An execute phase reads LMEM, the latch, PREVDC_ENC, PREVDC_DEC and the tree, and nothing else. -/
theorem commandBody_congr (hl : s.lmem = t.lmem) (ha : s.latch = t.latch) (he : s.prevDcEnc = t.prevDcEnc)
    (hd : s.prevDcDec = t.prevDcDec) (hh : s.huffman = t.huffman) (i : Instr) : commandBody i s = commandBody i t := by
  cases i with
  | nop => rfl
  | fdct => simp only [commandBody, fdctBody, readI32Block_congr hl, ha]
  | idct => simp only [commandBody, idctBody, readF64Block_congr hl, ha]
  | qtab q => simp only [commandBody, qtabBody, ha]
  | quant q => simp only [commandBody, quantBody, readF64Block_congr hl, ha]
  | dequant q => simp only [commandBody, dequantBody, readI32Block_congr hl, ha]
  | zzenc => simp only [commandBody, zzencBody, readI32Block_congr hl, ha, he]
  | zzdec => simp only [commandBody, zzdecBody, readByte_congr hl, decodePairs_congr hl, ha, hd]
  | hist => simp only [commandBody, histBody, readBytes_congr hl, ha]
  | tbuild ct =>
    have hr : readEntry s = readEntry t := by
      funext k
      simp only [readEntry, State.readU32, readByte_congr hl, readBytes_congr hl, ha]
    simp only [commandBody, tbuildBody, hr, ha]
  | henc => simp only [commandBody, hencBody, encodeBits_congr hl, hh, ha]
  | hdec => simp only [commandBody, hdecBody, decodeBits_congr hl, hh, ha]
  | subs m =>
    have hr : s.readByte = t.readByte := funext (readByte_congr hl)
    simp only [commandBody, subsBody, subsSample, hr, ha]
  | ups m => simp only [commandBody, upsBody, readByte_congr hl, ha]

end Congruence

/-! ### CMD and ARG0 to ARG3 (R36) -/

theorem failCommand_withArgs (s : State) (a : Args) (i : Instr) (e : ErrCode) :
    (s.withArgs a).failCommand i e = (s.failCommand i e).withArgs a := by
  unfold State.failCommand
  cases dropsTree i <;> rfl

theorem drawDst_withArgs (s : State) (a : Args) (i : Instr) : (s.withArgs a).drawDst i = (s.drawDst i).withArgs a := by
  simp only [State.drawDst, State.withArgs_latch]
  cases dstRegion i s.latch.args <;> rfl

theorem failExecute_withArgs (s : State) (a : Args) (i : Instr) (e : ErrCode) :
    (s.withArgs a).failExecute i e = (s.failExecute i e).withArgs a := by
  unfold State.failExecute
  split
  · rw [drawDst_withArgs, failCommand_withArgs]
  · exact failCommand_withArgs s a i e

/-- A command works on its latched operands: other ARG registers are carried along. -/
theorem exec_withArgs (s : State) (i : Instr) (a : Args) :
    exec i (s.withArgs a) = mapNext (fun t => t.withArgs a) (exec i s) := by
  have hp : precheck i (s.withArgs a) = precheck i s := rfl
  have hb : commandBody i (s.withArgs a) = commandBody i s :=
    commandBody_congr (s := s.withArgs a) (t := s) rfl rfl rfl rfl rfl i
  simp only [exec_eq, runCommand, hp, hb]
  cases precheck i s with
  | some e => exact congrArg _ (failCommand_withArgs s a i e)
  | none =>
    match commandBody i s with
    | .ok eff =>
      by_cases hl : eff.base + eff.bytes.length ≤ s.platform.lmemSize <;>
        simp only [complete, State.withArgs_platform, hl, if_true, if_false] <;> rfl
    | .error (.raise e) => exact congrArg _ (failExecute_withArgs s a i e)
    | .error (.fault f) => rfl

/-- The engine completes an illegal word with E_ILLEGAL (R124). -/
theorem does_engine_illegal {s : State} {e : Illegal} (hd : decode s.latch.cmd = .error e) (hb : s.status.busy = true) :
    does s .engine = .next (failed s 0x01) := by
  rw [does_engine, engineStep, if_pos hb, hd]
  rfl

/-- Settles O10: each register's own access, and a command that neither reads nor writes ARG0 to ARG3. -/
theorem commandRegisters : Obligations.CommandRegisters := by
  unfold Obligations.CommandRegisters
  refine ⟨fun s w hb => ?_, fun s w hb => ?_,
    fun s => ⟨reads_eq s (by decide) rfl, reads_eq s (by decide) rfl, reads_eq s (by decide) rfl,
      reads_eq s (by decide) rfl, reads_eq s (by decide) rfl⟩,
    fun s v => ⟨writes_eq s v (by decide) rfl, writes_eq s v (by decide) rfl, writes_eq s v (by decide) rfl,
      writes_eq s v (by decide) rfl⟩,
    exec_withArgs, fun s t i h => ?_, fun s w e hd hb => does_engine_illegal hd rfl, rfl⟩
  · rw [writes_eq s w (by decide) rfl]
    simp only [State.writeReg, hb, Bool.false_eq_true, if_false]
    rfl
  · rw [writes_eq s w (by decide) rfl]
    simp only [State.writeReg, hb, if_true]
    rfl
  · obtain ⟨-, -, -, hargs, -⟩ := exec_frame h
    exact hargs

/-! ### The frame of a command, and TREE_VALID (R42) -/

/-- Settles O23: each field's own lemma. -/
theorem commandFrame : Obligations.CommandFrame := by
  unfold Obligations.CommandFrame
  intro s t i h
  obtain ⟨hplat, hie, hcmd, hargs, hlatch, hsched, hresp, hstop, hwlost, hbusy, hdone⟩ := exec_frame h
  exact ⟨hplat, hie, hcmd, hargs, hlatch, hsched, hresp, hstop, hwlost, hbusy, hdone,
    fun hi => by_contra fun hne => hi (exec_prevDcEnc_changes h hne).1,
    fun hi => ⟨by_contra fun hne => hi (exec_prevDcDec_changes h hne).1, exec_malformed h hi⟩,
    exec_huffman h, exec_drawCount h⟩

/-- A TBUILD leaves a tree exactly when it succeeds (R42, R252). -/
theorem exec_tbuild_treeValid {ct : Bool} {s t : State} (h : exec (.tbuild ct) s = .next t) :
    t.treeValid = decide (t.status.errCode = 0) := by
  obtain ⟨e, he, -, rfl⟩ | ⟨eff, hp, hb, rfl⟩ | ⟨e, -, -, he, rfl⟩ := exec_next_cases h
  · simpa [State.treeValid, Status.complete, dropsTree] using code_ne_zero he
  · obtain ⟨tab, ht, -, -⟩ := tbuild_installs hp hb
    simp [State.treeValid, Status.complete, ErrCode.code, ht]
  · simpa [State.treeValid, Status.complete, dropsTree] using code_ne_zero he

/-- Step 6 of the check order, once steps 2 to 5 have passed (R351). -/
theorem precheck_noTable {i : Instr} {s : State} (harg : argError i s.latch.args = none)
    (hin : ∀ r ∈ regions i s.latch.args, r.start + r.len ≤ s.platform.lmemSize)
    (hal : ∀ r ∈ regions i s.latch.args, r.start % r.align = 0) (hap : srcDstOverlap i s.latch.args = false)
    (hneed : needsTree i = true) (ht : s.treeValid = false) : precheck i s = some .noTable := by
  have hin' : (regions i s.latch.args).all (Region.inRange s.platform.lmemSize) = true := by
    simpa [Region.inRange] using hin
  have hal' : (regions i s.latch.args).all Region.aligned = true := by
    simpa [Region.aligned] using hal
  simp [precheck, harg, hin', hal', hap, hneed, ht]

theorem overlaps_eq_false {r q : Region} (h : Apart r.start r.len q.start q.len) : r.overlaps q = false := by
  simp only [Region.overlaps, decide_eq_false_iff_not]
  omega

theorem exec_noTable {i : Instr} {s : State} (h : precheck i s = some .noTable) (hi : dropsTree i = false) :
    exec i s = .next (failed s 0x07) := by
  rw [exec_eq, runCommand_of_precheck h, State.failCommand, hi]
  rfl

/-- Settles O14: what each reset and each completion does to the tree, and step 6 of the check order. -/
theorem treeValid : Obligations.TreeValid := by
  unfold Obligations.TreeValid
  refine ⟨fun p => rfl, fun s v hv => ⟨_, writes_ctrl_reset s hv, rfl⟩, fun s t ct => exec_tbuild_treeValid,
    fun s e hd hb => ⟨_, does_engine_illegal hd hb, rfl⟩, fun s t i hi h => exec_huffman h hi, fun s => ?_,
    fun s ht hdst => ⟨fun hsrc hap => exec_noTable (precheck_noTable rfl ?_ ?_ (overlaps_eq_false hap) rfl ht) rfl,
      fun hsrc hap => exec_noTable (precheck_noTable rfl ?_ ?_ (overlaps_eq_false hap) rfl ht) rfl⟩⟩
  · obtain ⟨-, -, -, -, htree, -⟩ := statusWord_bits s
    exact htree
  · simpa [regions, srcRegion, dstRegion] using ⟨hsrc, hdst⟩
  · simp [regions, srcRegion, dstRegion, Nat.mod_one]
  · simpa [regions, srcRegion, dstRegion] using ⟨hsrc, hdst⟩
  · simp [regions, srcRegion, dstRegion, Nat.mod_one]

end Sys2Proof.Proofs
end

section
/-! Proofs for 20_memory.md: which accesses the device defines and which of them wait, what the window answers, and where a
command writes; and from these the statements on memory and the host interface. -/

namespace Sys2Proof.Proofs

open Sys2Proof.Machine Sys2Proof.Statements

/-! ### Where an access goes (R32, R88) -/

theorem width_pos_of_windowAccess {p : Platform} {addr width : Nat} (h : WindowAccess p addr width) : 0 < width := by
  obtain ⟨hw, -⟩ := h
  exact Nat.pos_of_ne_zero fun h0 => by simp [h0] at hw

/-- The window lies apart from the register block, so an access of the window reaches LMEM. -/
theorem route_window {p : Platform} {addr width : Nat} (hp : p.legal) (h : WindowAccess p addr width) :
    p.route addr width = some (.lmem (addr - p.lmemBase)) := by
  have hpos := width_pos_of_windowAccess h
  obtain ⟨-, -, -, hapart⟩ := hp
  obtain ⟨hw, hlo, hhi, hal⟩ := h
  rw [Platform.route, if_neg (by omega), if_pos ⟨hlo, hhi, hw, hal⟩]

theorem route_registerAccess {p : Platform} {addr width : Nat} (h : RegisterAccess p addr width) :
    p.route addr width = some (.reg (addr - p.regBase)) := by
  obtain ⟨hw, hlo, hhi, hal⟩ := h
  rw [Platform.route, if_pos ⟨hlo, hhi⟩, if_pos ⟨hw, hal⟩]

/-- An access that is neither a register's nor the window's goes nowhere, whatever the platform. -/
theorem route_undefined {p : Platform} {addr width : Nat}
    (h : ¬ (RegisterAccess p addr width ∨ WindowAccess p addr width)) : p.route addr width = none := by
  obtain ⟨hreg, hwin⟩ := not_or.mp h
  unfold Platform.route
  split
  next hblock => exact if_neg fun hal => hreg ⟨hal.1, hblock.1, hblock.2, hal.2⟩
  next => exact if_neg fun ⟨hlo, hhi, hw, hal⟩ => hwin ⟨hw, hlo, hhi, hal⟩

theorem route_eq_none_iff {p : Platform} {addr width : Nat} (hp : p.legal) :
    p.route addr width = none ↔ ¬ (RegisterAccess p addr width ∨ WindowAccess p addr width) := by
  refine ⟨fun hnone hdef => ?_, route_undefined⟩
  rcases hdef with hreg | hwin
  · simp [route_registerAccess hreg] at hnone
  · simp [route_window hp hwin] at hnone

theorem reachesLmem_window {p : Platform} {addr width : Nat} (hp : p.legal) (h : WindowAccess p addr width) :
    p.reachesLmem addr width = true := by
  rw [Platform.reachesLmem, route_window hp h]

/-! ### An access that stalls, and one that does not (R87) -/

/-- A move that stalls is held: the engine moves instead, with the move still to come. -/
theorem does_of_stalls {s : State} {m : Move} (h : s.stalls m = true) :
    does s m = engineStep { s with schedule := m :: s.schedule } := by
  have hst : State.stalls { s with schedule := m :: s.schedule } m = true := by cases m <;> exact h
  cases m with
  | engine => cases h
  | read | write | wait | check => simp only [does, step, nextMove, hst, if_true]

/-- A move of the host that does not stall is made. -/
theorem does_of_not_stalls {s : State} {m : Move} (h : s.stalls m = false) (hm : m ≠ .engine) :
    does s m = s.hostMove m := by
  have hst : State.stalls { s with schedule := m :: s.schedule } m = false := by cases m <;> exact h
  cases m with
  | engine => exact absurd rfl hm
  | read | write | wait | check =>
    simp only [does, step, nextMove, hst, Bool.false_eq_true, if_false]
    rfl

theorem exec_not_refused (i : Instr) (s : State) (r : Refusal) : exec i s ≠ .refused r := by
  rw [exec_eq]
  exact runCommand_not_refused

theorem engineStep_not_refused (s : State) (r : Refusal) : engineStep s ≠ .refused r := by
  unfold engineStep
  split
  · split
    · exact exec_not_refused _ s r
    · nofun
  · nofun

/-- While BUSY = 1 the engine's step is the completion of the command it holds (R355, R124). -/
theorem engineStep_of_busy {s : State} (h : s.status.busy = true) : engineStep s = completion s := by
  rw [engineStep, if_pos h, completion]
  cases decode s.latch.cmd <;> rfl

/-- A completion leaves BUSY = 0 and the moves to come. -/
theorem completion_next {s t : State} (h : completion s = .next t) :
    t.status.busy = false ∧ t.schedule = s.schedule := by
  unfold completion at h
  split at h
  next =>
    obtain ⟨-, -, -, -, -, hsched, -, -, -, hbusy, -⟩ := exec_frame h
    exact ⟨hbusy, hsched⟩
  next =>
    cases h
    exact ⟨rfl, rfl⟩

/-- An access waits exactly while a command runs, and only where it reaches LMEM. -/
theorem stalls_access {s : State} {addr width : Nat} {v : BitVec 64} {m : Move}
    (hm : m ∈ [Move.read addr width, Move.write addr width v]) :
    s.stalls m = (s.status.busy && s.platform.reachesLmem addr width) := by
  simp only [List.mem_cons, List.not_mem_nil, or_false] at hm
  rcases hm with rfl | rfl <;> rfl

/-! ### What the window answers (R81, R88) -/

section Window

variable {s : State} {addr width : Nat}

theorem does_read_window (hp : s.platform.legal) (h : WindowAccess s.platform addr width) (hb : s.status.busy = false) :
    does s (.read addr width) =
      .next (answered s (BitVec.ofNat 64 (leValue (windowBytes s (addr - s.platform.lmemBase) width)))) := by
  have hst : s.stalls (.read addr width) = false := by simp [State.stalls, hb]
  rw [does_of_not_stalls hst nofun, State.hostMove, State.hostRead, route_window hp h]
  rfl

theorem does_write_window (hp : s.platform.legal) (h : WindowAccess s.platform addr width) (hb : s.status.busy = false)
    (v : BitVec 64) :
    does s (.write addr width v) = .next (s.writeWindow (addr - s.platform.lmemBase) width v) := by
  have hst : s.stalls (.write addr width v) = false := by simp [State.stalls, hb]
  rw [does_of_not_stalls hst nofun, State.hostMove, State.hostWrite, route_window hp h]

/-- The window finds the bytes LMEM holds. -/
theorem windowBytes_of_holds {a n : Nat} {bs : List Byte} (hl : bs.length = n) (h : s.holds a bs) :
    windowBytes s a n = bs := by
  subst hl
  refine List.ext_getElem (by simp [windowBytes]) fun j _ hj => ?_
  simp [windowBytes, h j hj, hj]

theorem does_read_of_holds (hp : s.platform.legal) (h : WindowAccess s.platform addr width)
    (hb : s.status.busy = false) {bs : List Byte} (hl : bs.length = width)
    (hbs : s.holds (addr - s.platform.lmemBase) bs) :
    does s (.read addr width) = .next (answered s (BitVec.ofNat 64 (leValue bs))) := by
  rw [does_read_window hp h hb, windowBytes_of_holds hl hbs]

/-- The first byte of a defined access is one by itself. -/
theorem windowAccess_first_byte {p : Platform} (h : WindowAccess p addr width) : WindowAccess p addr 1 := by
  have hpos := width_pos_of_windowAccess h
  obtain ⟨-, hlo, hhi, -⟩ := h
  exact ⟨by simp, hlo, by omega, Nat.mod_one _⟩

/-- A one-byte read of a byte with no value answers the free value of its address (R401, log 4). -/
theorem leValue_windowBytes_unwritten {a : Nat} (h : s.lmem.get? a = none) :
    BitVec.ofNat 64 (leValue (windowBytes s a 1)) = (Config.unwrittenByte a).setWidth 64 := by
  simp [windowBytes, leValue, h, ← BitVec.ofNat_toNat]

/-- A write of the window leaves its value's bytes, least significant first. -/
theorem holds_writeWindow (s : State) (a n : Nat) (v : BitVec 64) :
    (s.writeWindow a n v).holds a (leBytes n v.toNat) := holds_put s a (leBytes n v.toNat)

theorem get?_writeWindow_outside (s : State) {a n k : Nat} (v : BitVec 64) (h : ¬ (a ≤ k ∧ k < a + n)) :
    (s.writeWindow a n v).lmem.get? k = s.lmem.get? k :=
  Memory.get?_put_outside _ (by rwa [leBytes_length])

end Window

/-- Settles O15: while a command runs the access stalls, so the step is the completion; then the window's own answer. -/
theorem stalledAccessWaits : Obligations.StalledAccessWaits := by
  unfold Obligations.StalledAccessWaits
  intro s addr width v hp h
  refine ⟨fun hb m hm => ?_, fun hb => ⟨fun bs hl hbs => does_read_of_holds hp h hb hl hbs, does_read_window hp h hb,
    does_write_window hp h hb v⟩⟩
  have hst : s.stalls m = true := by rw [stalls_access hm, hb, reachesLmem_window hp h, Bool.and_self]
  have hwait : does s m = completion { s with schedule := m :: s.schedule } :=
    (does_of_stalls hst).trans (engineStep_of_busy hb)
  exact ⟨hwait, fun t ht => completion_next (hwait.symm.trans ht)⟩

/-! ### What is refused (R88) -/

theorem hostMove_refused_iff {s : State} {addr width : Nat} {v : BitVec 64} {m : Move}
    (hm : m ∈ [Move.read addr width, Move.write addr width v]) :
    (∃ r, s.hostMove m = .refused r) ↔ s.platform.route addr width = none := by
  simp only [List.mem_cons, List.not_mem_nil, or_false] at hm
  rcases hm with rfl | rfl
  · rw [State.hostMove, State.hostRead]
    split <;> simp [*]
  · rw [State.hostMove, State.hostWrite]
    split <;> simp [*]

/-- An access is refused exactly where it goes nowhere: one that stalls goes to LMEM, and the engine's step in its place is
never refused. -/
theorem does_refused_iff {s : State} {addr width : Nat} {v : BitVec 64} {m : Move}
    (hm : m ∈ [Move.read addr width, Move.write addr width v]) :
    (∃ r, does s m = .refused r) ↔ s.platform.route addr width = none := by
  cases hst : s.stalls m with
  | true =>
    have hreach : s.platform.reachesLmem addr width = true := by
      rw [stalls_access hm] at hst
      exact (Bool.and_eq_true_iff.mp hst).2
    rw [does_of_stalls hst]
    refine iff_of_false (fun ⟨r, hr⟩ => engineStep_not_refused _ r hr) fun hnone => ?_
    simp [Platform.reachesLmem, hnone] at hreach
  | false =>
    rw [does_of_not_stalls hst fun he => by simp [he] at hm]
    exact hostMove_refused_iff hm

/-- Settles O16: an access is refused exactly when its route is none. -/
theorem otherAccessesAreRefused : Obligations.OtherAccessesAreRefused := by
  unfold Obligations.OtherAccessesAreRefused
  exact fun s addr width v hp => ⟨(does_refused_iff (v := v) (by simp)).trans (route_eq_none_iff hp),
    (does_refused_iff (v := v) (by simp)).trans (route_eq_none_iff hp)⟩

/-- Settles O17: a write puts its bytes, and a read finds them there. -/
theorem windowReadsBackWrites : Obligations.WindowReadsBackWrites := by
  unfold Obligations.WindowReadsBackWrites
  intro s addr width v hp h hb
  have hput := holds_writeWindow s (addr - s.platform.lmemBase) width v
  refine ⟨fun bs hl hbs => does_read_of_holds hp h hb hl hbs,
    ⟨_, does_write_window hp h hb v, hput, ?_, fun a ha => get?_writeWindow_outside s v ?_⟩,
    ⟨_, does_read_window hp h hb, does_read_window (s := answered s _) hp h hb⟩, fun hnone => ?_⟩
  · rw [← leValue_leBytes]
    exact does_read_of_holds (s := s.writeWindow _ _ _) hp h hb (leBytes_length width v.toNat) hput
  · obtain ⟨-, hlo, -⟩ := h
    omega
  · rw [does_read_window hp (windowAccess_first_byte h) hb, leValue_windowBytes_unwritten hnone]

/-! ### Where a command writes (R82, R353) -/

/-- An error in the execute phase leaves every byte outside the dst region. -/
theorem failExecute_lmem_outside {s : State} {i : Instr} {a : Nat} (e : ErrCode)
    (ha : ∀ r, dstRegion i s.latch.args = some r → ¬ (r.start ≤ a ∧ a < r.start + r.len)) :
    (s.failExecute i e).lmem.get? a = s.lmem.get? a := by
  cases hd : drawsOnError i with
  | false => rw [State.failExecute_lmem_of_not hd]
  | true =>
    cases hr : dstRegion i s.latch.args with
    | none => simp [State.failExecute, State.drawDst, hr]
    | some r =>
      rw [State.failExecute_lmem_of_draws hd hr]
      refine Memory.get?_put_outside _ fun hin => ha r hr ?_
      rw [drawBytes_length] at hin
      have := r.lenIn_le s.platform.lmemSize
      omega

/-- A success leaves every byte outside the dst region. -/
theorem succeed_lmem_outside {s : State} {i : Instr} {eff : Effect} {a : Nat} (hb : commandBody i s = .ok eff)
    (ha : ∀ r, dstRegion i s.latch.args = some r → ¬ (r.start ≤ a ∧ a < r.start + r.len)) :
    (s.succeed eff).lmem.get? a = s.lmem.get? a := by
  refine Memory.get?_put_outside _ fun hin => ?_
  rcases commandBody_bytes hb with h0 | ⟨r, hr, hbase, hlen⟩
  · omega
  · exact ha r hr (by omega)

/-- Settles O22: a failed check writes nothing, a success and an execute-phase error write in the dst region alone. -/
theorem commandsWriteOnlyTheirDst : Obligations.CommandsWriteOnlyTheirDst := by
  unfold Obligations.CommandsWriteOnlyTheirDst
  intro s t i h a ha
  obtain ⟨e, -, -, rfl⟩ | ⟨eff, -, hb, rfl⟩ | ⟨e, -, -, -, rfl⟩ := exec_next_cases h
  · rw [State.failCommand_lmem]
  · exact succeed_lmem_outside hb ha
  · exact failExecute_lmem_outside e ha

end Sys2Proof.Proofs
end

section
/-! Proofs for 30_encoding.md: the immediates of the opcode map and the fields of a word, so what decodes and what is
illegal; then WAIT, CHECK and the register writes a pseudo-instruction expands into. -/

namespace Sys2Proof.Proofs

open Sys2Proof.Machine Sys2Proof.Statements

/-! ### The immediate of a command (R121) -/

theorem modeOfCode_code (m : Mode) : modeOfCode m.code = some m := by cases m <;> rfl

theorem code_of_modeOfCode {imm : Nat} {m : Mode} (h : modeOfCode imm = some m) : m.code = imm := by
  unfold modeOfCode at h
  split at h <;> cases h <;> rfl

theorem modeOfCode_eq_none_iff {imm : Nat} : modeOfCode imm = none ↔ 4 ≤ imm := by
  match imm with
  | 0 | 1 | 2 | 3 => decide
  | n + 4 => exact iff_of_true rfl (Nat.le_add_left 4 n)

theorem noImmediate_ok {imm : Nat} {i j : Instr} (h : noImmediate imm i = .ok j) : imm = 0 ∧ i = j := by
  unfold noImmediate at h
  split at h
  next h0 => exact ⟨h0, Except.ok.inj h⟩
  next => cases h

theorem flagImmediate_ok {imm : Nat} {f : Bool → Instr} {j : Instr} (h : flagImmediate imm f = .ok j) :
    ∃ ct, imm = (if ct then 1 else 0) ∧ f ct = j := by
  unfold flagImmediate at h
  split at h
  · exact ⟨false, rfl, Except.ok.inj h⟩
  · exact ⟨true, rfl, Except.ok.inj h⟩
  · cases h

theorem modeImmediate_ok {imm : Nat} {f : Mode → Instr} {j : Instr} (h : modeImmediate imm f = .ok j) :
    ∃ m, imm = m.code ∧ f m = j := by
  unfold modeImmediate at h
  split at h
  next m hm => exact ⟨m, (code_of_modeOfCode hm).symm, Except.ok.inj h⟩
  next => cases h

theorem noImmediate_error_iff {imm : Nat} {i : Instr} : (∃ e, noImmediate imm i = .error e) ↔ imm ≠ 0 := by
  unfold noImmediate
  split <;> simp [*]

theorem flagImmediate_error_iff {imm : Nat} {f : Bool → Instr} : (∃ e, flagImmediate imm f = .error e) ↔ 2 ≤ imm := by
  match imm with
  | 0 | 1 => simp [flagImmediate]
  | n + 2 => exact iff_of_true ⟨_, rfl⟩ (Nat.le_add_left 2 n)

theorem modeImmediate_error_iff {imm : Nat} {f : Mode → Instr} : (∃ e, modeImmediate imm f = .error e) ↔ 4 ≤ imm := by
  rw [← modeOfCode_eq_none_iff, modeImmediate]
  cases modeOfCode imm <;> simp

/-! ### The opcode map (R123) -/

theorem decodeFields_opcode_immediate (i : Instr) : decodeFields i.opcode i.immediate = .ok i := by
  cases i with
  | tbuild ct => cases ct <;> rfl
  | subs m | ups m => simp [Instr.opcode, Instr.immediate, decodeFields, modeImmediate, modeOfCode_code]
  | _ => rfl

/-- The fields the map reads as a command are that command's own. -/
theorem fields_of_decodeFields {op imm : Nat} {i : Instr} (h : decodeFields op imm = .ok i) :
    i.opcode = op ∧ i.immediate = imm := by
  match op, h with
  | 0x00, h | 0x01, h | 0x02, h | 0x06, h | 0x07, h | 0x08, h | 0x0A, h | 0x0B, h =>
    obtain ⟨rfl, rfl⟩ := noImmediate_ok h
    exact ⟨rfl, rfl⟩
  | 0x03, rfl | 0x04, rfl | 0x05, rfl => exact ⟨rfl, rfl⟩
  | 0x09, h =>
    obtain ⟨ct, rfl, rfl⟩ := flagImmediate_ok h
    exact ⟨rfl, rfl⟩
  | 0x0C, h | 0x0D, h =>
    obtain ⟨m, rfl, rfl⟩ := modeImmediate_ok h
    exact ⟨rfl, rfl⟩

/-- The map refuses the reserved opcodes, and an immediate with a bit that must be 0 (R124). -/
theorem decodeFields_error_iff {op imm : Nat} :
    (∃ e, decodeFields op imm = .error e) ↔
      0x0E ≤ op ∨ (op ∈ [0x00, 0x01, 0x02, 0x06, 0x07, 0x08, 0x0A, 0x0B] ∧ imm ≠ 0) ∨ (op = 0x09 ∧ 2 ≤ imm) ∨
        (op ∈ [0x0C, 0x0D] ∧ 4 ≤ imm) := by
  match op with
  | 0x00 | 0x01 | 0x02 | 0x06 | 0x07 | 0x08 | 0x0A | 0x0B => simp [decodeFields, noImmediate_error_iff]
  | 0x03 | 0x04 | 0x05 => simp [decodeFields]
  | 0x09 => simp [decodeFields, flagImmediate_error_iff]
  | 0x0C | 0x0D => simp [decodeFields, modeImmediate_error_iff]
  | n + 0x0E => exact iff_of_true ⟨_, rfl⟩ (.inl (Nat.le_add_left 0x0E n))

/-! ### The command word (R120) -/

theorem opcode_lt (i : Instr) : i.opcode < 256 := by cases i <;> simp [Instr.opcode]

/-- A command is well formed exactly when its immediate fits IMM. -/
theorem immediate_lt_iff_wf (i : Instr) : i.immediate < 256 ↔ i.wf = true := by
  cases i with
  | qtab | quant | dequant => exact decide_eq_true_iff.symm
  | tbuild ct => cases ct <;> decide
  | subs m | ups m => exact iff_of_true (Laws.Mode_code_lt m) rfl
  | _ => decide

/-- Settles O1: the word of a command that fits has the command's fields, and the opcode map reads them back. -/
theorem decodeInvertsEncode : Obligations.DecodeInvertsEncode := by
  unfold Obligations.DecodeInvertsEncode
  intro i hwf
  obtain ⟨hop, himm, hrsv⟩ := Laws.word_fields_of_fit _ _ (opcode_lt i) ((immediate_lt_iff_wf i).mpr hwf)
  rw [decode, encode, hop, himm, if_pos hrsv, decodeFields_opcode_immediate]

theorem decode_ok {w : Word} {i : Instr} (h : decode w = .ok i) :
    rsvField w = 0 ∧ i.opcode = opField w ∧ i.immediate = immField w := by
  unfold decode at h
  split at h
  next hrsv => exact ⟨hrsv, fields_of_decodeFields h⟩
  next => cases h

/-- Settles O2: the command has the word's fields, and they make the word up. -/
theorem encodeInvertsDecode : Obligations.EncodeInvertsDecode := by
  unfold Obligations.EncodeInvertsDecode
  intro w i h
  obtain ⟨hrsv, hop, himm⟩ := decode_ok h
  refine ⟨(immediate_lt_iff_wf i).mp (himm ▸ Nat.mod_lt _ (by decide)), BitVec.eq_of_toNat_eq ?_⟩
  simp only [encode, hop, himm, BitVec.toNat_ofNat, opField, immField, rsvField] at hrsv ⊢
  omega

/-- Settles O3: each word, read by the decoder. -/
theorem opcodeWordsDecode : Obligations.OpcodeWordsDecode := by
  unfold Obligations.OpcodeWordsDecode
  decide

/-! ### Illegal words (R124) -/

theorem decode_error_iff {w : Word} :
    (∃ e, decode w = .error e) ↔ rsvField w ≠ 0 ∨ ∃ e, decodeFields (opField w) (immField w) = .error e := by
  unfold decode
  split <;> simp [*]

theorem extractLsb'_ne_zero_iff {w : Word} {k n : Nat} : w.extractLsb' k n ≠ 0 ↔ w.toNat / 2 ^ k % 2 ^ n ≠ 0 := by
  rw [Ne, ← BitVec.toNat_inj, BitVec.extractLsb'_toNat, Nat.shiftRight_eq_div_pow]
  simp

theorem extractLsb'_op (w : Word) : (w.extractLsb' 0 8).toNat = opField w := by
  rw [BitVec.extractLsb'_toNat]
  rfl

theorem extractLsb'_imm (w : Word) : w.extractLsb' 8 8 ≠ 0 ↔ immField w ≠ 0 := extractLsb'_ne_zero_iff

theorem extractLsb'_rsv (w : Word) : w.extractLsb' 16 16 ≠ 0 ↔ rsvField w ≠ 0 := by
  rw [extractLsb'_ne_zero_iff, rsvField]
  omega

/-- IMM bits 7:1. -/
theorem extractLsb'_flagBits (w : Word) : w.extractLsb' 9 7 ≠ 0 ↔ 2 ≤ immField w := by
  rw [extractLsb'_ne_zero_iff, immField]
  omega

/-- IMM bits 7:2. -/
theorem extractLsb'_modeBits (w : Word) : w.extractLsb' 10 6 ≠ 0 ↔ 4 ≤ immField w := by
  rw [extractLsb'_ne_zero_iff, immField]
  omega

theorem qualityError_of_illegal {q : Nat} (h : q < 1 ∨ 100 < q) : qualityError q = some .quality :=
  if_neg (by omega)

/-- The argument check comes first of the prechecks (R351). -/
theorem exec_argError {i : Instr} {s : State} {e : ErrCode} (h : argError i s.latch.args = some e) :
    exec i s = .next (s.failCommand i e) := by
  rw [exec_eq]
  exact runCommand_of_precheck (by rw [precheck, h])

/-- Settles O4: the fields the decoder refuses, and what CMD, the engine and the quality check answer. -/
theorem illegalWords : Obligations.IllegalWords := by
  unfold Obligations.IllegalWords
  refine ⟨fun w => ?_, commandRegisters.1, fun s e => does_engine_illegal, fun s q hq => ?_⟩
  · rw [decode_error_iff, decodeFields_error_iff, extractLsb'_op, extractLsb'_imm, extractLsb'_rsv,
      extractLsb'_flagBits, extractLsb'_modeBits]
    exact or_left_comm
  · have he := qualityError_of_illegal hq
    exact ⟨exec_argError (i := .qtab q) he, exec_argError (i := .quant q) he, exec_argError (i := .dequant q) he⟩

/-! ### WAIT and CHECK (R126) -/

/-- WAIT is held exactly while a command runs. -/
theorem does_wait_of_idle {s : State} (h : s.status.busy = false) : does s .wait = .next (answeredWord s s.statusWord) :=
  does_of_not_stalls (m := .wait) h nofun

theorem does_wait_of_busy {s : State} (h : s.status.busy = true) :
    does s .wait = completion { s with schedule := .wait :: s.schedule } :=
  (does_of_stalls (m := .wait) h).trans (engineStep_of_busy h)

theorem does_check (s : State) : does s .check = .next s.hostCheck := does_of_not_stalls rfl nofun

/-- Settles O18: WAIT by BUSY, and CHECK by ERRCODE. -/
theorem waitAndCheck : Obligations.WaitAndCheck := by
  unfold Obligations.WaitAndCheck
  refine fun s => ⟨does_wait_of_busy, fun hb => ⟨_, does_wait_of_idle hb, ?_⟩, fun h0 => ?_, fun hne => ?_⟩
  · obtain ⟨hbusy, -⟩ := statusWord_bits s
    rw [hbusy, hb]
  · rw [does_check, State.hostCheck, if_pos h0]
    rfl
  · rw [does_check, State.hostCheck, if_neg hne]
    rfl

/-! ### Runs of register writes -/

/-- The moves `W REG, v`, one for each offset and value. -/
def regWriteMoves (p : Platform) (ws : List (Nat × Word)) : List Move := ws.map fun w => p.writeRegMove w.1 w.2

/-- The writes' effect, first one first. -/
def writeRegs (s : State) (ws : List (Nat × Word)) : State := ws.foldl (fun t w => t.writeReg w.1 w.2) s

theorem writeRegs_concat (s : State) (ws : List (Nat × Word)) (off : Nat) (v : Word) :
    writeRegs s (ws ++ [(off, v)]) = (writeRegs s ws).writeReg off v := List.foldl_concat ..

theorem run_succ_of_step {s t : State} (h : step s = .next t) (k : Nat) :
    Sys2Proof.core.run (k + 1) s = Sys2Proof.core.run k t := by
  have hstep : Sys2Proof.core.step s = .next t := h
  simp only [Host.Core.run, hstep]

theorem writeReg_platform (s : State) (off : Nat) (v : Word) : (s.writeReg off v).platform = s.platform :=
  (registerWrite_writeReg s off v).platform

/-- No register write looks at the moves to come. -/
theorem writeReg_withSchedule (s : State) (ms : List Move) (off : Nat) (v : Word) :
    (s.withSchedule ms).writeReg off v = (s.writeReg off v).withSchedule ms := by
  have hreset : (s.withSchedule ms).softReset = s.softReset.withSchedule ms := by
    rw [softReset_eq, softReset_eq]
    rfl
  unfold State.writeReg
  split
  case h_1 =>
    rw [hreset, apply_ite (State.withSchedule · ms)]
    rfl
  case h_3 | h_8 | h_9 =>
    rw [apply_ite (State.withSchedule · ms)]
    rfl
  all_goals rfl

/-- The moves make the writes one after another, each one step, whatever BUSY is. -/
theorem run_regWriteMoves (rest : List Move) {ws : List (Nat × Word)} (hws : ∀ w ∈ ws, w.1 < 256 ∧ w.1 % 4 = 0)
    {s t : State} (ht : writeRegs s ws = t) :
    Sys2Proof.core.run ws.length (s.withSchedule (regWriteMoves s.platform ws ++ rest)) = .next (t.withSchedule rest) := by
  induction ws generalizing s with
  | nil =>
    subst ht
    rfl
  | cons w ws ih =>
    obtain ⟨⟨hlt, hal⟩, htail⟩ := List.forall_mem_cons.mp hws
    have hstep := writes_eq (s.withSchedule (regWriteMoves s.platform ws ++ rest)) w.2 hlt hal
    have hrun := ih (s := s.writeReg w.1 w.2) htail ht
    rw [writeReg_withSchedule] at hstep
    rw [writeReg_platform] at hrun
    exact (run_succ_of_step (s := s.withSchedule (regWriteMoves s.platform (w :: ws) ++ rest)) hstep _).trans hrun

/-! ### The registers a pseudo-instruction writes (R35, R36, R38) -/

theorem writeReg_cmd_of_idle {s : State} (w : Word) (h : s.status.busy = false) : s.writeReg offCmd w = accepted s w :=
  if_neg (by simp [h])

theorem writeReg_prevDcEnc_of_idle {s : State} (v : Word) (h : s.status.busy = false) :
    s.writeReg offPrevDcEnc v = s.withPrevDcEnc v := if_neg (by simp [h])

theorem writeReg_prevDcDec_of_idle {s : State} (v : Word) (h : s.status.busy = false) :
    s.writeReg offPrevDcDec v = s.withPrevDcDec v := if_neg (by simp [h])

/-- The word ACK writes has bit 1 set, and not bit 5. -/
theorem writeReg_status_ack (s : State) :
    s.writeReg offStatus 0x00000002 = s.withStatus { s.status with done := false } :=
  congrArg s.withStatus (status_write_eq s.status 0x00000002)

/-! ### Pseudo-instructions (R127) -/

/-- The writes of a command's operands, ARG0 first. -/
def operandWrites (ops : List Word) : List (Nat × Word) := [offArg0, offArg1, offArg2, offArg3].zip ops

theorem issue_eq (p : Platform) (i : Instr) (ops : List Word) :
    p.issue i ops = regWriteMoves p (operandWrites ops ++ [(offCmd, encode i)]) ++ [.wait] := by
  rw [Platform.issue, regWriteMoves, List.map_append, List.append_assoc, operandWrites, List.map_zip_eq_zipWith]
  rfl

theorem operandWrites_length {ops : List Word} (h : ops.length ≤ 4) : (operandWrites ops).length = ops.length := by
  simpa [operandWrites] using h

theorem operandWrites_aligned {ops : List Word} : ∀ w ∈ operandWrites ops, w.1 < 256 ∧ w.1 % 4 = 0 := by
  have hoff : ∀ off ∈ [offArg0, offArg1, offArg2, offArg3], off < 256 ∧ off % 4 = 0 := by decide
  exact fun w hw => hoff w.1 (List.of_mem_zip hw).1

/-- Operands the command does not name keep their ARG registers. -/
theorem writeRegs_operandWrites (s : State) {ops : List Word} (h : ops.length ≤ 4) :
    writeRegs s (operandWrites ops) =
      s.withArgs ⟨ops.getD 0 s.args.a0, ops.getD 1 s.args.a1, ops.getD 2 s.args.a2, ops.getD 3 s.args.a3⟩ := by
  match ops, h with
  | [], _ | [_], _ | [_, _], _ | [_, _, _], _ | [_, _, _, _], _ => rfl

/-- The moves of a command leave its operands in ARG0 and on, its word accepted, and WAIT to come. -/
theorem run_issue {s : State} (i : Instr) {ops : List Word} (h : ops.length ≤ 4) (hb : s.status.busy = false) :
    Sys2Proof.core.run (ops.length + 1) (s.withSchedule (s.platform.issue i ops)) =
      .next ((accepted (s.withArgs ⟨ops.getD 0 s.args.a0, ops.getD 1 s.args.a1, ops.getD 2 s.args.a2,
        ops.getD 3 s.args.a3⟩) (encode i)).withSchedule [.wait]) := by
  have hws : ∀ w ∈ operandWrites ops ++ [(offCmd, encode i)], w.1 < 256 ∧ w.1 % 4 = 0 :=
    List.forall_mem_append.mpr ⟨operandWrites_aligned, by simp [offCmd]⟩
  have hwrites := writeRegs_concat s (operandWrites ops) offCmd (encode i)
  rw [writeRegs_operandWrites s h] at hwrites
  have hrun := run_regWriteMoves [.wait] hws (hwrites.trans (writeReg_cmd_of_idle _ hb))
  rwa [← issue_eq, List.length_append, operandWrites_length h] at hrun

theorem completion_of_decode {s : State} {i : Instr} (h : decode s.latch.cmd = .ok i) : completion s = exec i s := by
  rw [completion, h]

/-- With WAIT to come, the step after a command's acceptance is its completion. -/
theorem step_accepted_wait {s : State} {w : Word} {i : Instr} (h : decode w = .ok i) :
    step ((accepted s w).withSchedule [.wait]) = exec i ((accepted s w).withSchedule [.wait]) :=
  (does_wait_of_busy (s := (accepted s w).withSchedule []) rfl).trans (completion_of_decode h)

theorem encode_eq (i : Instr) : encode i = BitVec.ofNat 32 (256 * i.immediate + i.opcode) := by
  rw [encode, Nat.mul_comm]

theorem modeCode_eq (m : Mode) : modeCode m = m.code := by cases m <;> rfl

/-- The expansion of a command in the table's own terms: its operand registers, then its word. -/
theorem issue_eq_regWrites (p : Platform) (i : Instr) (ops : List Word) :
    p.issue i ops = List.zipWith (regWrite p) [0x10, 0x14, 0x18, 0x1C] ops ++
      [regWrite p 0x0C (BitVec.ofNat 32 (256 * i.immediate + i.opcode)), .wait] := by
  rw [← encode_eq]
  rfl

/-- Settles O19: runs of register writes, then WAIT held by the command it waits for. -/
theorem pseudoInstructionIssuesItsCommand : Obligations.PseudoInstructionIssuesItsCommand := by
  unfold Obligations.PseudoInstructionIssuesItsCommand
  refine ⟨fun s i ops hwf hlen hb _ => ⟨_, run_issue i hlen hb, rfl, step_accepted_wait (decodeInvertsEncode i hwf)⟩,
    fun p a b c d q m => ?_, fun s w hb => ?_, fun s e d hb => ?_, fun s => ?_⟩
  · simp only [modeCode_eq]
    have h := issue_eq_regWrites p
    exact ⟨h .nop _, h .fdct _, h .idct _, h (.qtab q) _, h (.quant q) _, h (.dequant q) _, h .zzenc _, h .zzdec _,
      h .hist _, h (.tbuild false) _, h (.tbuild true) _, h .henc _, h .hdec _, h (.subs m) _, h (.ups m) _,
      rfl, rfl, rfl⟩
  · exact run_regWriteMoves [.wait] (ws := [(offCmd, w)]) (by simp [offCmd]) (writeReg_cmd_of_idle w hb)
  · have hwrites : (s.writeReg offPrevDcEnc e).writeReg offPrevDcDec d = (s.withPrevDcEnc e).withPrevDcDec d := by
      rw [writeReg_prevDcEnc_of_idle e hb]
      exact writeReg_prevDcDec_of_idle d hb
    exact run_regWriteMoves [] (ws := [(offPrevDcEnc, e), (offPrevDcDec, d)])
      (by simp [offPrevDcEnc, offPrevDcDec]) hwrites
  · exact run_regWriteMoves [] (ws := [(offStatus, 0x00000002)]) (by decide) (writeReg_status_ack s)

end Sys2Proof.Proofs
end

section
/-! Proofs for 40_block_transform.md: what a command answers, given its checks and its execute phase; the sums of R163
and R164 over 64 elements and over 8 rows of 8; and why no sum of R163 is scaled down to -0.0. -/

namespace Sys2Proof.Proofs

open Sys2Proof.Machine Sys2Proof.Statements

/-! ### What a command answers, as the statements say it (R351 to R355) -/

/-- Step 3 of the check order, once step 2 has passed (R351). -/
theorem precheck_range {i : Instr} {s : State} (harg : argError i s.latch.args = none)
    (hin : ¬ ∀ r ∈ regions i s.latch.args, r.start + r.len ≤ s.platform.lmemSize) : precheck i s = some .range := by
  have hin' : ¬ (regions i s.latch.args).all (Region.inRange s.platform.lmemSize) = true := by
    simpa [Region.inRange] using hin
  rw [precheck, harg]
  exact if_neg hin'

/-- Step 4 of the check order, once steps 2 and 3 have passed (R351). -/
theorem precheck_align {i : Instr} {s : State} (harg : argError i s.latch.args = none)
    (hin : ∀ r ∈ regions i s.latch.args, r.start + r.len ≤ s.platform.lmemSize)
    (hal : ¬ ∀ r ∈ regions i s.latch.args, r.start % r.align = 0) : precheck i s = some .align := by
  have hin' : (regions i s.latch.args).all (Region.inRange s.platform.lmemSize) = true := by
    simpa [Region.inRange] using hin
  have hal' : ¬ (regions i s.latch.args).all Region.aligned = true := by
    simpa [Region.aligned] using hal
  rw [precheck, harg]
  exact (if_pos hin').trans (if_neg hal')

/-- A command other than TBUILD that fails a check. -/
theorem exec_failed {i : Instr} {s : State} {e : ErrCode} (hi : dropsTree i = false) (hp : precheck i s = some e) :
    exec i s = .next (failed s e.code) := by
  rw [exec_eq, runCommand_of_precheck hp, State.failCommand, hi]
  rfl

/-- A command that stages its output and raises a code in its execute phase, other than TBUILD. -/
theorem exec_raised {i : Instr} {s : State} {e : ErrCode} (hi : dropsTree i = false) (hd : drawsOnError i = false)
    (hp : precheck i s = none) (hb : commandBody i s = .error (.raise e)) : exec i s = .next (failed s e.code) := by
  rw [exec_eq, runCommand_of_raise hp hb, State.failExecute, hd, State.failCommand, hi]
  rfl

/-- A command that succeeds without a side effect. -/
theorem exec_succeeded {i : Instr} {s : State} {r0 r1 a : Nat} {bs : List Byte} (hp : precheck i s = none)
    (hb : commandBody i s = .ok (plainEffect r0 r1 a bs)) : exec i s = .next (succeeded s r0 r1 a bs) := by
  rw [exec_eq, runCommand_of_ok hp hb (commandBody_within hp hb)]
  rfl

/-! ### The sums over 64 elements (R163, R164) -/

/-- The terms of a block added in the order of R163 and R164, the row x outer and the column y inner. -/
def blockSum (t : Nat → Nat → Double) : Double :=
  (List.range 8).foldl (fun s x => (List.range 8).foldl (fun s y => f64Add s (t x y)) s) 0

/-- What holds of +0.0 and is kept by adding any term holds of the sum. -/
theorem blockSum_induction {P : Double → Prop} {t : Nat → Nat → Double} (h0 : P 0)
    (hadd : ∀ s x y, P s → P (f64Add s (t x y))) : P (blockSum t) :=
  List.foldlRecOn _ _ h0 fun _ hs x _ => List.foldlRecOn _ _ hs fun s hs y _ => hadd s x y hs

/-- A fold over the element index is one over the rows, and in each over its columns. -/
theorem foldl_range_64 {β : Type} (f : β → Nat → Nat → β) (b : β) :
    (List.range 64).foldl (fun s i => f s (i / 8) (i % 8)) b =
      (List.range 8).foldl (fun s x => (List.range 8).foldl (fun s y => f s x y) s) b := rfl

theorem blockSum_eq_foldl (t : Nat → Nat → Double) :
    (List.range 64).foldl (fun s i => f64Add s (t (i / 8) (i % 8))) 0 = blockSum t :=
  foldl_range_64 (fun s x y => f64Add s (t x y)) 0

/-- A block by the element index is the block row by row. -/
theorem map_range_64 {β : Type} (f : Nat → Nat → β) :
    (List.range 64).map (fun k => f (k / 8) (k % 8)) =
      (List.range 8).flatMap fun x => (List.range 8).map fun y => f x y := rfl

/-- The term of R163's sum for the element in row x and column y. -/
def fdctTerm (b : List Int) (u v x y : Nat) : Double :=
  f64Mul (f64Mul (f64OfInt (b.getD (8 * x + y) 0)) (cosOf x u)) (cosOf y v)

/-- The term of R164's sum for the element in row u and column v. -/
def idctTerm (f : List Double) (x y u v : Nat) : Double :=
  f64Mul (f64Mul (f64Mul (f64Mul (cuOf u) (cuOf v)) (f.getD (8 * u + v) 0)) (cosOf x u)) (cosOf y v)

theorem fdctSum_eq (b : List Int) (u v : Nat) : fdctSum b u v = blockSum (fdctTerm b u v) := rfl

theorem idctSum_eq (f : List Double) (x y : Nat) : idctSum f x y = blockSum (idctTerm f x y) := rfl

/-- R161's table by its symmetries is R161's table written out. -/
theorem cosTable_eq : ∀ m < 32, cosTable m = cosines.getD m 0 := by decide

theorem cosKernel_eq (x u : Nat) : cosKernel x u = cosOf x u := cosTable_eq _ (Nat.mod_lt _ (by decide))

theorem scaleCU_eq (u : Nat) : scaleCU u = cuOf u := by cases u <;> rfl

/-- The factor before the sum of R163. -/
def fdctScale (u v : Nat) : Double := f64Mul (f64Mul f64Quarter (cuOf u)) (cuOf v)

theorem fdctOut_eq (b : List Int) : fdctOut b =
    (List.range 8).flatMap fun u => (List.range 8).map fun v => f64Mul (fdctScale u v) (fdctSum b u v) := rfl

theorem fdctCoefficient_eq (b : List Int) (u v : Nat) :
    fdctCoefficient b u v = f64Mul (fdctScale u v) (fdctSum b u v) := by
  rw [fdctSum_eq, ← blockSum_eq_foldl]
  simp only [fdctCoefficient, fdctScale, fdctTerm, cosKernel_eq, scaleCU_eq, Nat.div_add_mod]

theorem idctSample_eq (f : List Double) (x y : Nat) : idctSample f x y = f64Mul f64Quarter (idctSum f x y) := by
  rw [idctSum_eq, ← blockSum_eq_foldl]
  simp only [idctSample, idctTerm, cosKernel_eq, scaleCU_eq, Nat.div_add_mod]

theorem fdctBlock_eq (b : List Int) : fdctBlock b = fdctOut b := by
  rw [fdctBlock, map_range_64, fdctOut_eq]
  simp only [fdctCoefficient_eq]

theorem idctBlock_eq (f : List Double) : idctBlock f = idctOut f := by
  rw [idctBlock, map_range_64, idctOut]
  simp only [idctSample_eq, f64Quarter]

/-! ### The execute phases (R163, R164) -/

theorem fdctBody_of_holds {s : State} {b : List Int} (h : s.holdsI32Block (larg0 s) b) :
    commandBody .fdct s = .ok (plainEffect 0 0 (larg1 s) ((fdctOut b).flatMap f64Bytes)) := by
  simp only [commandBody, fdctBody, readI32Block_of_holds h, fdctBlock_eq]

theorem idctBody_of_holds {s : State} {f : List Double} (h : s.holdsF64Block (larg0 s) f) :
    commandBody .idct s =
      if f.all f64Finite ∧ (idctOut f).all f64Finite then
        .ok (plainEffect 0 0 (larg1 s) ((idctOut f).flatMap fun x => i32Bytes (sat32 (rhaz x))))
      else .error (.raise .nonFinite) := by
  simp only [commandBody, idctBody, readF64Block_of_holds h, idctBlock_eq, ite_and]

/-! ### Results that are not finite (R8, log 12) -/

theorem f64Finite_iff {x : Double} : f64Finite x = true ↔ f64IsNan x = false ∧ f64IsInf x = false := by
  refine ⟨f64Finite_not_special, fun ⟨hn, hi⟩ => ?_⟩
  by_contra hx
  have hexp : f64Exp x = 2047 := by simpa [f64Finite] using hx
  rw [f64IsNan, hexp] at hn
  rw [f64IsInf, hexp] at hi
  simp_all

theorem not_finite_of_isInf {x : Double} (h : f64IsInf x = true) : ¬ f64Finite x = true := by
  intro hx
  rw [(f64Finite_not_special hx).2] at h
  cases h

theorem not_finite_nan : ¬ f64Finite f64Nan = true := by decide

theorem not_all_finite {l : List Double} (h : ∃ x ∈ l, f64Finite x = false) : ¬ l.all f64Finite = true := by
  intro hall
  obtain ⟨x, hx, hfin⟩ := h
  rw [List.all_eq_true.mp hall x hx] at hfin
  cases hfin

/-- A sum is finite only where both operands are. -/
theorem f64Finite_of_f64Add {x y : Double} (h : f64Finite (f64Add x y) = true) :
    f64Finite x = true ∧ f64Finite y = true := by
  unfold f64Add at h
  split at h
  next => exact absurd h not_finite_nan
  next hnan =>
    simp only [not_or, Bool.not_eq_true] at hnan
    split at h
    next hx =>
      split at h
      next => exact absurd h not_finite_nan
      next => exact absurd h (not_finite_of_isInf hx)
    next hx =>
      split at h
      next hy => exact absurd h (not_finite_of_isInf hy)
      next hy =>
        rw [Bool.not_eq_true] at hx hy
        exact ⟨f64Finite_iff.mpr ⟨hnan.1, hx⟩, f64Finite_iff.mpr ⟨hnan.2, hy⟩⟩

/-- A product is finite only where both factors are. -/
theorem f64Finite_of_f64Mul {x y : Double} (h : f64Finite (f64Mul x y) = true) :
    f64Finite x = true ∧ f64Finite y = true := by
  simp only [f64Mul, ← infinity_eq_make] at h
  split at h
  next => exact absurd h not_finite_nan
  next hnan =>
    simp only [not_or, Bool.not_eq_true] at hnan
    split at h
    next =>
      split at h
      next => exact absurd h not_finite_nan
      next => exact absurd h (by simp)
    next hinf =>
      simp only [not_or, Bool.not_eq_true] at hinf
      exact ⟨f64Finite_iff.mpr ⟨hnan.1, hinf.1⟩, f64Finite_iff.mpr ⟨hnan.2, hinf.2⟩⟩

/-! ### Results that are not -0.0 (R163) -/

theorem f64Make_eq_negative_zero_iff {neg : Bool} {n d : Nat} :
    f64Make neg (roundMag n d) = 0x8000000000000000 ↔ neg = true ∧ roundMag n d = 0 := by
  have hlt : roundMag n d < 2 ^ 63 := Nat.lt_of_le_of_lt (roundMag_le n d) (by decide)
  have h63 : (0x8000000000000000 : Double).toNat = 2 ^ 63 := rfl
  rw [← BitVec.toNat_inj, f64Make_toNat neg hlt, h63]
  cases neg with
  | false => simp only [Bool.false_eq_true, if_false, false_and, iff_false]; omega
  | true => simp

theorem lt_of_roundMag_eq_zero {n d : Nat} (hd : 0 < d) (h : roundMag n d = 0) : n < d := by
  by_contra hn
  have := roundMag_pos hd (Nat.not_lt.mp hn)
  omega

/-- A sum is -0.0 only where both operands are: it is exact where it is that small. -/
theorem f64Add_ne_negative_zero {x : Double} (hx : x ≠ 0x8000000000000000) (y : Double) :
    f64Add x y ≠ 0x8000000000000000 := by
  intro h
  obtain ⟨hxf, hyf⟩ := f64Finite_of_f64Add (x := x) (y := y) (by rw [h]; decide)
  rw [f64Add_finite hxf hyf, f64Make_eq_negative_zero_iff] at h
  obtain ⟨hneg, hmag⟩ := h
  have hsum : f64Units x + f64Units y = 0 := by
    have := lt_of_roundMag_eq_zero Nat.one_pos hmag
    omega
  rw [if_pos hsum, Bool.and_eq_true] at hneg
  simp only [f64Units, hneg, if_true] at hsum
  exact hx (eq_negative_zero hneg.1 (by omega))

theorem f64Mag_zero : f64Mag 0 = 0 := by decide

/-- The magnitude of x is a multiple of 2^k units. Of an x that is not finite this says nothing, so that every operation
keeps it even where it overflows. -/
def Multiple (k : Nat) (x : Double) : Prop := f64Finite x = true → 2 ^ k ∣ f64Mag x

theorem multiple_round {k n d : Nat} (neg : Bool) (hd : 0 < d) (h : 2 ^ k * d ∣ n) :
    Multiple k (f64Make neg (roundMag n d)) := by
  obtain ⟨a, rfl⟩ := h
  have e : 2 ^ k * d * a = a * 2 ^ k * d := by ac_rfl
  rw [e]
  exact f64Mag_round_dvd neg a k hd

theorem multiple_f64OfInt (n : Int) : Multiple 1074 (f64OfInt n) :=
  multiple_round _ Nat.one_pos (by rw [Nat.mul_one]; exact Nat.dvd_mul_left _ _)

theorem multiple_f64Mul {j k m : Nat} (hm : m + 1074 = j + k) {x y : Double} (hx : Multiple j x) (hy : Multiple k y) :
    Multiple m (f64Mul x y) := by
  intro h
  obtain ⟨hxf, hyf⟩ := f64Finite_of_f64Mul h
  rw [f64Mul_finite hxf hyf] at h ⊢
  refine multiple_round _ (by positivity) ?_ h
  rw [← Nat.pow_add, hm, Nat.pow_add]
  exact Nat.mul_dvd_mul (hx hxf) (hy hyf)

theorem dvd_f64Units_iff {k : Nat} {x : Double} : (2 ^ k : Int) ∣ f64Units x ↔ 2 ^ k ∣ f64Mag x := by
  rw [← natAbs_f64Units, ← Int.natCast_dvd, Nat.cast_pow, Nat.cast_ofNat]

theorem multiple_f64Add {k : Nat} {x y : Double} (hx : Multiple k x) (hy : Multiple k y) :
    Multiple k (f64Add x y) := by
  intro h
  obtain ⟨hxf, hyf⟩ := f64Finite_of_f64Add h
  have hsum : (2 ^ k : Int) ∣ f64Units x + f64Units y :=
    Int.dvd_add (dvd_f64Units_iff.mpr (hx hxf)) (dvd_f64Units_iff.mpr (hy hyf))
  rw [f64Add_finite hxf hyf] at h ⊢
  refine multiple_round _ Nat.one_pos ?_ h
  rw [Nat.mul_one, ← Int.natCast_dvd, Nat.cast_pow, Nat.cast_ofNat]
  exact hsum

/-- Scaling by c down from a multiple of 2^k units, and not from -0.0, does not underflow to -0.0. -/
theorem f64Mul_ne_negative_zero {k : Nat} {c s : Double} (hneg : f64Neg c = false) (hc : 2 ^ 1074 ≤ f64Mag c * 2 ^ k)
    (hs : s ≠ 0x8000000000000000) (hk : Multiple k s) : f64Mul c s ≠ 0x8000000000000000 := by
  intro h
  obtain ⟨hcf, hsf⟩ := f64Finite_of_f64Mul (x := c) (y := s) (by rw [h]; decide)
  rw [f64Mul_finite hcf hsf, f64Make_eq_negative_zero_iff, hneg, Bool.false_bne] at h
  obtain ⟨hsneg, hmag⟩ := h
  have hlt := lt_of_roundMag_eq_zero (by positivity) hmag
  have hpos : 0 < f64Mag s := Nat.pos_of_ne_zero fun h0 => hs (eq_negative_zero hsneg h0)
  have hle := Nat.mul_le_mul_left (f64Mag c) (Nat.le_of_dvd hpos (hk hsf))
  exact Nat.not_le.mpr hlt (hc.trans hle)

/-! ### The kernel and the scale of R163 -/

/-- A value of the cosine table is finite, and a multiple of 2^-55. -/
def IsKernel (c : Double) : Prop := f64Finite c = true ∧ 2 ^ 1019 ∣ f64Mag c

theorem isKernel_cosOf (x u : Nat) : IsKernel (cosOf x u) := by
  have hall : cosines.all (fun c => f64Finite c && decide (2 ^ 1019 ∣ f64Mag c)) = true := by decide +kernel
  have hlt : (2 * x + 1) * u % 32 < cosines.length := Nat.mod_lt _ (by decide)
  have hmem : cosOf x u ∈ cosines := by
    rw [cosOf, List.getD_eq_getElem _ _ hlt]
    exact List.getElem_mem hlt
  have h := List.all_eq_true.mp hall _ hmem
  rwa [Bool.and_eq_true, decide_eq_true_iff] at h

theorem f64Finite_cosOf (x u : Nat) : f64Finite (cosOf x u) = true := (isKernel_cosOf x u).1

theorem multiple_cosOf (x u : Nat) : Multiple 1019 (cosOf x u) := fun _ => (isKernel_cosOf x u).2

theorem cuOf_eq_cuOf_min (u : Nat) : cuOf u = cuOf (min u 1) := by
  cases u with
  | zero => rfl
  | succ u => rw [Nat.min_eq_right (Nat.le_add_left 1 u)]; rfl

/-- The factor before the sum of R163 is positive, and at least 2^-110. -/
theorem fdctScale_spec (u v : Nat) : f64Finite (fdctScale u v) = true ∧ f64Neg (fdctScale u v) = false ∧
    2 ^ 1074 ≤ f64Mag (fdctScale u v) * 2 ^ 964 := by
  have hall : ∀ p < 2, ∀ q < 2, f64Finite (fdctScale p q) = true ∧ f64Neg (fdctScale p q) = false ∧
      2 ^ 1074 ≤ f64Mag (fdctScale p q) * 2 ^ 964 := by decide +kernel
  have h : fdctScale u v = fdctScale (min u 1) (min v 1) := by
    rw [fdctScale, cuOf_eq_cuOf_min u, cuOf_eq_cuOf_min v, fdctScale]
  rw [h]
  exact hall _ (by omega) _ (by omega)

theorem mem_fdctOut {b : List Int} {z : Double} (h : z ∈ fdctOut b) :
    ∃ u v, z = f64Mul (fdctScale u v) (fdctSum b u v) := by
  rw [fdctOut_eq] at h
  obtain ⟨u, -, hu⟩ := List.mem_flatMap.mp h
  obtain ⟨v, -, hv⟩ := List.mem_map.mp hu
  exact ⟨u, v, hv.symm⟩

/-- Every term, and so every sum, of R163 is a multiple of 2^-110. -/
theorem multiple_fdctTerm (b : List Int) (u v x y : Nat) : Multiple 964 (fdctTerm b u v x y) := by
  have hrow : Multiple 1019 (f64Mul (f64OfInt (b.getD (8 * x + y) 0)) (cosOf x u)) :=
    multiple_f64Mul (by decide) (multiple_f64OfInt _) (multiple_cosOf x u)
  rw [fdctTerm]
  exact multiple_f64Mul (by decide) hrow (multiple_cosOf y v)

theorem multiple_fdctSum (b : List Int) (u v : Nat) : Multiple 964 (fdctSum b u v) := by
  have hzero : Multiple 964 0 := fun _ => by rw [f64Mag_zero]; exact Nat.dvd_zero _
  rw [fdctSum_eq]
  exact blockSum_induction hzero fun s x y hs => multiple_f64Add hs (multiple_fdctTerm b u v x y)

theorem blockSum_ne_negative_zero (t : Nat → Nat → Double) : blockSum t ≠ 0x8000000000000000 :=
  blockSum_induction (P := (· ≠ 0x8000000000000000)) (by decide) fun _ x y hs => f64Add_ne_negative_zero hs (t x y)

theorem fdctOut_ne_negative_zero (b : List Int) : ∀ z ∈ fdctOut b, z ≠ 0x8000000000000000 := by
  intro z hz
  obtain ⟨u, v, rfl⟩ := mem_fdctOut hz
  obtain ⟨-, hneg, hmag⟩ := fdctScale_spec u v
  exact f64Mul_ne_negative_zero hneg hmag (blockSum_ne_negative_zero _) (multiple_fdctSum b u v)

/-! ### A block of zeros (R163) -/

theorem f64Mul_signedZero {y : Double} (neg : Bool) (hy : f64Finite y = true) :
    f64Mul (signedZero neg) y = signedZero (neg != f64Neg y) := by
  have hz : f64Finite (signedZero neg) = true ∧ f64Neg (signedZero neg) = neg ∧ f64Mag (signedZero neg) = 0 := by
    cases neg <;> decide
  obtain ⟨hf, hn, hm⟩ := hz
  rw [f64Mul_finite hf hy, hn, hm, Nat.zero_mul, roundMag_zero, signedZero_eq_make]

theorem f64Add_zero_signedZero (neg : Bool) : f64Add 0 (signedZero neg) = 0 := by cases neg <;> decide

theorem fdctTerm_zeros (u v x y : Nat) : ∃ neg, fdctTerm (List.replicate 64 0) u v x y = signedZero neg := by
  have hget : (List.replicate 64 (0 : Int)).getD (8 * x + y) 0 = 0 := by
    rw [List.getD_eq_getElem?_getD, List.getElem?_replicate]
    split <;> rfl
  rw [fdctTerm, hget, f64OfInt_zero, f64Mul_signedZero _ (f64Finite_cosOf x u),
    f64Mul_signedZero _ (f64Finite_cosOf y v)]
  exact ⟨_, rfl⟩

theorem fdctSum_zeros (u v : Nat) : fdctSum (List.replicate 64 0) u v = 0 := by
  rw [fdctSum_eq]
  refine blockSum_induction (P := (· = 0)) rfl fun s x y hs => ?_
  obtain ⟨neg, h⟩ := fdctTerm_zeros u v x y
  rw [hs, h, f64Add_zero_signedZero]

theorem fdctOut_zeros : fdctOut (List.replicate 64 0) = List.replicate 64 0 := by
  have hz : ∀ u v, f64Mul (fdctScale u v) (fdctSum (List.replicate 64 0) u v) = 0 := by
    intro u v
    obtain ⟨hfin, hneg, -⟩ := fdctScale_spec u v
    rw [fdctSum_zeros, f64Mul_finite hfin (by decide), hneg, f64Mag_zero, Nat.mul_zero, roundMag_zero]
    decide
  rw [fdctOut_eq]
  simp only [hz]
  rfl

/-! ### The regions of the two commands (R82) -/

theorem inRange_fdct_iff {s : State} : (∀ r ∈ regions .fdct s.latch.args, r.start + r.len ≤ s.platform.lmemSize) ↔
    InRange s (larg0 s) 256 ∧ InRange s (larg1 s) 512 := by
  simp [regions, srcRegion, dstRegion]

theorem aligned_fdct_iff {s : State} : (∀ r ∈ regions .fdct s.latch.args, r.start % r.align = 0) ↔
    larg0 s % 4 = 0 ∧ larg1 s % 8 = 0 := by
  simp [regions, srcRegion, dstRegion]

theorem inRange_idct_iff {s : State} : (∀ r ∈ regions .idct s.latch.args, r.start + r.len ≤ s.platform.lmemSize) ↔
    InRange s (larg0 s) 512 ∧ InRange s (larg1 s) 256 := by
  simp [regions, srcRegion, dstRegion]

theorem aligned_idct_iff {s : State} : (∀ r ∈ regions .idct s.latch.args, r.start % r.align = 0) ↔
    larg0 s % 8 = 0 ∧ larg1 s % 4 = 0 := by
  simp [regions, srcRegion, dstRegion]

/-- Settles O33: the sums of R163 are multiples of 2^-110 and never -0.0, so scaling them does not underflow. -/
theorem fdctResult : Obligations.FdctResult := by
  unfold Obligations.FdctResult
  refine ⟨rfl, fdctOut_zeros, fdctOut_ne_negative_zero, fun s => ?_⟩
  simp only [← inRange_fdct_iff, ← aligned_fdct_iff]
  refine ⟨fun hr => exec_failed rfl (precheck_range rfl hr),
    fun hr ha => exec_failed rfl (precheck_align rfl hr ha), fun hr ha b hb => ?_⟩
  have hp : precheck .fdct s = none := precheck_none_iff.mpr ⟨rfl, hr, ha, nofun, nofun⟩
  exact exec_succeeded hp (fdctBody_of_holds hb)

/-- Settles O34: the execute phase writes only where both finiteness checks of R164 pass. -/
theorem idctResult : Obligations.IdctResult := by
  unfold Obligations.IdctResult
  refine ⟨rfl, fun s => ?_⟩
  simp only [← inRange_idct_iff, ← aligned_idct_iff]
  refine ⟨fun hr => exec_failed rfl (precheck_range rfl hr),
    fun hr ha => exec_failed rfl (precheck_align rfl hr ha), fun hr ha f hf => ?_⟩
  have hp : precheck .idct s = none := precheck_none_iff.mpr ⟨rfl, hr, ha, nofun, nofun⟩
  have hbody := idctBody_of_holds hf
  refine ⟨fun hin => ?_, fun hin hout => ?_, fun hin hout => ?_⟩
  · exact exec_raised rfl rfl hp (hbody.trans (if_neg fun h => not_all_finite hin h.1))
  · exact exec_raised rfl rfl hp (hbody.trans (if_neg fun h => not_all_finite hout h.2))
  · exact exec_succeeded hp (hbody.trans (if_pos ⟨List.all_eq_true.mpr hin, List.all_eq_true.mpr hout⟩))

end Sys2Proof.Proofs
end

section
/-! Proofs for 41_quantizer.md: the model's table of R190 is the rule's, entry by entry, so a lane of QUANT or DEQUANT
works with the rule's entry; and the products of R194 are small enough for a double to hold exactly. -/

namespace Sys2Proof.Proofs

open Sys2Proof.Machine Sys2Proof.Statements

/-! ### The table (R190, R191) -/

theorem sat_eq_max_min {v lo hi : Int} (h : lo ≤ hi) : sat v lo hi = max lo (min hi v) := by
  unfold sat
  split_ifs <;> omega

theorem quantBase_eq_baseRows : quantBase = (List.range 64).map fun k => (baseRows.getD (k / 8) []).getD (k % 8) 0 := by
  decide

/-- Up to q = 100 the two branches of lambda are natural numbers. -/
theorem lambdaOf_eq_quantScale {q : Nat} (hq : q ≤ 100) : lambdaOf q = quantScale q := by
  unfold lambdaOf quantScale
  split_ifs
  · exact (Int.natCast_div 5000 q).symm
  · omega

/-- The model's table, read as integers, is the rule's. -/
theorem quantTable_eq_qtabAt {q : Nat} (hq : q ≤ 100) :
    (quantTable q).map (Nat.cast : Nat → Int) = (List.range 64).map (qtabAt q) := by
  rw [quantTable, quantBase_eq_baseRows, List.map_map, List.map_map]
  refine List.map_congr_left fun k _ => ?_
  rw [qtabAt, qtabEntry, sat_eq_max_min (by decide), lambdaOf_eq_quantScale hq]
  simp

theorem qtabAt_bounds (q k : Nat) : 1 ≤ qtabAt q k ∧ qtabAt q k ≤ 255 := by
  rw [qtabAt, qtabEntry, sat_eq_max_min (by decide)]
  omega

theorem quantTable_bounds {q v : Nat} (h : v ∈ quantTable q) : 1 ≤ v ∧ v ≤ 255 := by
  obtain ⟨b, -, rfl⟩ := List.mem_map.mp h
  omega

/-- Settles O60: the clamp of R190 bounds every entry; the four corner cases are evaluated. -/
theorem quantTableCases : Obligations.QuantTableCases := by
  unfold Obligations.QuantTableCases
  exact ⟨fun q _ _ => ⟨quantTable_length q, fun v => quantTable_bounds⟩, by decide, by decide, by decide, by decide⟩

/-! ### The lanes of a block (R192 to R194) -/

/-- Lane k works on element k of the block and entry k of the table. -/
theorem zipWith_quantTable {α β : Type} (g : α → Int → β) {l : List α} {q : Nat} (x : α) (hl : l.length = 64)
    (hq : q ≤ 100) : List.zipWith (fun v (d : Nat) => g v d) l (quantTable q) =
      (List.range 64).map fun k => g (l.getD k x) (qtabAt q k) := by
  have hlanes : l = (List.range 64).map fun k => l.getD k x := by
    refine List.ext_getElem (by simpa using hl) fun k hk _ => ?_
    rw [List.getElem_map, List.getElem_range, List.getD_eq_getElem _ _ hk]
  calc List.zipWith (fun v (d : Nat) => g v d) l (quantTable q)
      = List.zipWith g l ((quantTable q).map Nat.cast) := List.zipWith_map_right.symm
    _ = List.zipWith g ((List.range 64).map fun k => l.getD k x) ((List.range 64).map (qtabAt q)) := by
        rw [quantTable_eq_qtabAt hq, ← hlanes]
    _ = (List.range 64).map fun k => g (l.getD k x) (qtabAt q k) := by rw [List.zipWith_map, List.zipWith_self]

theorem qtabBody_eq {q : Nat} (s : State) (hq : q ≤ 100) : commandBody (.qtab q) s =
    .ok (plainEffect 0 0 (larg0 s) ((List.range 64).map fun k => BitVec.ofInt 8 (qtabAt q k))) := by
  have hbytes : (quantTable q).map (BitVec.ofNat 8) = (List.range 64).map fun k => BitVec.ofInt 8 (qtabAt q k) :=
    calc (quantTable q).map (BitVec.ofNat 8)
        = ((quantTable q).map (Nat.cast : Nat → Int)).map (BitVec.ofInt 8) := by simp
      _ = (List.range 64).map fun k => BitVec.ofInt 8 (qtabAt q k) := by
          rw [quantTable_eq_qtabAt hq, List.map_map]; rfl
  rw [commandBody, qtabBody, hbytes]

theorem quantBody_of_holds {s : State} {q : Nat} {f : List Double} (hq : q ≤ 100) (h : s.holdsF64Block (larg0 s) f) :
    commandBody (.quant q) s =
      if f.all f64Finite then .ok (plainEffect 0 0 (larg1 s) ((List.range 64).flatMap fun k =>
        i32Bytes (sat32 (rhaz (f64Div (f.getD k 0) (f64OfInt (qtabAt q k)))))))
      else .error (.raise .nonFinite) := by
  have hlanes : List.zipWith quantize f (quantTable q) = (List.range 64).map fun k =>
      sat32 (rhaz (f64Div (f.getD k 0) (f64OfInt (qtabAt q k)))) :=
    zipWith_quantTable (fun v d => sat32 (rhaz (f64Div v (f64OfInt d)))) 0 h.1 hq
  simp only [commandBody, quantBody, readF64Block_of_holds h, hlanes, List.flatMap_map]

theorem dequantBody_of_holds {s : State} {q : Nat} {z : List Int} (hq : q ≤ 100) (h : s.holdsI32Block (larg0 s) z) :
    commandBody (.dequant q) s = .ok (plainEffect 0 0 (larg1 s)
      ((List.range 64).flatMap fun k => f64Bytes (f64OfInt (z.getD k 0 * qtabAt q k)))) := by
  have hlanes := zipWith_quantTable (fun v d => f64OfInt (v * d)) 0 h.1 hq
  simp only [commandBody, dequantBody, readI32Block_of_holds h, hlanes, List.flatMap_map]

/-! ### The exact product (R194) -/

/-- An i32 times a table entry stays far below 2^53. -/
theorem f64OfInt_mul_qtabAt {v : Int} (hv : -2147483648 ≤ v ∧ v ≤ 2147483647) (q k : Nat) :
    f64Finite (f64OfInt (v * qtabAt q k)) = true ∧ f64Units (f64OfInt (v * qtabAt q k)) = v * qtabAt q k * 2 ^ 1074 := by
  apply integerConversionIsExact
  obtain ⟨hlo, hhi⟩ := qtabAt_bounds q k
  calc (v * qtabAt q k).natAbs = v.natAbs * (qtabAt q k).natAbs := Int.natAbs_mul _ _
    _ ≤ 2147483648 * 255 := Nat.mul_le_mul (by omega) (by omega)
    _ ≤ 2 ^ 53 := by decide

/-! ### The words and the checks of the three commands (R120, R82 to R84, R351) -/

theorem decode_word {i : Instr} (h : i.wf = true) :
    decode (BitVec.ofNat 32 (256 * i.immediate + i.opcode)) = .ok i := by
  rw [← encode_eq]
  exact decodeInvertsEncode i h

theorem inRange_qtab_iff {s : State} {q : Nat} :
    (∀ r ∈ regions (.qtab q) s.latch.args, r.start + r.len ≤ s.platform.lmemSize) ↔ InRange s (larg0 s) 64 := by
  simp [regions, srcRegion, dstRegion]

theorem aligned_qtab (q : Nat) (l : Args) : ∀ r ∈ regions (.qtab q) l, r.start % r.align = 0 := by
  simp [regions, srcRegion, dstRegion, Nat.mod_one]

/-- QUANT reads and writes the regions IDCT does. -/
theorem regions_quant (q : Nat) : regions (.quant q) = regions .idct := rfl

/-- DEQUANT reads and writes the regions FDCT does. -/
theorem regions_dequant (q : Nat) : regions (.dequant q) = regions .fdct := rfl

section Quality

variable {i : Instr} {s : State} {q : Nat}

theorem argError_of_legal (harg : argError i s.latch.args = qualityError q) (h1 : 1 ≤ q) (h2 : q ≤ 100) :
    argError i s.latch.args = none := harg.trans (if_pos ⟨h1, h2⟩)

/-- E_QUALITY, E_RANGE and E_ALIGN, in that order, of a command whose one argument value is a quality. -/
theorem exec_quality_errors (harg : argError i s.latch.args = qualityError q) (hi : dropsTree i = false) :
    (¬ (1 ≤ q ∧ q ≤ 100) → exec i s = .next (failed s 0x02)) ∧
    (1 ≤ q → q ≤ 100 → ¬ (∀ r ∈ regions i s.latch.args, r.start + r.len ≤ s.platform.lmemSize) →
      exec i s = .next (failed s 0x04)) ∧
    (1 ≤ q → q ≤ 100 → (∀ r ∈ regions i s.latch.args, r.start + r.len ≤ s.platform.lmemSize) →
      ¬ (∀ r ∈ regions i s.latch.args, r.start % r.align = 0) → exec i s = .next (failed s 0x05)) := by
  refine ⟨fun hq => ?_, fun h1 h2 hr => exec_failed hi (precheck_range (argError_of_legal harg h1 h2) hr),
    fun h1 h2 hr ha => exec_failed hi (precheck_align (argError_of_legal harg h1 h2) hr ha)⟩
  have hp : precheck i s = some .quality := by rw [precheck, harg, qualityError, if_neg hq]
  exact exec_failed hi hp

end Quality

/-- Settles O35: the checks of R192, and the rule's table byte by byte. -/
theorem qtabResult : Obligations.QtabResult := by
  unfold Obligations.QtabResult
  refine ⟨fun q hq => decode_word (i := .qtab q) (decide_eq_true hq), fun s q => ?_⟩
  obtain ⟨hquality, hrange, -⟩ := exec_quality_errors (i := .qtab q) (s := s) (q := q) rfl rfl
  simp only [← inRange_qtab_iff (q := q)]
  refine ⟨hquality, hrange, fun h1 h2 hr => ?_⟩
  have hp : precheck (.qtab q) s = none :=
    precheck_none_iff.mpr ⟨argError_of_legal rfl h1 h2, hr, aligned_qtab q _, nofun, nofun⟩
  exact exec_succeeded hp (qtabBody_eq s h2)

/-- Settles O36: the finiteness check of the whole block comes before any lane. -/
theorem quantResult : Obligations.QuantResult := by
  unfold Obligations.QuantResult
  refine ⟨fun q hq => decode_word (i := .quant q) (decide_eq_true hq), fun s q => ?_⟩
  obtain ⟨hquality, hrange, halign⟩ := exec_quality_errors (i := .quant q) (s := s) (q := q) rfl rfl
  simp only [← inRange_idct_iff, ← aligned_idct_iff, ← regions_quant q]
  refine ⟨hquality, hrange, halign, fun h1 h2 hr ha f hf => ?_⟩
  have hp : precheck (.quant q) s = none :=
    precheck_none_iff.mpr ⟨argError_of_legal rfl h1 h2, hr, ha, nofun, nofun⟩
  have hbody := quantBody_of_holds h2 hf
  refine ⟨fun hbad => ?_, fun hfin => ?_⟩
  · exact exec_raised rfl rfl hp (hbody.trans (if_neg (not_all_finite hbad)))
  · exact exec_succeeded hp (hbody.trans (if_pos (List.all_eq_true.mpr hfin)))

/-- Settles O37: each lane's product fits 53 bits, so it converts without rounding. -/
theorem dequantResult : Obligations.DequantResult := by
  unfold Obligations.DequantResult
  refine ⟨fun q hq => decode_word (i := .dequant q) (decide_eq_true hq), fun s q => ?_⟩
  obtain ⟨hquality, hrange, halign⟩ := exec_quality_errors (i := .dequant q) (s := s) (q := q) rfl rfl
  simp only [← inRange_fdct_iff, ← aligned_fdct_iff, ← regions_dequant q]
  refine ⟨hquality, hrange, halign, fun h1 h2 hr ha z hz => ?_⟩
  have hp : precheck (.dequant q) s = none :=
    precheck_none_iff.mpr ⟨argError_of_legal rfl h1 h2, hr, ha, nofun, nofun⟩
  refine ⟨exec_succeeded hp (dequantBody_of_holds h2 hz), fun k hk => f64OfInt_mul_qtabAt ?_ q k⟩
  obtain ⟨hlen, hi32, -⟩ := hz
  rw [List.getD_eq_getElem _ _ (hlen.symm ▸ hk)]
  exact hi32 _ (List.getElem_mem _)

end Sys2Proof.Proofs
end

section
/-! Proofs for 42_zigzag_rle.md: the zigzag table is a permutation; the model's encoder makes the stream of R222's loop;
the model's decoder, which reads LMEM byte by byte, does what R224's loop does to a list of bytes; and R224's loop
undoes R222's, as each nonzero value is placed where it was taken from. -/

namespace Sys2Proof.Proofs

open Sys2Proof.Machine Sys2Proof.Statements

/-! ### The zigzag order (R220) -/

/-- Settles O42: both lists are evaluated. -/
theorem zigzagIsTheWalk : Obligations.ZigzagIsTheWalk := by
  unfold Obligations.ZigzagIsTheWalk
  exact ⟨by decide, by decide⟩

theorem zz_eq (k : Nat) : zz k = zigzag.getD k 0 := by rw [zz, zigzagIsTheWalk.1]

theorem zz_eq_getElem {k : Nat} (hk : k < 64) : zz k = zigzag[k]'hk :=
  (zz_eq k).trans (List.getD_eq_getElem _ _ _)

theorem zz_zero : zz 0 = 0 := by decide

theorem zz_lt {k : Nat} (hk : k < 64) : zz k < 64 := by
  have hmem : zz k ∈ zigzag := zz_eq_getElem hk ▸ List.getElem_mem _
  simpa using zigzagIsTheWalk.2.mem_iff.mp hmem

/-- No two positions share an element. -/
theorem zz_inj {j k : Nat} (hj : j < 64) (hk : k < 64) (h : zz j = zz k) : j = k := by
  have hnodup : zigzag.Nodup := zigzagIsTheWalk.2.nodup_iff.mpr List.nodup_range
  rw [zz_eq_getElem hj, zz_eq_getElem hk] at h
  exact hnodup.getElem_inj_iff.mp h

/-- Every element has a position. -/
theorem exists_zz_eq {i : Nat} (hi : i < 64) : ∃ k < 64, zz k = i := by
  obtain ⟨k, hk, h⟩ := List.mem_iff_getElem.mp (zigzagIsTheWalk.2.mem_iff.mpr (List.mem_range.mpr hi))
  exact ⟨k, hk, (zz_eq_getElem hk).trans h⟩

/-! ### The stream of a block (R221, R222) -/

/-- The values at zigzag positions k, k+1, …, k+n−1. -/
def valuesFrom (z : List Int) (k n : Nat) : List Int := (List.range' k n).map fun j => z.getD (zz j) 0

@[simp] theorem valuesFrom_length (z : List Int) (k n : Nat) : (valuesFrom z k n).length = n := by simp [valuesFrom]

theorem valuesFrom_succ (z : List Int) (k n : Nat) :
    valuesFrom z k (n + 1) = z.getD (zz k) 0 :: valuesFrom z (k + 1) n := by
  simp [valuesFrom, List.range'_succ]

theorem acValues_eq (z : List Int) : acValues z = valuesFrom z 1 63 := by
  have hpos : zigzag.drop 1 = (List.range' 1 63).map zz := by decide
  rw [acValues, hpos, List.map_map]
  rfl

theorem runBytes_of_lt {run : Nat} (h : run < 16) : runBytes run = [BitVec.ofNat 8 run] := by
  rw [runBytes, Nat.div_eq_of_lt h, Nat.mod_eq_of_lt h]
  rfl

theorem runBytes_of_ge {run : Nat} (h : 16 ≤ run) : runBytes run = 0x0F :: 0x00 :: runBytes (run - 16) := by
  have hdiv : run / 16 = (run - 16) / 16 + 1 := by omega
  have hmod : run % 16 = (run - 16) % 16 := by omega
  rw [runBytes, runBytes, hdiv, hmod, List.replicate_succ]
  rfl

theorem runBytes_length (run : Nat) : (runBytes run).length = 2 * (run / 16) + 1 := by
  simp [runBytes, mul_comm]

/-- The `while` of R222, given rounds enough, emits the fillers the division counts. -/
theorem pairBytes_eq {n run : Nat} (v : Int) (h : run < 16 * (n + 1)) :
    pairBytes n run v = runBytes run ++ [streamByte v] := by
  induction n generalizing run with
  | zero => rw [pairBytes, runBytes_of_lt h]; rfl
  | succ n ih =>
    rw [pairBytes]
    split_ifs with hge
    · rw [ih (by omega), runBytes_of_ge hge]; rfl
    · rw [runBytes_of_lt (by omega)]; rfl

/-- The loop of R222 over n positions appends the pairs of their values to the bytes so far. -/
theorem foldl_zigzagStep (z : List Int) {n : Nat} (k : Nat) (bs : List Byte) {run : Nat} (h : run + n < 80) :
    ((List.range' k n).foldl (zigzagStep z) (bs, run)).1 ++ [0x00, 0x00] =
      bs ++ encodeAc run (valuesFrom z k n) := by
  induction n generalizing k bs run with
  | zero => rfl
  | succ n ih =>
    rw [valuesFrom_succ, encodeAc, List.range'_succ, List.foldl_cons, zigzagStep]
    split_ifs with hv
    · exact ih (k + 1) bs (by omega)
    · rw [ih (k + 1) _ (by omega), pairBytes_eq _ (by omega)]
      simp [streamByte, byteOf]

theorem streamOf_eq_cons (z : List Int) (prev : Int) :
    streamOf z prev = streamByte (z.getD 0 0 - prev) :: encodeAc 0 (valuesFrom z 1 63) := by
  have hpos : (List.range 63).map (· + 1) = List.range' 1 63 := by decide
  rw [streamOf, hpos, foldl_zigzagStep z 1 _ (by decide)]
  rfl

/-- The model's encoder makes the stream of R222. -/
theorem encodeBlock_eq (z : List Int) (prev : Int) : encodeBlock z prev = streamOf z prev := by
  rw [encodeBlock, acValues_eq, streamOf_eq_cons]
  rfl

/-- A value pays two bytes for itself, and a filler is paid for by the 16 zeros before it. -/
theorem encodeAc_length (run : Nat) (vs : List Int) :
    2 ≤ (encodeAc run vs).length ∧ (encodeAc run vs).length ≤ 2 + 2 * vs.length + 2 * (run / 16) := by
  induction vs generalizing run with
  | nil => simp [encodeAc]
  | cons v vs ih =>
    rw [encodeAc]
    split_ifs with hv
    · have := ih (run + 1)
      rw [List.length_cons]
      omega
    · have := ih 0
      simp only [List.length_append, runBytes_length, List.length_cons, List.length_nil]
      omega

theorem streamOf_length (z : List Int) (prev : Int) :
    3 ≤ (streamOf z prev).length ∧ (streamOf z prev).length ≤ 129 := by
  have hac := encodeAc_length 0 (valuesFrom z 1 63)
  rw [valuesFrom_length] at hac
  rw [streamOf_eq_cons, List.length_cons]
  omega

/-! ### ZZENC (R222) -/

/-- What a ZZENC of the block z that fits its capacity does. -/
def zzencEffect (s : State) (z : List Int) : Effect :=
  let out := streamOf z s.prevDcEnc.toInt
  { plainEffect out.length (larg1 s + out.length) (larg1 s) out with prevDcEnc := some (BitVec.ofInt 32 (z.getD 0 0)) }

theorem zzencBody_of_read {s : State} {z : List Int} (h : s.readI32Block (larg0 s) = .ok z) :
    commandBody .zzenc s = if larg2 s < (streamOf z s.prevDcEnc.toInt).length then .error (.raise .capacity)
      else .ok (zzencEffect s z) := by
  simp only [commandBody, zzencBody, h, encodeBlock_eq]
  rfl

/-- A command that succeeds, with its side effects. -/
theorem exec_of_effect {i : Instr} {s : State} {eff : Effect} (hp : precheck i s = none)
    (hb : commandBody i s = .ok eff) : exec i s = .next (s.succeed eff) := by
  rw [exec_eq, runCommand_of_ok hp hb (commandBody_within hp hb)]

theorem inRange_zzenc_iff {s : State} : (∀ r ∈ regions .zzenc s.latch.args, r.start + r.len ≤ s.platform.lmemSize) ↔
    InRange s (larg0 s) 256 ∧ InRange s (larg1 s) (larg2 s) := by
  simp [regions, srcRegion, dstRegion]

theorem aligned_zzenc_iff {s : State} :
    (∀ r ∈ regions .zzenc s.latch.args, r.start % r.align = 0) ↔ larg0 s % 4 = 0 := by
  simp [regions, srcRegion, dstRegion, Nat.mod_one]

theorem precheck_zzenc {s : State} (hr : InRange s (larg0 s) 256 ∧ InRange s (larg1 s) (larg2 s))
    (ha : larg0 s % 4 = 0) : precheck .zzenc s = none :=
  precheck_none_iff.mpr ⟨rfl, inRange_zzenc_iff.mpr hr, aligned_zzenc_iff.mpr ha, nofun, nofun⟩

/-- Settles O38: the checks of R222, and the stream of its loop. -/
theorem zzencResult : Obligations.ZzencResult := by
  unfold Obligations.ZzencResult
  refine ⟨rfl, fun s => ⟨fun hr => ?_, fun hr ha => ?_, fun hr ha z hz => ⟨fun hlt => ?_, fun hle => ?_⟩⟩⟩
  · exact exec_failed rfl (precheck_range rfl (mt inRange_zzenc_iff.mp hr))
  · exact exec_failed rfl (precheck_align rfl (inRange_zzenc_iff.mpr hr) (mt aligned_zzenc_iff.mp ha))
  · exact exec_raised rfl rfl (precheck_zzenc hr ha)
      ((zzencBody_of_read (readI32Block_of_holds hz)).trans (if_pos hlt))
  · exact exec_of_effect (precheck_zzenc hr ha)
      ((zzencBody_of_read (readI32Block_of_holds hz)).trans (if_neg hle.not_gt))

/-- A capacity of 129 is enough for any block that can be read. -/
theorem exec_zzenc_of_capacity {s t : State} (h : exec .zzenc s = .next t) (hp : precheck .zzenc s = none)
    (hcap : 129 ≤ larg2 s) : ∃ z, t = s.succeed (zzencEffect s z) := by
  cases hread : s.readI32Block (larg0 s) with
  | error e =>
    obtain ⟨j, -, -, rfl⟩ := readI32Block_error hread
    have hbody : commandBody .zzenc s = .error (.fault (.noValue (larg0 s + j))) := by
      simp only [commandBody, zzencBody, hread]
    rw [exec_eq, runCommand_of_fault hp hbody] at h
    cases h
  | ok z =>
    have hle := (streamOf_length z s.prevDcEnc.toInt).2.trans hcap
    rw [exec_of_effect hp ((zzencBody_of_read hread).trans (if_neg hle.not_gt))] at h
    cases h
    exact ⟨z, rfl⟩

/-- Settles O39: of ZZENC's other completions, E_RANGE and E_ALIGN have codes of their own. -/
theorem zzencStreamSize : Obligations.ZzencStreamSize := by
  unfold Obligations.ZzencStreamSize
  refine ⟨streamOf_length, fun s t h hcap => ?_⟩
  obtain ⟨-, hzzenc⟩ := zzencResult
  obtain ⟨hrange, halign, -⟩ := hzzenc s
  by_cases hr : InRange s (larg0 s) 256 ∧ InRange s (larg1 s) (larg2 s)
  · by_cases ha : larg0 s % 4 = 0
    · obtain ⟨z, rfl⟩ := exec_zzenc_of_capacity h (precheck_zzenc hr ha) hcap
      exact (by decide : (0x00 : Byte) ≠ 0x09)
    · cases h.symm.trans (halign hr ha)
      exact (by decide : (0x05 : Byte) ≠ 0x09)
  · cases h.symm.trans (hrange hr)
    exact (by decide : (0x04 : Byte) ≠ 0x09)

/-! ### The decoder's loop (R224) -/

/-- The placements of R224 into a block. -/
def placeAll (z : List Int) (values : List (Nat × Int)) : List Int := values.foldl (fun z pv => z.set (zz pv.1) pv.2) z

theorem placedBlock_eq (dc : Int) (values : List (Nat × Int)) :
    placedBlock dc values = placeAll (dc :: List.replicate 63 0) values := rfl

/-- What the model's loop ends with, where R224's loop finds p in the bytes from i on. -/
def decodedFrom (p : Placed) (z : List Int) (i : Nat) : DecodedBlock :=
  ⟨placeAll z p.values, i + p.consumed, p.malformed⟩

/-- A filler before p places nothing. -/
theorem decodedFrom_fill (p : Placed) (z : List Int) (i : Nat) :
    decodedFrom ⟨p.values, p.consumed + 2, p.malformed⟩ z i = decodedFrom p z (i + 2) := by
  simp only [decodedFrom, DecodedBlock.mk.injEq, true_and, and_true]
  omega

/-- A pair before p places its value. -/
theorem decodedFrom_place (pv : Nat × Int) (p : Placed) (z : List Int) (i : Nat) :
    decodedFrom ⟨pv :: p.values, p.consumed + 2, p.malformed⟩ z i =
      decodedFrom p (z.set (zz pv.1) pv.2) (i + 2) := by
  simp only [decodedFrom, placeAll, List.foldl_cons, DecodedBlock.mk.injEq, true_and, and_true]
  omega

/-- A pair held at the head of a part of the stream, and what follows it. -/
theorem holds_pair {s : State} {a n : Nat} {rb vb : Byte} {rest : List Byte}
    (h : s.holds a ((rb :: vb :: rest).take (n + 2))) :
    s.lmem.get? a = some rb ∧ s.lmem.get? (a + 1) = some vb ∧ s.holds (a + 2) (rest.take n) := by
  rw [List.take_succ_cons, List.take_succ_cons, holds_cons, holds_cons] at h
  exact h

theorem length_after_pair {i len : Nat} {rb vb : Byte} {rest : List Byte}
    (h : i + (rb :: vb :: rest).length = len) : i + 2 + rest.length = len := by
  rw [List.length_cons, List.length_cons] at h
  omega

/-- One round of the model's loop, where LMEM holds a whole pair. -/
theorem decodePairs_pair {s : State} {src len rounds i n : Nat} {rb vb : Byte} {rest : List Byte} (z : List Int)
    (cur : Nat) (hlen : i + (rb :: vb :: rest).length = len)
    (hh : s.holds (src + i) ((rb :: vb :: rest).take (n + 2))) :
    decodePairs s src len (rounds + 1) z i cur =
      if rb.toNat = 0 ∧ vb.toInt = 0 then .ok ⟨z, i + 2, false⟩
      else if rb.toNat = 15 ∧ vb.toInt = 0 then
        if 64 < cur + 16 then .ok ⟨z, i + 2, true⟩ else decodePairs s src len rounds z (i + 2) (cur + 16)
      else if 63 < cur + rb.toNat then .ok ⟨z, i + 2, true⟩
      else decodePairs s src len rounds (z.set (zz (cur + rb.toNat)) vb.toInt) (i + 2) (cur + rb.toNat + 1) := by
  obtain ⟨hrb, hvb, -⟩ := holds_pair hh
  have hlen := length_after_pair hlen
  rw [decodePairs, if_neg (by omega), readByte_ok_iff.mpr hrb, readByte_ok_iff.mpr hvb, zz_eq]
  exact if_neg (by omega)

/-- The model's loop does to LMEM what R224's loop does to the bytes there, as far as these are consumed. A round that
goes on moves cur, so the rounds last. -/
theorem decodePairs_of_holds {s : State} {src len : Nat} (bs : List Byte) (cur : Nat) {rounds i : Nat} (z : List Int)
    (hcur : cur ≤ 64) (hrounds : 65 ≤ rounds + cur) (hlen : i + bs.length = len)
    (hh : s.holds (src + i) (bs.take (placePairs bs cur).consumed)) :
    decodePairs s src len rounds z i cur = .ok (decodedFrom (placePairs bs cur) z i) := by
  obtain ⟨n, rfl⟩ : ∃ n, rounds = n + 1 := ⟨rounds - 1, by omega⟩
  fun_induction placePairs bs cur generalizing n z i with
  | case1 cur => exact if_pos hlen
  | case2 b cur =>
    have hb : s.lmem.get? (src + i) = some b := (holds_cons.mp hh).1
    have hi : i + 1 = len := hlen
    rw [decodePairs, if_neg (by omega), readByte_ok_iff.mpr hb]
    exact if_pos hi
  | case3 rb vb rest cur hend =>
    rw [decodePairs_pair (n := 0) z cur hlen hh, if_pos hend]
    rfl
  | case4 rb vb rest cur hend hfill hpast =>
    rw [decodePairs_pair (n := 0) z cur hlen hh, if_neg hend, if_pos hfill, if_pos hpast]
    rfl
  | case5 rb vb rest cur hend hfill hpast p =>
    rename_i ih
    obtain ⟨-, -, hrest⟩ := holds_pair hh
    obtain ⟨m, rfl⟩ : ∃ m, n = m + 1 := ⟨n - 1, by omega⟩
    rw [decodePairs_pair z cur hlen hh, if_neg hend, if_pos hfill, if_neg hpast,
      ih z (by omega) (length_after_pair hlen) hrest m (by omega)]
    exact congrArg Except.ok (decodedFrom_fill p z i).symm
  | case6 rb vb rest cur hend hfill hpast =>
    rw [decodePairs_pair (n := 0) z cur hlen hh, if_neg hend, if_neg hfill, if_pos hpast]
    rfl
  | case7 rb vb rest cur hend hfill hpast p =>
    rename_i ih
    obtain ⟨-, -, hrest⟩ := holds_pair hh
    obtain ⟨m, rfl⟩ : ∃ m, n = m + 1 := ⟨n - 1, by omega⟩
    rw [decodePairs_pair z cur hlen hh, if_neg hend, if_neg hfill, if_neg hpast,
      ih _ (by omega) (length_after_pair hlen) hrest m (by omega)]
    exact congrArg Except.ok (decodedFrom_place (_, _) p z i).symm

/-! ### ZZDEC (R224, R226) -/

/-- What a ZZDEC does that decodes the DC byte b and the placements p. -/
def zzdecEffect (s : State) (b : Byte) (p : Placed) : Effect :=
  let dc := sat32 (s.prevDcDec.toInt + b.toInt)
  { plainEffect (p.consumed + 1) (larg0 s + (p.consumed + 1)) (larg2 s)
      ((placedBlock dc p.values).flatMap i32Bytes) with
    prevDcDec := some (BitVec.ofInt 32 dc)
    malformed := p.malformed }

theorem zzdecBody_of_holds {s : State} {b : Byte} {bs : List Byte} (hlen : (b :: bs).length = larg1 s)
    (hh : s.holds (larg0 s) ((b :: bs).take ((placePairs bs 1).consumed + 1))) :
    commandBody .zzdec s = .ok (zzdecEffect s b (placePairs bs 1)) := by
  rw [List.take_succ_cons, holds_cons] at hh
  obtain ⟨hb, hbs⟩ := hh
  have hpairs := decodePairs_of_holds (rounds := 64) bs 1 (sat32 (s.prevDcDec.toInt + b.toInt) :: List.replicate 63 0)
    (by decide) (by decide) ((Nat.add_comm _ _).trans hlen) hbs
  simp only [commandBody, zzdecBody, readByte_ok_iff.mpr hb, hpairs, decodedFrom, Nat.add_comm 1]
  rfl

theorem argError_zzdec {s : State} (h : larg1 s ≠ 0) : argError .zzdec s.latch.args = none := if_neg h

theorem inRange_zzdec_iff {s : State} : (∀ r ∈ regions .zzdec s.latch.args, r.start + r.len ≤ s.platform.lmemSize) ↔
    InRange s (larg0 s) (larg1 s) ∧ InRange s (larg2 s) 256 := by
  simp [regions, srcRegion, dstRegion]

theorem aligned_zzdec_iff {s : State} :
    (∀ r ∈ regions .zzdec s.latch.args, r.start % r.align = 0) ↔ larg2 s % 4 = 0 := by
  simp [regions, srcRegion, dstRegion, Nat.mod_one]

theorem exec_zzdec_of_holds {s : State} {b : Byte} {bs : List Byte}
    (hr : InRange s (larg0 s) (larg1 s) ∧ InRange s (larg2 s) 256) (ha : larg2 s % 4 = 0)
    (hlen : (b :: bs).length = larg1 s)
    (hh : s.holds (larg0 s) ((b :: bs).take ((placePairs bs 1).consumed + 1))) :
    exec .zzdec s = .next (s.succeed (zzdecEffect s b (placePairs bs 1))) := by
  have h0 : larg1 s ≠ 0 := hlen ▸ Nat.succ_ne_zero _
  have hp : precheck .zzdec s = none := precheck_none_iff.mpr
    ⟨argError_zzdec h0, inRange_zzdec_iff.mpr hr, aligned_zzdec_iff.mpr ha, nofun, nofun⟩
  exact exec_of_effect hp (zzdecBody_of_holds hlen hh)

/-- Settles O40: the checks of R224, and the block its loop builds from the bytes it consumes. -/
theorem zzdecResult : Obligations.ZzdecResult := by
  unfold Obligations.ZzdecResult
  refine ⟨rfl, fun s => ⟨fun h0 => ?_, fun h0 hr => ?_, fun h0 hr ha => ?_, fun hr ha b bs hlen hh => ?_⟩⟩
  · have harg : argError .zzdec s.latch.args = some .empty := if_pos h0
    have hp : precheck .zzdec s = some .empty := by rw [precheck, harg]
    exact exec_failed rfl hp
  · exact exec_failed rfl (precheck_range (argError_zzdec h0) (mt inRange_zzdec_iff.mp hr))
  · exact exec_failed rfl (precheck_align (argError_zzdec h0) (inRange_zzdec_iff.mpr hr) (mt aligned_zzdec_iff.mp ha))
  · exact exec_zzdec_of_holds hr ha hlen hh

/-! ### The decoder's loop undoes the encoder's (R227) -/

/-- The nonzero ones of the values at zigzag positions k, k+1, …, with their positions. -/
def placements : Nat → List Int → List (Nat × Int)
  | _, [] => []
  | k, v :: vs => if v = 0 then placements (k + 1) vs else (k, v) :: placements (k + 1) vs

/-- A byte of the stream reads back as the value it was made from, where no saturation took place. -/
theorem streamByte_toInt {v : Int} (h : -128 ≤ v ∧ v ≤ 127) : (streamByte v).toInt = v := by
  have hsat : sat8 v = v := by rw [sat8, sat_eq_max_min (by decide)]; omega
  rw [streamByte, hsat, BitVec.toInt_ofInt_eq_self (by decide) (by omega) (by omega)]

/-- R224's loop reads the fillers and the pair of a nonzero value as that value, `run` positions on. -/
theorem placePairs_runBytes {run cur : Nat} {v : Int} (rest : List Byte) (hv : v ≠ 0) (hb : -128 ≤ v ∧ v ≤ 127)
    (hpos : cur + run ≤ 63) : placePairs (runBytes run ++ streamByte v :: rest) cur =
      let p := placePairs rest (cur + run + 1)
      ⟨(cur + run, v) :: p.values, p.consumed + (runBytes run).length + 1, p.malformed⟩ := by
  induction run using Nat.strong_induction_on generalizing cur with
  | _ run ih =>
    by_cases hrun : run < 16
    · have hr : (BitVec.ofNat 8 run).toNat = run := by rw [BitVec.toNat_ofNat]; omega
      rw [runBytes_of_lt hrun, List.singleton_append, placePairs, hr, streamByte_toInt hb, if_neg (fun h => hv h.2),
        if_neg (fun h => hv h.2), if_neg (by omega)]
      rfl
    · have hge : 16 ≤ run := by omega
      have hpos' : cur + 16 + (run - 16) = cur + run := by omega
      have hlen : (runBytes run).length = (runBytes (run - 16)).length + 2 := by rw [runBytes_of_ge hge]; rfl
      have ih' := ih (run - 16) (by omega) (cur := cur + 16) (by omega)
      rw [hpos'] at ih'
      rw [hlen, runBytes_of_ge hge]
      simp only [List.cons_append]
      rw [placePairs, if_neg (by decide), if_pos (by decide), if_neg (by omega), ih']
      simp only [Placed.mk.injEq, true_and, and_true]
      omega

/-- R224's loop finds in the pairs of R222 the nonzero values, each at the position it was taken from, and the EOB. -/
theorem placePairs_encodeAc {vs : List Int} {run cur : Nat} (hb : ∀ v ∈ vs, -128 ≤ v ∧ v ≤ 127)
    (hpos : cur + run + vs.length ≤ 64) :
    placePairs (encodeAc run vs) cur = ⟨placements (cur + run) vs, (encodeAc run vs).length, false⟩ := by
  induction vs generalizing run cur with
  | nil => rfl
  | cons v vs ih =>
    rw [List.length_cons] at hpos
    obtain ⟨hbv, hbvs⟩ := List.forall_mem_cons.mp hb
    rw [encodeAc, placements]
    split_ifs with hv
    · exact ih hbvs (by omega)
    · rw [List.append_assoc, List.singleton_append]
      refine (placePairs_runBytes (encodeAc 0 vs) hv hbv (by omega)).trans ?_
      rw [ih hbvs (by omega)]
      simp only [Placed.mk.injEq, List.length_append, List.length_cons, true_and, and_true, Nat.add_zero]
      omega

/-- The block w holds z's values at the zigzag positions below k, and 0 at the others. -/
def FilledTo (z : List Int) (k : Nat) (w : List Int) : Prop :=
  w.length = 64 ∧ ∀ j < 64, w.getD (zz j) 0 = if j < k then z.getD (zz j) 0 else 0

/-- The block R224 starts from. -/
theorem filledTo_one (z : List Int) : FilledTo z 1 (z.getD 0 0 :: List.replicate 63 0) := by
  refine ⟨rfl, fun j hj => ?_⟩
  cases j with
  | zero => rfl
  | succ j =>
    obtain ⟨i, hi⟩ : ∃ i, zz (j + 1) = i + 1 :=
      Nat.exists_eq_succ_of_ne_zero fun h => absurd (zz_inj hj (by decide) (h.trans zz_zero.symm)) (by omega)
    have hi63 : i < 63 := by have := zz_lt hj; omega
    rw [hi, List.getD_cons_succ, if_neg (by omega), List.getD_replicate _ hi63]

/-- Placing the value at position k, which changes nothing where it is 0. -/
theorem FilledTo.set {z w : List Int} {k : Nat} (h : FilledTo z k w) (hk : k < 64) :
    FilledTo z (k + 1) (w.set (zz k) (z.getD (zz k) 0)) := by
  obtain ⟨hlen, hw⟩ := h
  refine ⟨by simpa using hlen, fun j hj => ?_⟩
  by_cases hjk : j = k
  · subst hjk
    rw [if_pos j.lt_succ_self]
    simp [hlen, zz_lt hj]
  · have hne : zz k ≠ zz j := fun h => hjk (zz_inj hk hj h).symm
    have hset : (w.set (zz k) (z.getD (zz k) 0)).getD (zz j) 0 = w.getD (zz j) 0 := by
      simp [hne]
    rw [hset, hw j hj]
    exact if_congr (by omega) rfl rfl

theorem FilledTo.skip {z w : List Int} {k : Nat} (h : FilledTo z k w) (hz : z.getD (zz k) 0 = 0) :
    FilledTo z (k + 1) w := by
  obtain ⟨hlen, hw⟩ := h
  refine ⟨hlen, fun j hj => (hw j hj).trans ?_⟩
  by_cases hjk : j = k
  · rw [hjk, hz, ite_self, ite_self]
  · exact if_congr (by omega) rfl rfl

theorem FilledTo.eq {z w : List Int} (h : FilledTo z 64 w) (hz : z.length = 64) : w = z := by
  obtain ⟨hlen, hw⟩ := h
  refine List.ext_getElem (hlen.trans hz.symm) fun i hi hi' => ?_
  obtain ⟨k, hk, rfl⟩ := exists_zz_eq (hlen ▸ hi)
  have := hw k hk
  rwa [if_pos hk, List.getD_eq_getElem _ _ hi, List.getD_eq_getElem _ _ hi'] at this

/-- The placements of the last n values fill the rest of the block. -/
theorem filledTo_placeAll {z w : List Int} {k n : Nat} (h : FilledTo z k w) (hk : k + n = 64) :
    FilledTo z 64 (placeAll w (placements k (valuesFrom z k n))) := by
  induction n generalizing k w with
  | zero => exact hk ▸ h
  | succ n ih =>
    rw [valuesFrom_succ, placements]
    split_ifs with hv
    · exact ih (h.skip hv) (by omega)
    · exact ih (h.set (by omega)) (by omega)

/-- Placing the nonzero AC values of a block, each at its position, gives back the block. -/
theorem placedBlock_placements {z : List Int} (hz : z.length = 64) :
    placedBlock (z.getD 0 0) (placements 1 (valuesFrom z 1 63)) = z := by
  rw [placedBlock_eq]
  exact (filledTo_placeAll (filledTo_one z) rfl).eq hz

/-- The AC values of a block at the zigzag positions. -/
theorem forall_mem_valuesFrom {z : List Int} {P : Int → Prop} (h : ∀ k, 1 ≤ k → k < 64 → P (z.getD k 0)) :
    ∀ v ∈ valuesFrom z 1 63, P v := by
  intro v hv
  obtain ⟨j, hj, rfl⟩ := List.mem_map.mp hv
  obtain ⟨hj1, hj2⟩ := List.mem_range'_1.mp hj
  have hne : zz j ≠ 0 := fun h0 => absurd (zz_inj hj2 (by decide) (h0.trans zz_zero.symm)) (by omega)
  exact h _ (Nat.pos_of_ne_zero hne) (zz_lt hj2)

/-- ZZDEC of a block's whole stream writes the block, where no value of it saturates. -/
theorem exec_zzdec_streamOf {s : State} {z : List Int} (hz : z.length = 64)
    (hi32 : -2147483648 ≤ z.getD 0 0 ∧ z.getD 0 0 ≤ 2147483647)
    (hac : ∀ k, 1 ≤ k → k < 64 → -128 ≤ z.getD k 0 ∧ z.getD k 0 ≤ 127)
    (hdc : -128 ≤ z.getD 0 0 - s.prevDcDec.toInt ∧ z.getD 0 0 - s.prevDcDec.toInt ≤ 127)
    (hr : InRange s (larg0 s) (larg1 s) ∧ InRange s (larg2 s) 256) (ha : larg2 s % 4 = 0)
    (hlen : (streamOf z s.prevDcDec.toInt).length = larg1 s) (hh : s.holds (larg0 s) (streamOf z s.prevDcDec.toInt)) :
    exec .zzdec s = .next (s.succeed { plainEffect (larg1 s) (larg0 s + larg1 s) (larg2 s) (z.flatMap i32Bytes) with
      prevDcDec := some (BitVec.ofInt 32 (z.getD 0 0)) }) := by
  have hp : placePairs (encodeAc 0 (valuesFrom z 1 63)) 1 =
      ⟨placements 1 (valuesFrom z 1 63), (encodeAc 0 (valuesFrom z 1 63)).length, false⟩ :=
    placePairs_encodeAc (forall_mem_valuesFrom hac) (by rw [valuesFrom_length])
  have hsat : sat32 (s.prevDcDec.toInt + (streamByte (z.getD 0 0 - s.prevDcDec.toInt)).toInt) = z.getD 0 0 := by
    rw [streamByte_toInt hdc, sat32, sat_eq_max_min (by decide)]
    omega
  rw [streamOf_eq_cons] at hlen hh
  have hexec := exec_zzdec_of_holds hr ha hlen (by rwa [hp, ← List.length_cons, List.take_length])
  rw [hexec, hp, zzdecEffect, hsat, placedBlock_placements hz, ← hlen]
  rfl

/-- A ZZENC that completes without an error wrote the whole stream of its block. -/
theorem exec_zzenc_success {s t : State} {z : List Int} (hz : s.holdsI32Block (larg0 s) z)
    (h : exec .zzenc s = .next t) (he : t.status.errCode = 0) :
    (InRange s (larg0 s) 256 ∧ InRange s (larg1 s) (larg2 s)) ∧
      (streamOf z s.prevDcEnc.toInt).length ≤ larg2 s ∧ t = s.succeed (zzencEffect s z) := by
  obtain ⟨-, hzzenc⟩ := zzencResult
  obtain ⟨hrange, halign, hrun⟩ := hzzenc s
  have herr : ∀ code : Byte, code ≠ 0 → exec .zzenc s ≠ .next (failed s code) := by
    intro code hc hf
    cases h.symm.trans hf
    exact hc he
  have hr : InRange s (larg0 s) 256 ∧ InRange s (larg1 s) (larg2 s) :=
    by_contra fun hn => herr 0x04 (by decide) (hrange hn)
  have ha : larg0 s % 4 = 0 := by_contra fun hn => herr 0x05 (by decide) (halign hr hn)
  obtain ⟨hcap, hok⟩ := hrun hr ha z hz
  have hle := le_of_not_gt fun hlt => herr 0x09 (by decide) (hcap hlt)
  cases h.symm.trans (hok hle)
  exact ⟨hr, hle, rfl⟩

/-- Settles O41: the bytes ZZENC wrote are a stream R224's loop reads to its end, and its placements are the block. -/
theorem zigzagRoundTrip : Obligations.ZigzagRoundTrip := by
  unfold Obligations.ZigzagRoundTrip
  intro s t z d hz hac hlo hhi h he hd hal
  obtain ⟨⟨-, hdst⟩, hle, rfl⟩ := exec_zzenc_success hz h he
  obtain ⟨hlen, hi32, -⟩ := hz
  have hz0 : -2147483648 ≤ z.getD 0 0 ∧ z.getD 0 0 ≤ 2147483647 := by
    rw [List.getD_eq_getElem _ _ (hlen.symm ▸ (by decide : 0 < 64))]
    exact hi32 _ (List.getElem_mem _)
  have hsize := streamOf_length z s.prevDcEnc.toInt
  have hres : (zzencEffect s z).res0.toNat = (streamOf z s.prevDcEnc.toInt).length :=
    Nat.mod_eq_of_lt (by omega)
  have hle' : (zzencEffect s z).res0.toNat ≤ larg2 s := hres.trans_le hle
  refine ⟨_, exec_zzdec_streamOf hlen hz0 hac ⟨hlo, hhi⟩ ⟨?_, hd⟩ hal hres.symm (holds_put s _ _), rfl,
    holds_put _ _ _, BitVec.ofNat_toNat _ _, rfl, rfl⟩
  exact (Nat.add_le_add_left hle' _).trans hdst

end Sys2Proof.Proofs
end

section
/-! Proofs for 43_huffman.md R251 to R255: the loop of R251 takes the argmin twice for each merge; every merge keeps the
symbols below the live nodes, so the finished tree has one path to each symbol of the table; and the codes are those
paths. -/

namespace Sys2Proof.Proofs

open Sys2Proof.Machine Sys2Proof.Statements

/-! ### The merges (R251) -/

theorem freqAt_eq (nodes : List Node) (i : Nat) : freqAt nodes i = freqOf nodes i := by
  unfold freqAt freqOf
  cases nodes[i]? with
  | none => rfl
  | some x => cases x <;> rfl

theorem comesBefore_iff {nodes : List Node} {i j : Nat} : comesBefore nodes i j = true ↔
    freqOf nodes i < freqOf nodes j ∨ (freqOf nodes i = freqOf nodes j ∧ i < j) := by
  simp only [comesBefore, decide_eq_true_eq, freqAt_eq]

/-- The model's scan finds the argmin of (freq, index). -/
theorem isArgmin_argmin (nodes : List Node) (i : Nat) (js : List Nat) :
    IsArgmin nodes (i :: js) (argmin nodes i js) := by
  refine ⟨argmin_mem nodes i js, ?_⟩
  induction js generalizing i with
  | nil => exact List.forall_mem_singleton.mpr (.inr ⟨rfl, le_rfl⟩)
  | cons j js ih =>
    simp only [argmin, List.forall_mem_cons] at ih ⊢
    split
    next hb =>
      obtain ⟨hj, hjs⟩ := ih j
      have hb := comesBefore_iff.mp hb
      exact ⟨by omega, hj, hjs⟩
    next hb =>
      obtain ⟨hi, his⟩ := ih i
      have hb := mt comesBefore_iff.mpr hb
      exact ⟨hi, by omega, his⟩

/-- The node that a merge of a and b adds. -/
def mergedNode (nodes : List Node) (a b : Nat) : Node := .internal (freqOf nodes a + freqOf nodes b) (some a) (some b)

/-- One merge of the model's loop. -/
theorem mergeLoop_succ {n : Nat} {nodes : List Node} {live : List Nat} (h : live.length = n + 2) :
    ∃ a b, IsArgmin nodes live a ∧ IsArgmin nodes (live.erase a) b ∧ mergeLoop (n + 1) nodes live =
      mergeLoop n (nodes ++ [mergedNode nodes a b]) ((live.erase a).erase b ++ [nodes.length]) := by
  obtain ⟨i, is, rfl⟩ := List.exists_cons_of_length_eq_add_one h
  have hlen : ((i :: is).erase (argmin nodes i is)).length = n + 1 :=
    (length_erase_argmin nodes i is).trans (Nat.succ.inj h)
  obtain ⟨j, js, hj⟩ := List.exists_cons_of_length_eq_add_one hlen
  refine ⟨argmin nodes i is, argmin nodes j js, isArgmin_argmin nodes i is, hj ▸ isArgmin_argmin nodes j js, ?_⟩
  simp only [mergeLoop, hj, freqAt_eq, mergedNode]

/-- The model's loop, run once for each merge, is the loop of R251. -/
theorem merges_mergeLoop (n : Nat) (nodes : List Node) (live : List Nat) (h : live.length = n + 1) :
    Merges nodes live (mergeLoop n nodes live) := by
  induction n generalizing nodes live with
  | zero =>
    obtain ⟨root, rfl⟩ := List.length_eq_one_iff.mp h
    exact .done nodes root
  | succ n ih =>
    obtain ⟨a, b, ha, hb, hstep⟩ := mergeLoop_succ (nodes := nodes) h
    rw [hstep]
    refine .merge nodes live a b _ ha hb (ih _ _ ?_)
    simp [List.length_erase_of_mem ha.1, List.length_erase_of_mem hb.1, h]

theorem buildNodes_of_one {t : List (Byte × Nat)} (h : t.length = 1) :
    buildNodes t = leafNodes t ++ [.internal (freqOf (leafNodes t) 0) (some 0) none] := by
  rw [buildNodes, if_pos h, freqAt_eq]

theorem merges_buildNodes {t : List (Byte × Nat)} (h : 2 ≤ t.length) :
    Merges (leafNodes t) (List.range t.length) (buildNodes t) := by
  rw [buildNodes, if_neg (by omega)]
  exact merges_mergeLoop _ _ _ (by rw [List.length_range]; omega)

/-- Settles O45: the model's loop makes R251's merges, one fewer than there are leaves. -/
theorem buildFollowsTieBreak : Obligations.BuildFollowsTieBreak := by
  unfold Obligations.BuildFollowsTieBreak
  rintro t ⟨h1, -, -⟩
  have hlen := buildNodes_length t (List.length_pos_iff.mp h1)
  refine ⟨fun hone => ⟨buildNodes_of_one hone, ?_⟩, fun htwo => ⟨merges_buildNodes htwo, ?_⟩⟩
  · rw [if_pos hone] at hlen
    exact ⟨congrArg (· - 1) hlen, hlen⟩
  · rw [if_neg (by omega)] at hlen
    exact ⟨congrArg (· - 1) hlen, hlen⟩

/-! ### Paths in an arena (R253) -/

/-- The child an edge leads to, false being the left one (R253). -/
def childAlong (edge : Bool) (l r : Option Nat) : Option Nat := if edge then r else l

theorem path_nil_iff {nodes : List Node} {i j : Nat} : Path nodes i [] j ↔ i = j := by
  constructor
  · rintro ⟨⟩
    rfl
  · rintro rfl
    exact .here i

/-- A path with a first edge goes on from the child it leads to. -/
theorem path_cons_iff {nodes : List Node} {i j : Nat} {edge : Bool} {p : List Bool} : Path nodes i (edge :: p) j ↔
    ∃ f l r k, nodes[i]? = some (.internal f l r) ∧ childAlong edge l r = some k ∧ Path nodes k p j := by
  constructor
  · intro h
    cases h with
    | left _ f k _ r _ hn hp => exact ⟨f, some k, r, k, hn, rfl, hp⟩
    | right _ f k _ l _ hn hp => exact ⟨f, l, some k, k, hn, rfl, hp⟩
  · rintro ⟨f, l, r, k, hn, hk, hp⟩
    cases edge with
    | false =>
      obtain rfl : l = some k := hk
      exact .left i f k j r p hn hp
    | true =>
      obtain rfl : r = some k := hk
      exact .right i f k j l p hn hp

/-- Each child stands before its parent. -/
def Descends (nodes : List Node) : Prop :=
  ∀ i f l r, nodes[i]? = some (Node.internal f l r) → ∀ edge k, childAlong edge l r = some k → k < i

theorem leafPaths_none {nodes : List Node} {depth i : Nat} (h : nodes[i]? = none) : leafPaths nodes depth i = [] := by
  cases depth with
  | zero => rfl
  | succ depth => simp only [leafPaths, h]

theorem leafPaths_leaf {nodes : List Node} {i f : Nat} {c : Byte} (depth : Nat) (h : nodes[i]? = some (.leaf c f)) :
    leafPaths nodes (depth + 1) i = [(c, [])] := by simp only [leafPaths, h]

/-- The paths through a child, the edge to it first. -/
def pathsThrough (nodes : List Node) (depth : Nat) (edge : Bool) (child : Option Nat) : List (Byte × List Bool) :=
  child.toList.flatMap fun j => (leafPaths nodes depth j).map fun p => (p.1, edge :: p.2)

theorem leafPaths_internal {nodes : List Node} {i f : Nat} {l r : Option Nat} (depth : Nat)
    (h : nodes[i]? = some (.internal f l r)) :
    leafPaths nodes (depth + 1) i = pathsThrough nodes depth false l ++ pathsThrough nodes depth true r := by
  simp only [leafPaths, h]
  cases l <;> cases r <;> simp [pathsThrough]

theorem mem_pathsThrough {nodes : List Node} {depth : Nat} {edge : Bool} {child : Option Nat} {c : Byte}
    {p : List Bool} : (c, p) ∈ pathsThrough nodes depth edge child ↔
      ∃ k q, child = some k ∧ p = edge :: q ∧ (c, q) ∈ leafPaths nodes depth k := by
  cases child with
  | none => simp [pathsThrough]
  | some k => simp [pathsThrough, and_comm, eq_comm]

theorem mem_leafPaths_internal {nodes : List Node} {i f depth : Nat} {l r : Option Nat} {c : Byte} {p : List Bool}
    (h : nodes[i]? = some (.internal f l r)) : (c, p) ∈ leafPaths nodes (depth + 1) i ↔
      ∃ edge k q, childAlong edge l r = some k ∧ p = edge :: q ∧ (c, q) ∈ leafPaths nodes depth k := by
  rw [leafPaths_internal depth h, List.mem_append, mem_pathsThrough, mem_pathsThrough, Bool.exists_bool]
  rfl

/-- Every listed path leads to a leaf of its symbol. -/
theorem path_of_mem_leafPaths {nodes : List Node} {depth i : Nat} {c : Byte} {p : List Bool}
    (h : (c, p) ∈ leafPaths nodes depth i) : ∃ j f, Path nodes i p j ∧ nodes[j]? = some (.leaf c f) := by
  induction depth generalizing i p with
  | zero => cases h
  | succ depth ih =>
    cases hn : nodes[i]? with
    | none => simp [leafPaths_none hn] at h
    | some x =>
      cases x with
      | leaf s f =>
        obtain ⟨rfl, rfl⟩ : c = s ∧ p = [] := by simpa [leafPaths_leaf depth hn] using h
        exact ⟨i, f, .here i, hn⟩
      | internal f l r =>
        obtain ⟨edge, k, q, hk, rfl, hq⟩ := (mem_leafPaths_internal hn).mp h
        obtain ⟨j, g, hpath, hj⟩ := ih hq
        exact ⟨j, g, path_cons_iff.mpr ⟨f, l, r, k, hn, hk, hpath⟩, hj⟩

/-- Every path to a leaf is listed, as the index falls along it. -/
theorem mem_leafPaths_of_path {nodes : List Node} (hd : Descends nodes) {i j f : Nat} {c : Byte} {p : List Bool}
    (hp : Path nodes i p j) (hj : nodes[j]? = some (.leaf c f)) {depth : Nat} (hi : i < depth) :
    (c, p) ∈ leafPaths nodes depth i := by
  obtain ⟨depth, rfl⟩ := Nat.exists_eq_add_one_of_ne_zero (Nat.ne_zero_of_lt hi)
  induction p generalizing i depth with
  | nil =>
    obtain rfl := path_nil_iff.mp hp
    rw [leafPaths_leaf depth hj]
    exact List.mem_singleton_self _
  | cons edge p ih =>
    obtain ⟨g, l, r, k, hn, hk, hrest⟩ := path_cons_iff.mp hp
    have hki := hd i g l r hn edge k hk
    obtain ⟨depth, rfl⟩ := Nat.exists_eq_add_one_of_ne_zero (n := depth) (by omega)
    exact (mem_leafPaths_internal hn).mpr ⟨edge, k, p, hk, rfl, ih hrest _ (by omega)⟩

/-- A node added at the end changes no path from the nodes before it. -/
theorem leafPaths_concat {nodes : List Node} (hd : Descends nodes) (x : Node) {depth depth' i : Nat}
    (hi : i < nodes.length) (h : i < depth) (h' : i < depth') :
    leafPaths (nodes ++ [x]) depth i = leafPaths nodes depth' i := by
  induction depth generalizing depth' i with
  | zero => omega
  | succ depth ih =>
    obtain ⟨depth', rfl⟩ : ∃ d, depth' = d + 1 := ⟨depth' - 1, by omega⟩
    have hget : (nodes ++ [x])[i]? = nodes[i]? := List.getElem?_append_left hi
    cases hn : nodes[i]? with
    | none => rw [leafPaths_none (hget.trans hn), leafPaths_none hn]
    | some y =>
      cases y with
      | leaf s f => rw [leafPaths_leaf _ (hget.trans hn), leafPaths_leaf _ hn]
      | internal f l r =>
        have hchild : ∀ edge, pathsThrough (nodes ++ [x]) depth edge (childAlong edge l r) =
            pathsThrough nodes depth' edge (childAlong edge l r) := by
          intro edge
          cases hk : childAlong edge l r with
          | none => rfl
          | some k =>
            have hki := hd i f l r hn edge k hk
            simp only [pathsThrough, Option.toList_some, List.flatMap_singleton,
              ih (depth' := depth') (i := k) (by omega) (by omega) (by omega)]
        rw [leafPaths_internal _ (hget.trans hn), leafPaths_internal _ hn]
        exact congrArg₂ (· ++ ·) (hchild false) (hchild true)

/-! ### The symbols below the live nodes (R251) -/

/-- The symbols of the leaves below a node. -/
def symbolsBelow (nodes : List Node) (i : Nat) : List Byte := (leafPaths nodes nodes.length i).map Prod.fst

theorem symbolsBelow_concat {nodes : List Node} (hd : Descends nodes) (x : Node) {i : Nat} (hi : i < nodes.length) :
    symbolsBelow (nodes ++ [x]) i = symbolsBelow nodes i := by
  have hlen : i < (nodes ++ [x]).length := by rw [List.length_append]; omega
  rw [symbolsBelow, symbolsBelow, leafPaths_concat hd x hi hlen hi]

theorem map_fst_pathsThrough (nodes : List Node) (depth : Nat) (edge : Bool) (j : Nat) :
    (pathsThrough nodes depth edge (some j)).map Prod.fst = (leafPaths nodes depth j).map Prod.fst := by
  simp [pathsThrough]

/-- The symbols below a node with a left child alone. -/
theorem symbolsBelow_onlyChild {nodes : List Node} (hd : Descends nodes) {a : Nat} (f : Nat) (ha : a < nodes.length) :
    symbolsBelow (nodes ++ [.internal f (some a) none]) nodes.length = symbolsBelow nodes a := by
  rw [symbolsBelow, List.length_append, List.length_singleton, leafPaths_internal _ List.getElem?_concat_length,
    List.map_append, map_fst_pathsThrough, leafPaths_concat hd _ ha ha ha, pathsThrough]
  simp [symbolsBelow]

/-- The symbols below the node a merge adds. -/
theorem symbolsBelow_merged {nodes : List Node} (hd : Descends nodes) {a b : Nat} (f : Nat) (ha : a < nodes.length)
    (hb : b < nodes.length) : symbolsBelow (nodes ++ [.internal f (some a) (some b)]) nodes.length =
      symbolsBelow nodes a ++ symbolsBelow nodes b := by
  rw [symbolsBelow, List.length_append, List.length_singleton, leafPaths_internal _ List.getElem?_concat_length,
    List.map_append, map_fst_pathsThrough, map_fst_pathsThrough, leafPaths_concat hd _ ha ha ha,
    leafPaths_concat hd _ hb hb hb, symbolsBelow, symbolsBelow]

/-- An arena in the making: the leaves of the table and then internal nodes, each above its children, the newest node
live, and the symbols below the live nodes those of the table. -/
structure Forest (t : List (Byte × Nat)) (nodes : List Node) (live : List Nat) : Prop where
  leaves : ∃ inner, nodes = leafNodes t ++ inner ∧ ∀ x ∈ inner, nodeSym x = none
  descends : Descends nodes
  bounded : ∀ i ∈ live, i < nodes.length
  newest : live.getLast? = some (nodes.length - 1)
  symbols : (live.flatMap (symbolsBelow nodes)).Perm (t.map Prod.fst)

theorem descends_concat {nodes : List Node} (hd : Descends nodes) {f : Nat} {l r : Option Nat}
    (hchild : ∀ edge k, childAlong edge l r = some k → k < nodes.length) :
    Descends (nodes ++ [.internal f l r]) := by
  intro i g l' r' h
  rcases Nat.lt_trichotomy i nodes.length with hi | rfl | hi
  · exact hd i g l' r' ((List.getElem?_append_left hi).symm.trans h)
  · cases List.getElem?_concat_length.symm.trans h
    exact hchild
  · rw [List.getElem?_eq_none (by rw [List.length_append, List.length_singleton]; omega)] at h
    cases h

theorem leaves_concat {t : List (Byte × Nat)} {nodes : List Node} {f : Nat} {l r : Option Nat}
    (h : ∃ inner, nodes = leafNodes t ++ inner ∧ ∀ x ∈ inner, nodeSym x = none) :
    ∃ inner, nodes ++ [.internal f l r] = leafNodes t ++ inner ∧ ∀ x ∈ inner, nodeSym x = none := by
  obtain ⟨inner, rfl, hinner⟩ := h
  refine ⟨inner ++ [.internal f l r], List.append_assoc _ _ _, fun x hx => ?_⟩
  rcases List.mem_append.mp hx with hx | hx
  · exact hinner x hx
  · cases List.mem_singleton.mp hx
    rfl

theorem leafNodes_getElem? {t : List (Byte × Nat)} {i : Nat} : (leafNodes t)[i]? = t[i]?.map fun e => .leaf e.1 e.2 :=
  List.getElem?_map

theorem descends_leafNodes (t : List (Byte × Nat)) : Descends (leafNodes t) := by
  intro i f l r h
  simp [leafNodes_getElem?] at h

theorem symbolsBelow_leafNodes {t : List (Byte × Nat)} {i : Nat} (h : i < t.length) :
    symbolsBelow (leafNodes t) i = [t[i].1] := by
  have hget : (leafNodes t)[i]? = some (.leaf t[i].1 t[i].2) := by simp [leafNodes_getElem?, h]
  obtain ⟨n, hn⟩ : ∃ n, (leafNodes t).length = n + 1 := ⟨t.length - 1, by rw [leafNodes, List.length_map]; omega⟩
  rw [symbolsBelow, hn, leafPaths_leaf n hget]
  rfl

theorem flatMap_symbolsBelow_leafNodes (t : List (Byte × Nat)) :
    (List.range t.length).flatMap (symbolsBelow (leafNodes t)) = t.map Prod.fst := by
  have hsingle : (List.range t.length).flatMap (symbolsBelow (leafNodes t)) =
      (List.range t.length).map fun i => (t.getD i (0, 0)).1 := by
    rw [List.map_eq_flatMap]
    refine List.flatMap_congr fun i hi => ?_
    have hi := List.mem_range.mp hi
    rw [symbolsBelow_leafNodes hi, List.getD_eq_getElem _ _ hi]
  rw [hsingle]
  refine List.ext_getElem (by simp) fun i _ hi => ?_
  rw [List.length_map] at hi
  simp [hi]

/-- Before the first merge every leaf is live. -/
theorem forest_leafNodes {t : List (Byte × Nat)} (h : t ≠ []) : Forest t (leafNodes t) (List.range t.length) where
  leaves := ⟨[], (List.append_nil _).symm, nofun⟩
  descends := descends_leafNodes t
  bounded := by simp [leafNodes]
  newest := by simp [leafNodes, List.getLast?_range, h]
  symbols := .of_eq (flatMap_symbolsBelow_leafNodes t)

theorem Forest.getElem?_entry {t : List (Byte × Nat)} {nodes : List Node} {live : List Nat} (hf : Forest t nodes live)
    {k : Nat} (hk : k < t.length) : nodes[k]? = some (.leaf t[k].1 t[k].2) := by
  obtain ⟨inner, rfl, -⟩ := hf.leaves
  rw [List.getElem?_append_left (by rwa [leafNodes, List.length_map]), leafNodes_getElem?,
    List.getElem?_eq_getElem hk]
  rfl

/-- A merge keeps the forest. -/
theorem Forest.merge {t : List (Byte × Nat)} {nodes : List Node} {live : List Nat} (hf : Forest t nodes live)
    {a b f : Nat} (ha : a ∈ live) (hb : b ∈ live.erase a) :
    Forest t (nodes ++ [.internal f (some a) (some b)]) ((live.erase a).erase b ++ [nodes.length]) := by
  have hrest : ∀ i ∈ (live.erase a).erase b, i < nodes.length := fun i hi =>
    hf.bounded i (List.mem_of_mem_erase (List.mem_of_mem_erase hi))
  have halt := hf.bounded a ha
  have hblt := hf.bounded b (List.mem_of_mem_erase hb)
  have hlive : live.Perm ((live.erase a).erase b ++ [a, b]) :=
    (List.perm_cons_erase ha).trans
      (((List.perm_cons_erase hb).cons a).trans (List.perm_append_comm (l₁ := [a, b])))
  refine ⟨leaves_concat hf.leaves, descends_concat hf.descends ?_, ?_, ?_, ?_⟩
  · rintro (_ | _) k ⟨⟩
    · exact halt
    · exact hblt
  · simp only [List.mem_append, List.mem_singleton, List.length_append, List.length_singleton]
    rintro i (hi | rfl)
    · exact (hrest i hi).trans (Nat.lt_succ_self _)
    · exact Nat.lt_succ_self _
  · simp
  · have hold : ((live.erase a).erase b).flatMap (symbolsBelow (nodes ++ [.internal f (some a) (some b)])) =
        ((live.erase a).erase b).flatMap (symbolsBelow nodes) :=
      List.flatMap_congr fun i hi => symbolsBelow_concat hf.descends _ (hrest i hi)
    rw [List.flatMap_append, hold, List.flatMap_singleton, symbolsBelow_merged hf.descends f halt hblt]
    have hsame := (hlive.flatMap_right (symbolsBelow nodes)).symm.trans hf.symbols
    simpa using hsame

/-- R251's loop ends with one live node, the last of the arena. -/
theorem forest_of_merges {t : List (Byte × Nat)} {nodes out : List Node} {live : List Nat} (h : Merges nodes live out)
    (hf : Forest t nodes live) : Forest t out [out.length - 1] := by
  induction h with
  | done nodes root =>
    cases hf.newest
    exact hf
  | merge nodes live a b out ha hb _ ih => exact ih (hf.merge ha.1 hb.1)

/-- The finished arena of a table is a tree over its last node. -/
theorem forest_buildNodes {t : List (Byte × Nat)} (h : t ≠ []) :
    Forest t (buildNodes t) [(buildNodes t).length - 1] := by
  rcases Nat.lt_or_ge 1 t.length with htwo | hone
  · exact forest_of_merges (merges_buildNodes htwo) (forest_leafNodes h)
  · have hone : t.length = 1 := le_antisymm hone (List.length_pos_iff.mpr h)
    have hleaf : 0 < (leafNodes t).length := by rw [leafNodes, List.length_map, hone]; decide
    have hstart := forest_leafNodes h
    rw [buildNodes_of_one hone, List.length_append, List.length_singleton, Nat.add_sub_cancel]
    refine ⟨leaves_concat hstart.leaves, descends_concat hstart.descends ?_, ?_, ?_, ?_⟩
    · rintro (_ | _) k ⟨⟩
      exact hleaf
    · simp
    · simp
    · rw [List.flatMap_singleton, symbolsBelow_onlyChild hstart.descends _ hleaf]
      simpa [hone] using hstart.symbols

/-! ### The code table (R253) -/

section Codes

variable {t : List (Byte × Nat)}

/-- The paths to the leaves of the finished tree. -/
def treePaths (t : List (Byte × Nat)) : List (Byte × List Bool) :=
  leafPaths (buildNodes t) (buildNodes t).length ((buildNodes t).length - 1)

theorem root_lt (h : t ≠ []) : (buildTree t).root < (buildTree t).nodes.length :=
  (forest_buildNodes h).bounded _ (List.mem_singleton_self _)

/-- The tree has one leaf for each entry. -/
theorem map_fst_treePaths (h : t ≠ []) : ((treePaths t).map Prod.fst).Perm (t.map Prod.fst) := by
  simpa [symbolsBelow, treePaths] using (forest_buildNodes h).symbols

theorem mem_treePaths_of_path (h : t ≠ []) {c : Byte} {f i : Nat} {p : List Bool}
    (hp : Path (buildTree t).nodes (buildTree t).root p i) (hi : (buildTree t).nodes[i]? = some (.leaf c f)) :
    (c, p) ∈ treePaths t :=
  mem_leafPaths_of_path (forest_buildNodes h).descends hp hi (root_lt h)

/-- The code table looks a symbol up among the paths. -/
theorem codeAt_buildTree (c : Byte) : codeAt (buildTree t) c.toNat =
    (((treePaths t).find? fun p => p.1.toNat == c.toNat).map Prod.snd).getD [] := by
  have hc : c.toNat < 256 := c.isLt
  simp [codeAt, buildTree, codeTable, treePaths, hc]

theorem find?_symbol {ps : List (Byte × List Bool)} (hn : (ps.map Prod.fst).Nodup) {c : Byte} {p : List Bool}
    (h : (c, p) ∈ ps) : (ps.find? fun q => q.1.toNat == c.toNat) = some (c, p) := by
  cases hq : ps.find? fun q => q.1.toNat == c.toNat with
  | none => simpa using List.find?_eq_none.mp hq _ h
  | some q =>
    have hsym : q.1 = c := BitVec.eq_of_toNat_eq (by simpa using List.find?_some hq)
    rw [List.inj_on_of_nodup_map hn (List.mem_of_find?_eq_some hq) h hsym]

theorem nodup_treePaths (ht : IsTable t) : ((treePaths t).map Prod.fst).Nodup :=
  (map_fst_treePaths (List.length_pos_iff.mp ht.1)).nodup_iff.mpr ht.2.2

theorem codeAt_of_mem (ht : IsTable t) {c : Byte} {p : List Bool} (h : (c, p) ∈ treePaths t) :
    codeAt (buildTree t) c.toNat = p := by
  rw [codeAt_buildTree, find?_symbol (nodup_treePaths ht) h]
  rfl

/-- The path to a leaf is its symbol's code. -/
theorem codeAt_of_path (ht : IsTable t) {c : Byte} {f i : Nat} {p : List Bool}
    (hp : Path (buildTree t).nodes (buildTree t).root p i) (hi : (buildTree t).nodes[i]? = some (.leaf c f)) :
    codeAt (buildTree t) c.toNat = p :=
  codeAt_of_mem ht (mem_treePaths_of_path (List.length_pos_iff.mp ht.1) hp hi)

/-- A symbol that is not in the table has no code. -/
theorem codeAt_of_not_mem (ht : IsTable t) {c : Byte} (h : c ∉ t.map Prod.fst) :
    codeAt (buildTree t) c.toNat = [] := by
  have hnone : ((treePaths t).find? fun p => p.1.toNat == c.toNat) = none := by
    refine List.find?_eq_none.mpr fun q hq hc => h ?_
    have hsym : q.1 = c := BitVec.eq_of_toNat_eq (by simpa using hc)
    rw [← hsym]
    exact (map_fst_treePaths (List.length_pos_iff.mp ht.1)).mem_iff.mp (List.mem_map_of_mem hq)
  rw [codeAt_buildTree, hnone]
  rfl

/-- The nodes of the table's entries come first, and all others are internal. -/
theorem node_of_entry (h : t ≠ []) {k : Nat} (hk : k < t.length) :
    (buildTree t).nodes[k]? = some (.leaf t[k].1 t[k].2) := (forest_buildNodes h).getElem?_entry hk

theorem entry_of_leaf (h : t ≠ []) {i f : Nat} {c : Byte} (hi : (buildTree t).nodes[i]? = some (.leaf c f)) :
    t[i]? = some (c, f) := by
  obtain ⟨inner, hnodes, hinner⟩ := (forest_buildNodes h).leaves
  have hi' : (leafNodes t ++ inner)[i]? = some (.leaf c f) := hnodes ▸ hi
  rcases Nat.lt_or_ge i (leafNodes t).length with hlt | hge
  · rw [List.getElem?_append_left hlt, leafNodes_getElem?] at hi'
    simpa using hi'
  · rw [List.getElem?_append_right hge] at hi'
    cases hinner _ (List.mem_of_getElem? hi')

/-- Every entry's leaf is reached by its symbol's code. -/
theorem path_codeAt (ht : IsTable t) {k : Nat} (hk : k < t.length) :
    Path (buildTree t).nodes (buildTree t).root (codeAt (buildTree t) t[k].1.toNat) k := by
  have h := List.length_pos_iff.mp ht.1
  have hmem : t[k].1 ∈ (treePaths t).map Prod.fst :=
    (map_fst_treePaths h).mem_iff.mpr (List.mem_map_of_mem (List.getElem_mem hk))
  obtain ⟨⟨c, p⟩, hp, hc⟩ := List.mem_map.mp hmem
  obtain ⟨j, f, hpath, hj⟩ := path_of_mem_leafPaths hp
  obtain ⟨hjt, hje⟩ := List.getElem?_eq_some_iff.mp (entry_of_leaf h hj)
  have hjk : j = k := by
    refine (List.Nodup.getElem_inj_iff ht.2.2 (hi := ?_) (hj := ?_)).mp ?_
    · rwa [List.length_map]
    · rwa [List.length_map]
    · simp [hje, hc]
  subst hjk
  have hcode := codeAt_of_path ht hpath hj
  rw [← hc, hcode]
  exact hpath

/-- The root is no leaf. -/
theorem root_ne_entry {k : Nat} (hk : k < t.length) : (buildTree t).root ≠ k := by
  have hlen := buildNodes_length t (List.length_pos_iff.mp (by omega))
  have hroot : (buildTree t).root = (buildNodes t).length - 1 := rfl
  split at hlen <;> omega

theorem codeAt_ne_nil (ht : IsTable t) {k : Nat} (hk : k < t.length) : codeAt (buildTree t) t[k].1.toNat ≠ [] := by
  intro hnil
  have hpath := hnil ▸ path_codeAt ht hk
  cases hpath
  exact root_ne_entry hk rfl

/-- A symbol with a code has a leaf its code leads to. -/
theorem exists_path_of_codeAt_ne_nil (ht : IsTable t) {c : Byte} (h : codeAt (buildTree t) c.toNat ≠ []) :
    ∃ k f, Path (buildTree t).nodes (buildTree t).root (codeAt (buildTree t) c.toNat) k ∧
      (buildTree t).nodes[k]? = some (.leaf c f) := by
  have hc : c ∈ t.map Prod.fst := by_contra fun hn => h (codeAt_of_not_mem ht hn)
  obtain ⟨e, he, rfl⟩ := List.mem_map.mp hc
  obtain ⟨k, hk, rfl⟩ := List.mem_iff_getElem.mp he
  exact ⟨k, t[k].2, path_codeAt ht hk, node_of_entry (List.length_pos_iff.mp ht.1) hk⟩

end Codes

/-- MAXLEN is the greatest of 0 and the code lengths. -/
theorem longest_spec (codes : List (List Bool)) :
    longest codes ∈ 0 :: codes.map List.length ∧ ∀ n ∈ 0 :: codes.map List.length, n ≤ longest codes := by
  rw [← List.max?_eq_some_iff, List.max?_cons', longest, List.foldl_map]

theorem length_le_longest {codes : List (List Bool)} {c : List Bool} (h : c ∈ codes) : c.length ≤ longest codes :=
  (longest_spec codes).2 _ (List.mem_cons_of_mem 0 (List.mem_map_of_mem h))

/-- MAXLEN is reached. -/
theorem exists_length_eq_longest {codes : List (List Bool)} (h : codes ≠ []) :
    ∃ c ∈ codes, c.length = longest codes := by
  rcases List.mem_cons.mp (longest_spec codes).1 with h0 | hmem
  · obtain ⟨c, hc⟩ := List.exists_mem_of_ne_nil codes h
    exact ⟨c, hc, Nat.le_antisymm (length_le_longest hc) (h0.trans_le (Nat.zero_le _))⟩
  · exact List.mem_map.mp hmem

/-- The codes of a table are those of the 256 symbols. -/
theorem mem_codes_iff {t : List (Byte × Nat)} {code : List Bool} :
    code ∈ (buildTree t).codes ↔ ∃ c : Byte, codeAt (buildTree t) c.toNat = code := by
  have hlen : (buildTree t).codes.length = 256 := codeTable_length _ _
  constructor
  · intro h
    obtain ⟨k, hk, rfl⟩ := List.mem_iff_getElem.mp h
    refine ⟨BitVec.ofNat 8 k, ?_⟩
    have hk256 : k < 2 ^ 8 := hk.trans_eq hlen
    rw [BitVec.toNat_ofNat, Nat.mod_eq_of_lt hk256]
    exact List.getD_eq_getElem _ _ hk
  · rintro ⟨c, rfl⟩
    rw [codeAt, List.getD_eq_getElem _ _ (hlen ▸ c.isLt)]
    exact List.getElem_mem _

theorem maxLen_eq (t : List (Byte × Nat)) : (buildTree t).maxLen = longest (buildTree t).codes := by
  simp only [buildTree]

theorem codeAt_length_le (t : List (Byte × Nat)) (c : Byte) :
    (codeAt (buildTree t) c.toNat).length ≤ (buildTree t).maxLen := by
  rw [maxLen_eq]
  exact length_le_longest (mem_codes_iff.mpr ⟨c, rfl⟩)

theorem exists_codeAt_length_eq (t : List (Byte × Nat)) :
    ∃ c : Byte, (codeAt (buildTree t) c.toNat).length = (buildTree t).maxLen := by
  have hlen : (buildTree t).codes.length = 256 := codeTable_length _ _
  obtain ⟨code, hcode, hmax⟩ := exists_length_eq_longest (List.ne_nil_of_length_eq_add_one hlen)
  obtain ⟨c, rfl⟩ := mem_codes_iff.mp hcode
  exact ⟨c, hmax.trans (maxLen_eq t).symm⟩

/-- Settles O46: the symbols below the root are those of the table, each once, and the code table lists the paths to
them. -/
theorem codesAreLeafPaths : Obligations.CodesAreLeafPaths := by
  unfold Obligations.CodesAreLeafPaths
  intro t ht
  have hne := List.length_pos_iff.mp ht.1
  refine ⟨fun p i c f => codeAt_of_path ht, fun k hk => ⟨node_of_entry hne hk, path_codeAt ht hk, ?_⟩,
    fun c => codeAt_of_not_mem ht, exists_codeAt_length_eq t, codeAt_length_le t⟩
  exact List.length_pos_iff.mpr (codeAt_ne_nil ht hk)

/-! ### The shape of the tree (R254) -/

theorem path_functional {nodes : List Node} {i j k : Nat} {p : List Bool} (h : Path nodes i p j)
    (h' : Path nodes i p k) : j = k := by
  induction p generalizing i with
  | nil => exact (path_nil_iff.mp h).symm.trans (path_nil_iff.mp h')
  | cons edge p ih =>
    obtain ⟨f, l, r, a, hn, ha, hrest⟩ := path_cons_iff.mp h
    obtain ⟨f', l', r', b, hn', hb, hrest'⟩ := path_cons_iff.mp h'
    cases hn.symm.trans hn'
    cases ha.symm.trans hb
    exact ih hrest hrest'

theorem path_append {nodes : List Node} {i j : Nat} {p q : List Bool} (h : Path nodes i (p ++ q) j) :
    ∃ m, Path nodes i p m ∧ Path nodes m q j := by
  induction p generalizing i with
  | nil => exact ⟨i, .here i, h⟩
  | cons edge p ih =>
    obtain ⟨f, l, r, k, hn, hk, hrest⟩ := path_cons_iff.mp h
    obtain ⟨m, hp, hq⟩ := ih hrest
    exact ⟨m, path_cons_iff.mpr ⟨f, l, r, k, hn, hk, hp⟩, hq⟩

/-- No edge leaves a leaf. -/
theorem path_from_leaf {nodes : List Node} {i j f : Nat} {c : Byte} {p : List Bool}
    (hi : nodes[i]? = some (.leaf c f)) (h : Path nodes i p j) : p = [] ∧ i = j := by
  cases h with
  | here => exact ⟨rfl, rfl⟩
  | left _ _ _ _ _ _ hn => cases hi.symm.trans hn
  | right _ _ _ _ _ _ hn => cases hi.symm.trans hn

/-- A code ends at a leaf, so no other symbol's code goes on from it. -/
theorem no_code_extends_another {t : List (Byte × Nat)} (ht : IsTable t) {c d : Byte} (hcd : c ≠ d)
    (hc : codeAt (buildTree t) c.toNat ≠ []) : ¬ codeAt (buildTree t) c.toNat <+: codeAt (buildTree t) d.toNat := by
  rintro ⟨q, hq⟩
  have hd : codeAt (buildTree t) d.toNat ≠ [] := fun hd => hc (List.append_eq_nil_iff.mp (hq.trans hd)).1
  obtain ⟨j, f, hpc, hj⟩ := exists_path_of_codeAt_ne_nil ht hc
  obtain ⟨k, g, hpd, hk⟩ := exists_path_of_codeAt_ne_nil ht hd
  rw [← hq] at hpd
  obtain ⟨m, hpm, hmq⟩ := path_append hpd
  rw [path_functional hpm hpc] at hmq
  obtain ⟨-, rfl⟩ := path_from_leaf hj hmq
  cases hj.symm.trans hk
  exact hcd rfl

/-- Every internal node has two children. -/
def FullTree (nodes : List Node) : Prop := ∀ f l r, Node.internal f l r ∈ nodes → l ≠ none ∧ r ≠ none

theorem fullTree_of_merges {nodes out : List Node} {live : List Nat} (h : Merges nodes live out) (hf : FullTree nodes) :
    FullTree out := by
  induction h with
  | done => exact hf
  | merge nodes live a b out _ _ _ ih =>
    refine ih fun f l r hmem => ?_
    rcases List.mem_append.mp hmem with hmem | hmem
    · exact hf f l r hmem
    · cases List.mem_singleton.mp hmem
      exact ⟨nofun, nofun⟩

theorem fullTree_buildTree {t : List (Byte × Nat)} (h : 2 ≤ t.length) : FullTree (buildTree t).nodes :=
  fullTree_of_merges (merges_buildNodes h) fun f l r hmem => by simp [leafNodes] at hmem

/-- The internal nodes stand after the n leaves, and the index falls along a path, so a path from node i has at most
i + 1 - n edges. -/
theorem path_length_le {t : List (Byte × Nat)} {nodes : List Node} {live : List Nat} (hf : Forest t nodes live)
    {i j : Nat} {p : List Bool} (h : Path nodes i p j) : p = [] ∨ t.length + p.length ≤ i + 1 := by
  induction p generalizing i with
  | nil => exact .inl rfl
  | cons edge p ih =>
    obtain ⟨f, l, r, k, hn, hk, hrest⟩ := path_cons_iff.mp h
    have hki := hf.descends i f l r hn edge k hk
    have hi : t.length ≤ i := le_of_not_gt fun hlt => by cases (hf.getElem?_entry hlt).symm.trans hn
    rw [List.length_cons]
    rcases ih hrest with rfl | hle
    · exact .inr (Nat.succ_le_succ hi)
    · exact .inr (by omega)

theorem maxLen_le {t : List (Byte × Nat)} (ht : IsTable t) (h2 : 2 ≤ t.length) :
    (buildTree t).maxLen ≤ t.length - 1 := by
  obtain ⟨c, hc⟩ := exists_codeAt_length_eq t
  by_cases hnil : codeAt (buildTree t) c.toNat = []
  · rw [← hc, hnil]
    exact Nat.zero_le _
  · obtain ⟨k, f, hpath, -⟩ := exists_path_of_codeAt_ne_nil ht hnil
    have hle := (path_length_le (forest_buildNodes (List.length_pos_iff.mp ht.1)) hpath).resolve_left hnil
    obtain ⟨-, hmany⟩ := buildFollowsTieBreak t ht
    obtain ⟨-, hroot, -⟩ := hmany h2
    omega

/-- Settles O47: each merge gives its node two children, and of the Fibonacci table the code lengths are evaluated. -/
theorem treeProperties : Obligations.TreeProperties := by
  unfold Obligations.TreeProperties
  refine ⟨fun t ht h2 => ?_, by decide +kernel⟩
  obtain ⟨-, hmany⟩ := buildFollowsTieBreak t ht
  obtain ⟨-, -, hcount⟩ := hmany h2
  have hmax := maxLen_le ht h2
  have hle : t.length ≤ 256 := ht.2.1
  exact ⟨hcount, by omega, fullTree_buildTree h2, hmax, by omega, fun c d => no_code_extends_another ht⟩

end Sys2Proof.Proofs
end

section
/-! Proofs for 43_huffman.md R250 to R259: the checks of the four commands; the model's loops over LMEM are the rules'
loops over bytes and bits; no edge of a full tree is missing; and R258's walk undoes R256's packing. -/

namespace Sys2Proof.Proofs

open Sys2Proof.Machine Sys2Proof.Statements

/-! ### The checks of a command with a src and a dst region (R83 to R85, R351) -/

section Checks

variable {i : Instr} {s : State} {r q : Region}

theorem forall_mem_regions_iff {l : Args} {P : Region → Prop} (hsrc : srcRegion i l = some r)
    (hdst : dstRegion i l = some q) : (∀ x ∈ regions i l, P x) ↔ P r ∧ P q := by
  simp [regions, hsrc, hdst]

theorem overlaps_eq_true (h : ¬ Apart r.start r.len q.start q.len) : r.overlaps q = true := by
  simp only [Region.overlaps, decide_eq_true_eq]
  omega

/-- Step 5 of the check order, once steps 2 to 4 have passed (R351). -/
theorem precheck_overlap (harg : argError i s.latch.args = none)
    (hin : ∀ r ∈ regions i s.latch.args, r.start + r.len ≤ s.platform.lmemSize)
    (hal : ∀ r ∈ regions i s.latch.args, r.start % r.align = 0) (href : refusesOverlap i = true)
    (hov : srcDstOverlap i s.latch.args = true) : precheck i s = some .overlap := by
  have hin' : (regions i s.latch.args).all (Region.inRange s.platform.lmemSize) = true := by
    simpa [Region.inRange] using hin
  have hal' : (regions i s.latch.args).all Region.aligned = true := by
    simpa [Region.aligned] using hal
  simp [precheck, harg, hin', hal', href, hov]

end Checks

/-! ### HIST (R250) -/

theorem countSymbol_eq_occurrences (bs : List Byte) {c : Nat} (hc : c < 256) :
    countSymbol bs c = occurrences bs c := by
  refine List.countP_congr fun b _ => ?_
  rw [beq_iff_eq, beq_iff_eq]
  exact ⟨fun h => by rw [← h, BitVec.ofNat_toNat, BitVec.setWidth_eq], fun h => by
    rw [h, BitVec.toNat_ofNat, Nat.mod_eq_of_lt hc]⟩

/-- The model's pairs are the occurring symbols with their counts. -/
theorem histogram_eq (bs : List Byte) : histogram bs = (occurring bs).map fun c => (c, occurrences bs c) := by
  have hmap : ((List.range 256).map fun c => (c, countSymbol bs c)) =
      (List.range 256).map fun c => (c, occurrences bs c) :=
    List.map_congr_left fun c hc => by rw [countSymbol_eq_occurrences bs (List.mem_range.mp hc)]
  rw [histogram, hmap, List.filter_map, occurring]
  refine congrArg (List.map _) (List.filter_congr fun c _ => ?_)
  simp [occurrences, List.count_pos_iff]

theorem histBody_of_holds {s : State} {bs : List Byte} (hlen : bs.length = larg1 s) (hh : s.holds (larg0 s) bs) :
    commandBody .hist s = .ok (plainEffect (occurring bs).length (8 * (occurring bs).length) (larg2 s)
      (histogramBytes bs)) := by
  simp only [commandBody, histBody, readBytes_ok_iff.mpr ⟨hlen, hh⟩, histogram_eq, List.length_map, List.flatMap_map]
  rfl

theorem inRange_hist_iff {s : State} : (∀ r ∈ regions .hist s.latch.args, r.start + r.len ≤ s.platform.lmemSize) ↔
    InRange s (larg0 s) (larg1 s) ∧ InRange s (larg2 s) 2048 := by
  rw [forall_mem_regions_iff rfl rfl]

theorem aligned_hist_iff {s : State} : (∀ r ∈ regions .hist s.latch.args, r.start % r.align = 0) ↔ larg2 s % 4 = 0 := by
  rw [forall_mem_regions_iff rfl rfl]
  exact and_iff_right (Nat.mod_one _)

/-- Settles O43: the symbols that occur are those with a count, and a byte is counted once. -/
theorem histResult : Obligations.HistResult := by
  unfold Obligations.HistResult
  refine ⟨rfl, fun s => ?_⟩
  simp only [ne_eq, ← inRange_hist_iff, ← aligned_hist_iff]
  refine ⟨fun hr => exec_failed rfl (precheck_range rfl hr), fun hr ha => exec_failed rfl (precheck_align rfl hr ha),
    fun hr ha hap => exec_failed rfl (precheck_overlap rfl hr ha rfl (overlaps_eq_true hap)),
    fun hr ha hap bs hlen hh => ?_⟩
  have hp : precheck .hist s = none := precheck_none_iff.mpr ⟨rfl, hr, ha, fun _ => overlaps_eq_false hap, nofun⟩
  exact exec_succeeded hp (histBody_of_holds hlen hh)

/-! ### TBUILD (R252, R253) -/

theorem readU32_of_holds {s : State} {a v : Nat} (hv : v < 2 ^ 32) (h : s.holds a (leBytes 4 v)) :
    s.readU32 a = .ok v := by
  rw [State.readU32, readBytes_ok_iff.mpr ⟨leBytes_length 4 v, h⟩, Except.map, leValue_leBytes]
  exact congrArg Except.ok (Nat.mod_eq_of_lt hv)

theorem readEntries_of_holdsTable {s : State} {t : List (Byte × Nat)} (hlen : t.length = larg1 s)
    (ht : HoldsTable s (larg0 s) t) : readEach (readEntry s) (List.range (larg1 s)) = .ok t := by
  refine readEach_range hlen fun k e hk => ?_
  obtain ⟨hkt, rfl⟩ := List.getElem?_eq_some_iff.mp hk
  obtain ⟨hsym, hlt, hfreq⟩ := ht k hkt
  simp only [readEntry, readByte_ok_iff.mpr hsym, readU32_of_holds hlt hfreq]

theorem bitOf_eq (bits : List Bool) (k : Nat) : bitOf bits k = bitNumber bits k := by
  rw [bitOf, bitNumber]
  cases bits.getD k false <;> rfl

theorem packedByte_eq (bits : List Bool) (j : Nat) : packedByte bits j = BitVec.ofNat 8
    (bitNumber bits (8 * j) * 128 + bitNumber bits (8 * j + 1) * 64 + bitNumber bits (8 * j + 2) * 32
      + bitNumber bits (8 * j + 3) * 16 + bitNumber bits (8 * j + 4) * 8 + bitNumber bits (8 * j + 5) * 4
      + bitNumber bits (8 * j + 6) * 2 + bitNumber bits (8 * j + 7)) := by
  simp [packedByte, bitOf_eq, List.range_succ, Nat.add_assoc]

theorem packBits_eq_packed (n : Nat) (bits : List Bool) : packBits n bits = packed n bits :=
  List.map_congr_left fun j _ => packedByte_eq bits j

theorem flatMap_codeEntry {h : Huffman} (hlen : h.codes.length = 256) :
    h.codes.flatMap codeEntry = codeTableBytes h := by
  have hcodes : h.codes = (List.range 256).map (codeAt h) :=
    List.ext_getElem (by simp [hlen]) fun k hk _ => by simp [codeAt, hk]
  conv_lhs => rw [hcodes]
  rw [List.flatMap_map, codeTableBytes]
  refine List.flatMap_congr fun c _ => ?_
  rw [codeEntry, packBits_eq_packed]
  rfl

/-- What a TBUILD of the table t does. -/
def tbuildEffect (ct : Bool) (s : State) (t : List (Byte × Nat)) : Effect :=
  { plainEffect (buildTree t).nodeCount (buildTree t).maxLen (if ct then larg2 s else 0)
      (if ct then codeTableBytes (buildTree t) else []) with huffman := some (buildTree t) }

theorem tbuildBody_of_holdsTable {ct : Bool} {s : State} {t : List (Byte × Nat)} (hlen : t.length = larg1 s)
    (ht : HoldsTable s (larg0 s) t) : commandBody (.tbuild ct) s =
      if (t.map Prod.fst).Nodup then .ok (tbuildEffect ct s t) else .error (.raise .badTable) := by
  have hcodes : (buildTree t).codes.length = 256 := codeTable_length _ _
  simp only [commandBody, tbuildBody, readEntries_of_holdsTable hlen ht, distinctSymbols, decide_eq_true_eq,
    flatMap_codeEntry hcodes, tbuildEffect]

theorem succeed_tbuildEffect (ct : Bool) (s : State) (t : List (Byte × Nat)) :
    s.succeed (tbuildEffect ct s t) =
      { succeeded s (buildTree t).nodeCount (buildTree t).maxLen (larg2 s)
          (if ct then codeTableBytes (buildTree t) else []) with huffman := some (buildTree t) } := by
  cases ct <;> rfl

theorem inRange_tbuild_iff {s : State} {ct : Bool} :
    (∀ r ∈ regions (.tbuild ct) s.latch.args, r.start + r.len ≤ s.platform.lmemSize) ↔
      InRange s (larg0 s) (8 * larg1 s) ∧ (ct = true → InRange s (larg2 s) 10240) := by
  cases ct <;> simp [regions, srcRegion, dstRegion]

theorem aligned_tbuild_iff {s : State} {ct : Bool} :
    (∀ r ∈ regions (.tbuild ct) s.latch.args, r.start % r.align = 0) ↔
      larg0 s % 4 = 0 ∧ (ct = true → larg2 s % 4 = 0) := by
  cases ct <;> simp [regions, srcRegion, dstRegion]

theorem argError_tbuild {s : State} (ct : Bool) (h1 : 1 ≤ larg1 s) (h2 : larg1 s ≤ 256) :
    argError (.tbuild ct) s.latch.args = none := (if_neg (Nat.ne_of_gt h1)).trans (if_neg (Nat.not_lt.mpr h2))

/-- A TBUILD that fails a check leaves no tree. -/
theorem exec_tbuild_failed {ct : Bool} {s : State} {e : ErrCode} (hp : precheck (.tbuild ct) s = some e) :
    exec (.tbuild ct) s = .next (failedNoTree s e.code) := by
  rw [exec_eq, runCommand_of_precheck hp]
  rfl

/-- Settles O44: the checks of R252, the table its loop reads, and the tree R251 makes of it. -/
theorem tbuildResult : Obligations.TbuildResult := by
  unfold Obligations.TbuildResult
  refine ⟨rfl, rfl, fun s ct => ?_⟩
  simp only [← inRange_tbuild_iff, ← aligned_tbuild_iff]
  refine ⟨fun h0 => ?_, fun h256 => ?_, fun h1 h2 hr => ?_, fun h1 h2 hr ha => ?_, fun h1 h2 hr ha hap => ?_,
    fun h1 h2 hr ha hap t hlen ht => ?_⟩
  · have harg : argError (.tbuild ct) s.latch.args = some .noSymbols := if_pos h0
    exact exec_tbuild_failed (e := .noSymbols) (by rw [precheck, harg])
  · have harg : argError (.tbuild ct) s.latch.args = some .badTable :=
      (if_neg (Nat.ne_of_gt (Nat.zero_lt_of_lt h256))).trans (if_pos h256)
    exact exec_tbuild_failed (e := .badTable) (by rw [precheck, harg])
  · exact exec_tbuild_failed (precheck_range (argError_tbuild ct h1 h2) hr)
  · exact exec_tbuild_failed (precheck_align (argError_tbuild ct h1 h2) hr ha)
  · obtain ⟨rfl, hov⟩ := Classical.not_imp.mp hap
    exact exec_tbuild_failed (precheck_overlap (argError_tbuild true h1 h2) hr ha rfl (overlaps_eq_true hov))
  · have hp : precheck (.tbuild ct) s = none := by
      refine precheck_none_iff.mpr ⟨argError_tbuild ct h1 h2, hr, ha, fun hct => ?_, nofun⟩
      obtain rfl : ct = true := hct
      exact overlaps_eq_false (hap rfl)
    have hbody := tbuildBody_of_holdsTable (ct := ct) hlen ht
    refine ⟨fun hdup => ?_, fun hnodup => ?_⟩
    · rw [exec_eq, runCommand_of_raise hp (hbody.trans (if_neg hdup))]
      rfl
    · rw [exec_of_effect hp (hbody.trans (if_pos hnodup)), succeed_tbuildEffect]

/-! ### The checks and the errors of HENC and HDEC (R256, R258, R353) -/

/-- HENC or HDEC raises a code in its execute phase. -/
theorem exec_raised_with_draws {i : Instr} {s : State} {r : Region} {e : ErrCode}
    (hdst : dstRegion i s.latch.args = some r) (hi : dropsTree i = false) (hd : drawsOnError i = true)
    (hp : precheck i s = none) (hb : commandBody i s = .error (.raise e)) : exec i s = .next (failedWithDraws s e.code r.start r.len) := by
  obtain ⟨-, hin, -⟩ := precheck_none_iff.mp hp
  have hlen : r.lenIn s.platform.lmemSize = r.len := Region.lenIn_of_le (hin r (mem_regions_dst hdst))
  have hdraw : s.drawDst i = s.drawRegion r := by rw [State.drawDst, hdst]
  rw [exec_eq, runCommand_of_raise hp hb, State.failExecute, hd, if_pos rfl, hdraw, State.failCommand, hi]
  unfold State.drawRegion
  rw [hlen]
  rfl

theorem inRange_henc_iff {s : State} : (∀ r ∈ regions .henc s.latch.args, r.start + r.len ≤ s.platform.lmemSize) ↔
    InRange s (larg0 s) (larg1 s) ∧ InRange s (larg2 s) (larg3 s) := by
  rw [forall_mem_regions_iff rfl rfl]

theorem inRange_hdec_iff {s : State} : (∀ r ∈ regions .hdec s.latch.args, r.start + r.len ≤ s.platform.lmemSize) ↔
    InRange s (larg0 s) ((larg1 s + 7) / 8) ∧ InRange s (larg2 s) (larg3 s) := by
  rw [forall_mem_regions_iff rfl rfl]

theorem aligned_henc (s : State) : ∀ r ∈ regions .henc s.latch.args, r.start % r.align = 0 :=
  (forall_mem_regions_iff rfl rfl).mpr ⟨Nat.mod_one _, Nat.mod_one _⟩

theorem aligned_hdec (s : State) : ∀ r ∈ regions .hdec s.latch.args, r.start % r.align = 0 :=
  (forall_mem_regions_iff rfl rfl).mpr ⟨Nat.mod_one _, Nat.mod_one _⟩

theorem treeValid_of_eq_none {s : State} (h : s.huffman = none) : s.treeValid = false := by rw [State.treeValid, h]; rfl

theorem treeValid_of_eq_some {s : State} {h : Huffman} (hh : s.huffman = some h) : s.treeValid = true := by
  rw [State.treeValid, hh]
  rfl

theorem precheck_henc {s : State} {h : Huffman} (hr : InRange s (larg0 s) (larg1 s) ∧ InRange s (larg2 s) (larg3 s))
    (hap : Apart (larg0 s) (larg1 s) (larg2 s) (larg3 s)) (hh : s.huffman = some h) : precheck .henc s = none :=
  precheck_none_iff.mpr ⟨rfl, inRange_henc_iff.mpr hr, aligned_henc s, fun _ => overlaps_eq_false hap,
    fun _ => treeValid_of_eq_some hh⟩

theorem precheck_hdec {s : State} {h : Huffman}
    (hr : InRange s (larg0 s) ((larg1 s + 7) / 8) ∧ InRange s (larg2 s) (larg3 s))
    (hap : Apart (larg0 s) ((larg1 s + 7) / 8) (larg2 s) (larg3 s)) (hh : s.huffman = some h) :
    precheck .hdec s = none :=
  precheck_none_iff.mpr ⟨rfl, inRange_hdec_iff.mpr hr, aligned_hdec s, fun _ => overlaps_eq_false hap,
    fun _ => treeValid_of_eq_some hh⟩

/-! ### HENC (R256, R257) -/

/-- The model's loop over LMEM is the loop of R256 over the bytes it reads. -/
theorem encodeBits_of_holds {h : Huffman} {s : State} {a : Nat} {bs : List Byte}
    (hh : s.holds a (bs.take (encodeBytes h bs).2)) :
    encodeBits h s a bs.length = (encodeBytes h bs).1.elim (.error (.raise .noCode)) .ok := by
  induction bs generalizing a with
  | nil => rfl
  | cons b bs ih =>
    rw [encodeBytes] at hh ⊢
    by_cases hc : (codeAt h b.toNat).length = 0
    · rw [if_pos hc] at hh ⊢
      obtain ⟨hb, -⟩ := holds_cons.mp hh
      rw [List.length_cons, encodeBits, readByte_ok_iff.mpr hb]
      exact if_pos hc
    · rw [if_neg hc] at hh ⊢
      obtain ⟨hb, hbs⟩ := holds_cons.mp hh
      rw [List.length_cons, encodeBits, readByte_ok_iff.mpr hb, ih hbs]
      refine (if_neg hc).trans ?_
      cases (encodeBytes h bs).1 <;> rfl

theorem hencBody_of_holds {s : State} {h : Huffman} {bs : List Byte} (hh : s.huffman = some h)
    (hlen : bs.length = larg1 s) (hbs : s.holds (larg0 s) (bs.take (encodeBytes h bs).2)) :
    commandBody .henc s = match (encodeBytes h bs).1 with
      | none => .error (.raise .noCode)
      | some bits =>
        if larg3 s < (bits.length + 7) / 8 then .error (.raise .capacity)
        else .ok (plainEffect ((bits.length + 7) / 8) bits.length (larg2 s) (packed ((bits.length + 7) / 8) bits)) := by
  have hread := encodeBits_of_holds hbs
  rw [hlen] at hread
  simp only [commandBody, hencBody, hh, hread]
  cases (encodeBytes h bs).1 with
  | none => rfl
  | some bits => simp only [Option.elim, packBits_eq_packed]

/-- Settles O49: the checks of R256, and its loop over the bytes up to the first one with no code. -/
theorem hencResult : Obligations.HencResult := by
  unfold Obligations.HencResult
  refine ⟨rfl, fun s => ⟨fun hr => ?_, fun hr hap => ?_, fun hr hap hh => ?_, fun hr hap h bs hh hlen hbs => ?_⟩⟩
  · exact exec_failed rfl (precheck_range rfl (mt inRange_henc_iff.mp hr))
  · exact exec_failed rfl
      (precheck_overlap rfl (inRange_henc_iff.mpr hr) (aligned_henc s) rfl (overlaps_eq_true hap))
  · exact exec_noTable (precheck_noTable rfl (inRange_henc_iff.mpr hr) (aligned_henc s) (overlaps_eq_false hap) rfl
      (treeValid_of_eq_none hh)) rfl
  · have hp := precheck_henc hr hap hh
    have hbody := hencBody_of_holds hh hlen hbs
    refine ⟨fun hnone => ?_, fun bits hsome => ?_⟩
    · rw [hnone] at hbody
      exact exec_raised_with_draws rfl rfl rfl hp hbody
    · rw [hsome] at hbody
      refine ⟨fun hlt => ?_, fun hle => exec_succeeded hp (hbody.trans (if_neg hle.not_gt))⟩
      exact exec_raised_with_draws (e := .capacity) rfl rfl rfl hp (hbody.trans (if_pos hlt))

/-! ### HDEC (R257, R258) -/

theorem childOf_internal {h : Huffman} {node f : Nat} {l r : Option Nat} (hn : h.nodes[node]? = some (.internal f l r))
    (bit : Bool) : childOf h node bit = childAlong bit l r := by
  rw [childOf, hn]
  rfl

theorem internal_of_childOf {h : Huffman} {node nxt : Nat} {bit : Bool} (hc : childOf h node bit = some nxt) :
    ∃ f l r, h.nodes[node]? = some (.internal f l r) ∧ childAlong bit l r = some nxt := by
  cases hn : h.nodes[node]? with
  | none => simp [childOf, hn] at hc
  | some x =>
    cases x with
    | leaf c f => cases bit <;> simp [childOf, hn, nodeLeft, nodeRight] at hc
    | internal f l r => exact ⟨f, l, r, rfl, (childOf_internal hn bit).symm.trans hc⟩

/-! One bit of R258's walk, by where its edge leads. -/

section Walk

variable {h : Huffman} {bit : Bool} {node nxt : Nat} {sym : Byte}

theorem decodeWalk_corrupt (bits : List Bool) (room : Nat) (hc : childOf h node bit = none) :
    decodeWalk h (bit :: bits) node room = (.raised 0x0E, 1) := by
  rw [decodeWalk]
  split
  next f l r hn =>
    rw [childOf_internal hn, childAlong] at hc
    simp only [hc]
  next => rfl

theorem decodeWalk_inner (bits : List Bool) (room : Nat) (hc : childOf h node bit = some nxt)
    (hl : leafAt h nxt = none) : decodeWalk h (bit :: bits) node room =
      ((decodeWalk h bits nxt room).1, (decodeWalk h bits nxt room).2 + 1) := by
  obtain ⟨f, l, r, hn, hchild⟩ := internal_of_childOf hc
  rw [childAlong] at hchild
  simp only [decodeWalk, hn, hchild]
  split
  next c g hx => simp [leafAt, hx, nodeSym] at hl
  next => rfl

theorem node_of_leafAt (hl : leafAt h nxt = some sym) : ∃ f, h.nodes[nxt]? = some (.leaf sym f) := by
  cases hn : h.nodes[nxt]? with
  | none => simp [leafAt, hn] at hl
  | some x =>
    cases x with
    | leaf c f =>
      obtain rfl : c = sym := by simpa [leafAt, hn, nodeSym] using hl
      exact ⟨f, rfl⟩
    | internal f l r => simp [leafAt, hn, nodeSym] at hl

theorem decodeWalk_full (bits : List Bool) (hc : childOf h node bit = some nxt) (hl : leafAt h nxt = some sym) :
    decodeWalk h (bit :: bits) node 0 = (.raised 0x09, 1) := by
  obtain ⟨f, l, r, hn, hchild⟩ := internal_of_childOf hc
  rw [childAlong] at hchild
  obtain ⟨g, hx⟩ := node_of_leafAt hl
  simp only [decodeWalk, hn, hchild, hx]

theorem decodeWalk_symbol (bits : List Bool) (room : Nat) (hc : childOf h node bit = some nxt)
    (hl : leafAt h nxt = some sym) : decodeWalk h (bit :: bits) node (room + 1) =
      ((decodeWalk h bits h.root room).1.prepend sym, (decodeWalk h bits h.root room).2 + 1) := by
  obtain ⟨f, l, r, hn, hchild⟩ := internal_of_childOf hc
  rw [childAlong] at hchild
  obtain ⟨g, hx⟩ := node_of_leafAt hl
  simp only [decodeWalk, hn, hchild, hx]

/-- A walk over some bits reads the first one. -/
theorem decodeWalk_reads (h : Huffman) (bit : Bool) (bits : List Bool) (node room : Nat) :
    1 ≤ (decodeWalk h (bit :: bits) node room).2 := by
  cases hc : childOf h node bit with
  | none => rw [decodeWalk_corrupt bits room hc]
  | some nxt =>
    cases hl : leafAt h nxt with
    | none =>
      rw [decodeWalk_inner bits room hc hl]
      exact Nat.succ_pos _
    | some sym =>
      cases room with
      | zero => rw [decodeWalk_full bits hc hl]
      | succ room =>
        rw [decodeWalk_symbol bits room hc hl]
        exact Nat.succ_pos _

end Walk

/-- How R258's loop ends, as the execute phase says it. -/
inductive Ends : Decoded → Except Stop (List Byte) → Prop
  | symbols (syms : List Byte) : Ends (.symbols syms) (.ok syms)
  | raised (e : ErrCode) (code : Byte) : code = e.code → Ends (.raised code) (.error (.raise e))

/-- The last check of R258: the cursor is back at the root. -/
def atRoot (h : Huffman) : Except Stop (List Byte × Nat) → Except Stop (List Byte)
  | .error e => .error e
  | .ok (syms, final) => if final = h.root then .ok syms else .error (.raise .truncated)

/-- A symbol before those still to come. -/
def prepend (sym : Byte) : Except Stop (List Byte × Nat) → Except Stop (List Byte × Nat)
  | .error e => .error e
  | .ok (syms, final) => .ok (sym :: syms, final)

theorem Ends.prepend {h : Huffman} {d : Decoded} {r : Except Stop (List Byte × Nat)} (he : Ends d (atRoot h r))
    (sym : Byte) : Ends (d.prepend sym) (atRoot h (prepend sym r)) := by
  cases r with
  | error e =>
    cases he with
    | raised e code hc => exact .raised e code hc
  | ok r =>
    by_cases hroot : r.2 = h.root
    · rw [atRoot, if_pos hroot] at he
      rw [Proofs.prepend, atRoot, if_pos hroot]
      cases he with
      | symbols syms => exact .symbols _
    · rw [atRoot, if_neg hroot] at he
      rw [Proofs.prepend, atRoot, if_neg hroot]
      cases he with
      | raised e code hc => exact .raised _ code hc

theorem holds_take_of_holds {s : State} {a : Nat} {bs : List Byte} (n : Nat) (h : s.holds a bs) :
    s.holds a (bs.take n) := by
  rw [← List.take_append_drop n bs, holds_append] at h
  exact h.1

theorem readBit_of_holds {s : State} {src k n : Nat} {bs : List Byte} (h : s.holds src (bs.take n)) (hn : k / 8 < n)
    (hk : k / 8 < bs.length) : readBit s src k = .ok (payloadBit bs k) := by
  have hget := h (k / 8) (by rw [List.length_take]; exact lt_min hn hk)
  rw [List.getElem?_take_of_lt hn, List.getElem?_eq_getElem hk] at hget
  rw [readBit, readByte_ok_iff.mpr hget, payloadBit, List.getD_eq_getElem _ _ hk]

/-- One bit of the model's loop, by where its edge leads. -/
theorem decodeBits_succ {h : Huffman} {s : State} {src k : Nat} {bit : Bool} (hbit : readBit s src k = .ok bit)
    (cap n node m : Nat) : decodeBits h s src cap (n + 1) k node m =
      match childOf h node bit with
      | none => .error (.raise .corrupt)
      | some nxt =>
        match leafAt h nxt with
        | none => decodeBits h s src cap n (k + 1) nxt m
        | some sym =>
          if m = cap then .error (.raise .capacity)
          else prepend sym (decodeBits h s src cap n (k + 1) h.root (m + 1)) := by
  simp only [decodeBits, hbit]
  cases childOf h node bit with
  | none => rfl
  | some nxt =>
    cases leafAt h nxt with
    | none => rfl
    | some sym =>
      cases decodeBits h s src cap n (k + 1) h.root (m + 1) <;> rfl

/-- The payload bits from bit k on. -/
def bitsFrom (bs : List Byte) (k n : Nat) : List Bool := (List.range' k n).map (payloadBit bs)

theorem bitsFrom_succ (bs : List Byte) (k n : Nat) :
    bitsFrom bs k (n + 1) = payloadBit bs k :: bitsFrom bs (k + 1) n := rfl

/-- The model's loop over LMEM is the loop of R258 over the payload bits it reads. -/
theorem decodeBits_ends {h : Huffman} {s : State} {src cap : Nat} {bs : List Byte} (n k node m : Nat)
    (hm : m ≤ cap) (hlen : k + n ≤ 8 * bs.length)
    (hh : s.holds src (bs.take ((k + (decodeWalk h (bitsFrom bs k n) node (cap - m)).2 + 7) / 8))) :
    Ends (decodeWalk h (bitsFrom bs k n) node (cap - m)).1 (atRoot h (decodeBits h s src cap n k node m)) := by
  induction n generalizing k node m with
  | zero =>
    by_cases hroot : node = h.root
    · simpa [bitsFrom, decodeWalk, decodeBits, atRoot, hroot] using .symbols []
    · simpa [bitsFrom, decodeWalk, decodeBits, atRoot, hroot] using .raised .truncated 0x0F rfl
  | succ n ih =>
    rw [bitsFrom_succ] at hh ⊢
    have hreads := decodeWalk_reads h (payloadBit bs k) (bitsFrom bs (k + 1) n) node (cap - m)
    have hbit : readBit s src k = .ok (payloadBit bs k) := readBit_of_holds hh (by omega) (by omega)
    rw [decodeBits_succ hbit]
    cases hc : childOf h node (payloadBit bs k) with
    | none =>
      rw [decodeWalk_corrupt _ _ hc]
      exact .raised .corrupt 0x0E rfl
    | some nxt =>
      cases hl : leafAt h nxt with
      | none =>
        simp only [decodeWalk_inner _ _ hc hl, hl] at hh ⊢
        exact ih (k + 1) nxt m hm (by omega) (by rwa [Nat.add_right_comm k 1, Nat.add_assoc k])
      | some sym =>
        by_cases hfull : m = cap
        · subst hfull
          rw [Nat.sub_self, decodeWalk_full _ hc hl]
          simp only [hl, if_true]
          exact .raised .capacity 0x09 rfl
        · have hroom : cap - m = cap - (m + 1) + 1 := by omega
          rw [hroom] at hh ⊢
          simp only [decodeWalk_symbol _ _ hc hl, hl, if_neg hfull] at hh ⊢
          exact (ih (k + 1) h.root (m + 1) (by omega) (by omega)
            (by rwa [Nat.add_right_comm k 1, Nat.add_assoc k])).prepend sym

theorem hdecBody_eq {s : State} {h : Huffman} (hh : s.huffman = some h) : commandBody .hdec s =
    (atRoot h (decodeBits h s (larg0 s) (larg3 s) (larg1 s) 0 h.root 0)).map fun syms =>
      plainEffect syms.length (larg1 s) (larg2 s) syms := by
  simp only [commandBody, hdecBody, hh]
  cases decodeBits h s (larg0 s) (larg3 s) (larg1 s) 0 h.root 0 with
  | error e => rfl
  | ok r =>
    simp only [atRoot]
    split <;> rfl

/-- The end of the execute phase is that of R258's walk over the payload bits. -/
theorem hdecBody_ends {s : State} {h : Huffman} {bs : List Byte} (hh : s.huffman = some h)
    (hlen : bs.length = (larg1 s + 7) / 8)
    (hbs : s.holds (larg0 s) (bs.take (((decodeWalk h (payloadBits bs (larg1 s)) h.root (larg3 s)).2 + 7) / 8))) :
    ∃ r, Ends (decodeWalk h (payloadBits bs (larg1 s)) h.root (larg3 s)).1 r ∧ commandBody .hdec s =
      r.map fun syms => plainEffect syms.length (larg1 s) (larg2 s) syms := by
  refine ⟨_, ?_, hdecBody_eq hh⟩
  have hbits : payloadBits bs (larg1 s) = bitsFrom bs 0 (larg1 s) := by rw [payloadBits, bitsFrom, List.range_eq_range']
  rw [hbits] at hbs ⊢
  exact decodeBits_ends (larg1 s) 0 h.root 0 (Nat.zero_le _) (by omega) (by rwa [Nat.zero_add])

/-- Settles O50: the checks of R258, and its walk over the payload bits up to the last one read. -/
theorem hdecResult : Obligations.HdecResult := by
  unfold Obligations.HdecResult
  refine ⟨rfl, fun s => ⟨fun hr => ?_, fun hr hap => ?_, fun hr hap hh => ?_, fun hr hap h bs hh hlen hbs => ?_⟩⟩
  · exact exec_failed rfl (precheck_range rfl (mt inRange_hdec_iff.mp hr))
  · exact exec_failed rfl
      (precheck_overlap rfl (inRange_hdec_iff.mpr hr) (aligned_hdec s) rfl (overlaps_eq_true hap))
  · exact exec_noTable (precheck_noTable rfl (inRange_hdec_iff.mpr hr) (aligned_hdec s) (overlaps_eq_false hap) rfl
      (treeValid_of_eq_none hh)) rfl
  · have hp := precheck_hdec hr hap hh
    obtain ⟨r, hends, hbody⟩ := hdecBody_ends hh hlen hbs
    refine ⟨fun code hcode => ?_, fun syms hsyms => ?_⟩
    · rw [hcode] at hends
      cases hends with
      | raised e _ hc => exact hc ▸ exec_raised_with_draws rfl rfl rfl hp hbody
    · rw [hsyms] at hends
      cases hends with
      | symbols => exact exec_succeeded hp hbody

/-! ### E_CORRUPT (R254, R255, R258) -/

theorem isTable_single (c : Byte) (f : Nat) : IsTable [(c, f)] :=
  ⟨le_rfl, Nat.le_add_left 1 255, List.nodup_singleton c⟩

theorem codeAt_single (c : Byte) (f : Nat) (d : Byte) :
    codeAt (buildTree [(c, f)]) d.toNat = if d = c then [false] else [] := by
  split
  next hd =>
    subst hd
    exact codeAt_of_path (isTable_single d f) (.left 1 f 0 0 none [] rfl (.here 0)) rfl
  next hd => exact codeAt_of_not_mem (isTable_single c f) (by simpa using hd)

theorem maxLen_single (c : Byte) (f : Nat) : (buildTree [(c, f)]).maxLen = 1 := by
  obtain ⟨d, hd⟩ := exists_codeAt_length_eq [(c, f)]
  have hle : (codeAt (buildTree [(c, f)]) d.toNat).length ≤ 1 := by
    rw [codeAt_single]
    split
    · exact le_rfl
    · exact Nat.zero_le _
  have hge := codeAt_length_le [(c, f)] c
  rw [codeAt_single, if_pos rfl] at hge
  exact Nat.le_antisymm (hd ▸ hle) hge

/-- Settles O48: the root of a single symbol has no right child. -/
theorem singleSymbol : Obligations.SingleSymbol := by
  unfold Obligations.SingleSymbol
  refine fun c f => ⟨codeAt_single c f, maxLen_single c f, fun s b hh hsrc hdst hap hn hb hbit => ?_⟩
  obtain ⟨n, hn⟩ : ∃ n, larg1 s = n + 1 := ⟨larg1 s - 1, by omega⟩
  have hheld : s.holds (larg0 s) ([b].take 1) := holds_cons.mpr ⟨hb, nofun⟩
  have hread : readBit s (larg0 s) 0 = .ok true :=
    (readBit_of_holds hheld Nat.one_pos Nat.one_pos).trans (congrArg Except.ok hbit)
  have hbody : commandBody .hdec s = .error (.raise .corrupt) := by
    rw [hdecBody_eq hh, hn, decodeBits_succ hread]
    rfl
  exact exec_raised_with_draws rfl rfl rfl (precheck_hdec ⟨hsrc, hdst⟩ hap hh) hbody

/-- The node at an index is an internal one. -/
def IsInternal (h : Huffman) (i : Nat) : Prop := ∃ f l r, h.nodes[i]? = some (.internal f l r)

/-- In a full tree both edges of an internal node lead to a leaf or to an internal node. -/
theorem childOf_of_fullTree {h : Huffman} (hfull : FullTree h.nodes) (hd : Descends h.nodes) {i : Nat}
    (hi : IsInternal h i) (bit : Bool) :
    ∃ nxt, childOf h i bit = some nxt ∧ (leafAt h nxt = none → IsInternal h nxt) := by
  obtain ⟨f, l, r, hn⟩ := hi
  obtain ⟨hl, hr⟩ := hfull f l r (List.mem_of_getElem? hn)
  obtain ⟨nxt, hnxt⟩ : ∃ nxt, childAlong bit l r = some nxt := by
    cases bit with
    | false => exact Option.ne_none_iff_exists'.mp hl
    | true => exact Option.ne_none_iff_exists'.mp hr
  have hlt := hd i f l r hn bit nxt hnxt
  obtain ⟨hilt, -⟩ := List.getElem?_eq_some_iff.mp hn
  refine ⟨nxt, (childOf_internal hn bit).trans hnxt, fun hleaf => ?_⟩
  have hx := List.getElem?_eq_getElem (hlt.trans hilt)
  cases hnode : h.nodes[nxt] with
  | leaf c g => simp [leafAt, hx, hnode, nodeSym] at hleaf
  | internal g l r => exact ⟨g, l, r, by rw [hx, hnode]⟩

theorem readBit_ne_raise {s : State} {src k : Nat} {e : ErrCode} : readBit s src k ≠ .error (.raise e) := by
  intro h
  unfold readBit at h
  split at h
  next hb =>
    obtain ⟨-, rfl⟩ := readByte_error hb
    cases h
  next => cases h

theorem prepend_ne_raise {sym : Byte} {r : Except Stop (List Byte × Nat)} {e : ErrCode} (hr : r ≠ .error (.raise e)) :
    prepend sym r ≠ .error (.raise e) := by
  cases r with
  | error _ => exact hr
  | ok r => nofun

theorem decodeBits_ne_corrupt {h : Huffman} (hfull : FullTree h.nodes) (hd : Descends h.nodes)
    (hroot : IsInternal h h.root) {s : State} {src cap n k node m : Nat} (hi : IsInternal h node) :
    decodeBits h s src cap n k node m ≠ .error (.raise .corrupt) := by
  induction n generalizing k node m with
  | zero => nofun
  | succ n ih =>
    cases hb : readBit s src k with
    | error e =>
      simp only [decodeBits, hb]
      rintro ⟨⟩
      exact readBit_ne_raise hb
    | ok bit =>
      obtain ⟨nxt, hc, hinner⟩ := childOf_of_fullTree hfull hd hi bit
      rw [decodeBits_succ hb, hc]
      cases hl : leafAt h nxt with
      | none => simpa only [hl] using ih (hinner hl)
      | some sym =>
        simp only [hl]
        split
        · nofun
        · exact prepend_ne_raise (ih hroot)

theorem isInternal_root {t : List (Byte × Nat)} (h : t ≠ []) : IsInternal (buildTree t) (buildTree t).root := by
  have hx := List.getElem?_eq_getElem (root_lt h)
  cases hnode : (buildTree t).nodes[(buildTree t).root]'(root_lt h) with
  | leaf c f =>
    obtain ⟨hlt, -⟩ := List.getElem?_eq_some_iff.mp (entry_of_leaf h (hx.trans (congrArg some hnode)))
    exact absurd rfl (root_ne_entry hlt)
  | internal f l r => exact ⟨f, l, r, hx.trans (congrArg some hnode)⟩

theorem atRoot_ne_corrupt {h : Huffman} {r : Except Stop (List Byte × Nat)} (hr : r ≠ .error (.raise .corrupt)) :
    atRoot h r ≠ .error (.raise .corrupt) := by
  cases r with
  | error e =>
    rintro ⟨⟩
    exact hr rfl
  | ok r =>
    rw [atRoot]
    split <;> nofun

theorem hdecBody_ne_corrupt {s : State} {t : List (Byte × Nat)} (h2 : 2 ≤ t.length)
    (hh : s.huffman = some (buildTree t)) : commandBody .hdec s ≠ .error (.raise .corrupt) := by
  have hne : t ≠ [] := List.length_pos_iff.mp (by omega)
  have hroot := isInternal_root hne
  have hbits := decodeBits_ne_corrupt (fullTree_buildTree h2) (forest_buildNodes hne).descends hroot (s := s)
    (src := larg0 s) (cap := larg3 s) (n := larg1 s) (k := 0) (m := 0) hroot
  rw [hdecBody_eq hh]
  cases hr : atRoot (buildTree t) (decodeBits (buildTree t) s (larg0 s) (larg3 s) (larg1 s) 0 (buildTree t).root 0) with
  | error e =>
    rintro ⟨⟩
    exact atRoot_ne_corrupt hbits hr
  | ok syms => nofun

theorem precheck_hdec_ne_corrupt (s : State) : precheck .hdec s ≠ some .corrupt := by
  simp only [precheck, argError]
  split_ifs <;> nofun

theorem eq_corrupt_of_code {e : ErrCode} (h : e.code = 0x0E) : e = .corrupt := by
  cases e with
  | corrupt => rfl
  | _ => cases h

/-- Settles O51: both edges of every internal node of a full tree lead on, and no check gives E_CORRUPT. -/
theorem fullTreeIsNeverCorrupt : Obligations.FullTreeIsNeverCorrupt := by
  unfold Obligations.FullTreeIsNeverCorrupt
  intro s t e _ h2 hh h hcode
  rw [exec_eq] at h
  obtain ⟨c, hp, rfl⟩ | ⟨-, eff, -, -, rfl⟩ | ⟨-, c, hb, rfl⟩ := runCommand_next h
  · obtain rfl := eq_corrupt_of_code (by simpa [Status.complete] using hcode)
    exact precheck_hdec_ne_corrupt s hp
  · cases hcode
  · obtain rfl := eq_corrupt_of_code (by simpa [Status.complete] using hcode)
    exact hdecBody_ne_corrupt h2 hh hb

/-! ### The walk undoes the packing (R256 to R258) -/

theorem childOf_of_path {h : Huffman} {i j : Nat} {edge : Bool} {p : List Bool} (hp : Path h.nodes i (edge :: p) j) :
    ∃ k, childOf h i edge = some k ∧ Path h.nodes k p j := by
  obtain ⟨f, l, r, k, hn, hk, hrest⟩ := path_cons_iff.mp hp
  exact ⟨k, (childOf_internal hn edge).trans hk, hrest⟩

theorem leafAt_of_childOf {h : Huffman} {i k : Nat} {bit : Bool} (hc : childOf h i bit = some k) :
    leafAt h i = none := by
  obtain ⟨f, l, r, hn, -⟩ := internal_of_childOf hc
  rw [leafAt, hn]
  rfl

/-- Along a path to a leaf the walk writes the leaf's symbol and goes back to the root. -/
theorem decodeWalk_path {h : Huffman} {j f : Nat} {sym : Byte} (hj : h.nodes[j]? = some (.leaf sym f)) (bits : List Bool)
    (room : Nat) {i : Nat} {edge : Bool} {p : List Bool} (hp : Path h.nodes i (edge :: p) j) :
    (decodeWalk h (edge :: p ++ bits) i (room + 1)).1 = (decodeWalk h bits h.root room).1.prepend sym := by
  induction p generalizing i edge with
  | nil =>
    obtain ⟨k, hc, hrest⟩ := childOf_of_path hp
    cases hrest
    have hleaf : leafAt h j = some sym := by
      rw [leafAt, hj]
      rfl
    rw [List.singleton_append, decodeWalk_symbol bits room hc hleaf]
  | cons next p ih =>
    obtain ⟨k, hc, hrest⟩ := childOf_of_path hp
    obtain ⟨_, hc', -⟩ := childOf_of_path hrest
    rw [List.cons_append, decodeWalk_inner _ _ hc (leafAt_of_childOf hc')]
    exact ih hrest

theorem encodeBytes_cons {h : Huffman} {b : Byte} {bs : List Byte} {bits : List Bool}
    (hb : (encodeBytes h (b :: bs)).1 = some bits) :
    codeAt h b.toNat ≠ [] ∧ ∃ rest, (encodeBytes h bs).1 = some rest ∧ codeAt h b.toNat ++ rest = bits := by
  rw [encodeBytes] at hb
  split at hb
  next => cases hb
  next hc => exact ⟨fun hnil => hc (List.length_eq_zero_iff.mpr hnil), Option.map_eq_some_iff.mp hb⟩

/-- The walk over the codes of some bytes gives the bytes, in any tree made from a table. -/
theorem decodeWalk_encodeBytes {t : List (Byte × Nat)} (ht : IsTable t) {bs : List Byte} {bits : List Bool} {room : Nat}
    (hb : (encodeBytes (buildTree t) bs).1 = some bits) (hroom : bs.length ≤ room) :
    (decodeWalk (buildTree t) bits (buildTree t).root room).1 = .symbols bs := by
  induction bs generalizing bits room with
  | nil =>
    cases hb
    exact if_pos rfl
  | cons b bs ih =>
    obtain ⟨hne, rest, hrest, rfl⟩ := encodeBytes_cons hb
    obtain ⟨k, f, hpath, hk⟩ := exists_path_of_codeAt_ne_nil ht hne
    obtain ⟨room, rfl⟩ : ∃ r, room = r + 1 := ⟨room - 1, by rw [List.length_cons] at hroom; omega⟩
    obtain ⟨edge, p, hcode⟩ := List.exists_cons_of_ne_nil hne
    rw [hcode] at hpath ⊢
    rw [decodeWalk_path hk rest room hpath, ih hrest (Nat.le_of_succ_le_succ hroom)]
    rfl

/-- Bit 7 - r of a byte packed from eight bits is the r-th of them. -/
theorem getLsbD_packed (f : Nat → Bool) {r : Nat} (hr : r < 8) :
    (BitVec.ofNat 8 ((f 0).toNat * 128 + (f 1).toNat * 64 + (f 2).toNat * 32 + (f 3).toNat * 16 + (f 4).toNat * 8
      + (f 5).toNat * 4 + (f 6).toNat * 2 + (f 7).toNat)).getLsbD (7 - r) = f r := by
  have hle : ∀ i, (f i).toNat ≤ 1 := fun i => Bool.toNat_le _
  have h0 := hle 0
  have h1 := hle 1
  have h2 := hle 2
  have h3 := hle 3
  have h4 := hle 4
  have h5 := hle 5
  have h6 := hle 6
  have h7 := hle 7
  have hbit : f r = decide ((f r).toNat = 1) := by cases f r <;> rfl
  rw [BitVec.getLsbD_ofNat, Nat.testBit_eq_decide_div_mod_eq, decide_eq_true (by omega), Bool.true_and, hbit,
    decide_eq_decide]
  interval_cases r <;> omega

/-- Unpacking the payload gives back the bits that were packed. -/
theorem payloadBits_packed {bits : List Bool} {n : Nat} (h : bits.length ≤ 8 * n) :
    payloadBits (packed n bits) bits.length = bits := by
  refine List.ext_getElem (by simp [payloadBits]) fun k _ hk => ?_
  have hbyte : k / 8 < n := by omega
  have hbit := getLsbD_packed (fun r => bits.getD (8 * (k / 8) + r) false) (Nat.mod_lt k (by decide))
  simp only [Nat.div_add_mod, List.getD_eq_getElem _ _ hk] at hbit
  simp only [payloadBits, List.getElem_map, List.getElem_range, payloadBit]
  rw [packed, List.getD_eq_getElem _ _ (by simpa using hbyte), List.getElem_map, List.getElem_range]
  exact hbit

/-! ### HDEC undoes HENC (R256 to R258) -/

/-- A HENC that completes without an error packed the codes of its stream, each byte of which has one. -/
theorem exec_henc_success {s t : State} {h : Huffman} {bs : List Byte} (hh : s.huffman = some h)
    (hlen : bs.length = larg1 s) (hbs : s.holds (larg0 s) bs) (hx : exec .henc s = .next t) (he : t.status.errCode = 0) :
    InRange s (larg2 s) (larg3 s) ∧ ∃ bits, (encodeBytes h bs).1 = some bits ∧ (bits.length + 7) / 8 ≤ larg3 s ∧
      t = succeeded s ((bits.length + 7) / 8) bits.length (larg2 s) (packed ((bits.length + 7) / 8) bits) := by
  obtain ⟨-, hhenc⟩ := hencResult
  obtain ⟨hrange, hoverlap, -, hrun⟩ := hhenc s
  have herr : ∀ u : State, exec .henc s = .next u → u.status.errCode = 0 := by
    intro u hu
    cases hx.symm.trans hu
    exact he
  have hr : InRange s (larg0 s) (larg1 s) ∧ InRange s (larg2 s) (larg3 s) :=
    by_contra fun hn => absurd (herr _ (hrange hn)) (by decide : (0x04 : Byte) ≠ 0)
  have hap : Apart (larg0 s) (larg1 s) (larg2 s) (larg3 s) :=
    by_contra fun hn => absurd (herr _ (hoverlap hr hn)) (by decide : (0x06 : Byte) ≠ 0)
  obtain ⟨hnone, hsome⟩ := hrun hr hap h bs hh hlen (holds_take_of_holds _ hbs)
  cases hbits : (encodeBytes h bs).1 with
  | none => exact absurd (herr _ (hnone hbits)) (by decide : (0x0D : Byte) ≠ 0)
  | some bits =>
    obtain ⟨hcap, hok⟩ := hsome bits hbits
    have hle : (bits.length + 7) / 8 ≤ larg3 s :=
      le_of_not_gt fun hlt => absurd (herr _ (hcap hlt)) (by decide : (0x09 : Byte) ≠ 0)
    exact ⟨hr.2, bits, rfl, hle, Host.Outcome.next.inj (hx.symm.trans (hok hle))⟩

/-- HDEC of a payload that holds the codes of some bytes writes the bytes. -/
theorem exec_hdec_packed {s : State} {t : List (Byte × Nat)} {bs : List Byte} {bits : List Bool} (ht : IsTable t)
    (hh : s.huffman = some (buildTree t)) (hbits : (encodeBytes (buildTree t) bs).1 = some bits)
    (hn : larg1 s = bits.length) (hheld : s.holds (larg0 s) (packed ((bits.length + 7) / 8) bits))
    (hr : InRange s (larg0 s) ((larg1 s + 7) / 8) ∧ InRange s (larg2 s) (larg3 s))
    (hap : Apart (larg0 s) ((larg1 s + 7) / 8) (larg2 s) (larg3 s)) (hroom : bs.length ≤ larg3 s) :
    exec .hdec s = .next (succeeded s bs.length (larg1 s) (larg2 s) bs) := by
  obtain ⟨-, hhdec⟩ := hdecResult
  obtain ⟨-, -, -, hrun⟩ := hhdec s
  obtain ⟨-, hsyms⟩ := hrun hr hap (buildTree t) _ hh (by rw [hn, packed, List.length_map, List.length_range])
    (holds_take_of_holds _ hheld)
  refine hsyms bs ?_
  rw [hn, payloadBits_packed (by omega)]
  exact decodeWalk_encodeBytes ht hbits hroom

/-- Settles O52: HDEC unpacks the bits HENC packed, and each code leads the walk to its symbol. -/
theorem huffmanRoundTrip : Obligations.HuffmanRoundTrip := by
  unfold Obligations.HuffmanRoundTrip
  rintro s t e bs d cap ⟨-, hsize, -⟩ ht hh hlen hbs hx he hd hap hroom
  obtain ⟨hdst, bits, hbits, hle, rfl⟩ := exec_henc_success hh hlen hbs hx he
  have hres : (BitVec.ofNat 32 bits.length).toNat = bits.length := Nat.mod_eq_of_lt (by omega)
  have hsrc : larg2 s + ((BitVec.ofNat 32 bits.length).toNat + 7) / 8 ≤ s.platform.lmemSize := by
    rw [hres]
    exact (Nat.add_le_add_left hle _).trans hdst
  refine ⟨_, exec_hdec_packed ht hh hbits hres (holds_put s _ _) ⟨hsrc, hd⟩ hap hroom, rfl, ?_,
    BitVec.ofNat_toNat _ _, holds_put _ _ _⟩
  exact (congrArg (BitVec.ofNat 32) hlen).trans (BitVec.ofNat_toNat _ _)

/-! ### The four commands in turn (R259) -/

theorem inRange_of_platform {s t : State} (h : t.platform = s.platform) {a n : Nat} (hr : InRange s a n) :
    InRange t a n := by
  rw [InRange, h]
  exact hr

theorem holds_of_put {m : Memory} {t : State} {a : Nat} {bs : List Byte} (ht : t.lmem = m.put a bs) :
    t.holds a bs := by
  rw [State.holds, ht]
  exact fun j => Memory.get?_put_inside m

/-- A write of bytes apart from some held ones. -/
theorem holds_put_apart {s t : State} {a b : Nat} {bs cs : List Byte} (ht : t.lmem = s.lmem.put b cs)
    (hap : Apart a bs.length b cs.length) (h : s.holds a bs) : t.holds a bs := by
  intro j hj
  rw [ht, Memory.get?_put_outside _ (by omega)]
  exact h j hj

section Histogram

variable {bs : List Byte}

theorem lt_of_mem_occurring {c : Nat} (h : c ∈ occurring bs) : c < 256 := List.mem_range.mp (List.mem_filter.mp h).1

theorem toNat_mem_occurring {b : Byte} : b.toNat ∈ occurring bs ↔ b ∈ bs := by
  have hlt : b.toNat < 256 := b.isLt
  simp [occurring, hlt]

theorem occurring_length_le (bs : List Byte) : (occurring bs).length ≤ 256 :=
  (List.length_filter_le _ _).trans List.length_range.le

/-- HIST's table is one a tree can be built from. -/
theorem isTable_histogramOf (h : 1 ≤ bs.length) : IsTable (histogramOf bs) := by
  refine ⟨?_, ?_, ?_⟩
  · obtain ⟨b, hb⟩ := List.exists_mem_of_length_pos h
    rw [histogramOf, List.length_map]
    exact List.length_pos_of_mem (toNat_mem_occurring.mpr hb)
  · rw [histogramOf, List.length_map]
    exact occurring_length_le bs
  · rw [histogramOf, List.map_map]
    refine (List.nodup_range.filter _).map_on fun c hc d hd hcd => ?_
    have hc := lt_of_mem_occurring hc
    have hd := lt_of_mem_occurring hd
    have hcd : c % 256 = d % 256 := by simpa using congrArg BitVec.toNat hcd
    omega

theorem mem_histogramOf {b : Byte} (h : b ∈ bs) : b ∈ (histogramOf bs).map Prod.fst := by
  rw [histogramOf, List.map_map]
  exact List.mem_map.mpr ⟨b.toNat, toNat_mem_occurring.mpr h, by simp⟩

theorem histogramBytes_eq (bs : List Byte) :
    histogramBytes bs = (histogramOf bs).flatMap fun e => [e.1, 0, 0, 0] ++ leBytes 4 e.2 := by
  rw [histogramOf, List.flatMap_map]
  rfl

theorem histogramBytes_length (bs : List Byte) : (histogramBytes bs).length = 8 * (occurring bs).length :=
  flatMap_length_const _ 8 (fun _ => by simp) _

/-- The bytes HIST writes hold its table. -/
theorem holdsTable_histogramOf {s : State} {a : Nat} (hlen : bs.length < 2 ^ 32) (h : s.holds a (histogramBytes bs)) :
    HoldsTable s a (histogramOf bs) := by
  intro k hk
  rw [histogramBytes_eq] at h
  have hentry := holds_element (n := 8) (fun e => by simp) h (List.getElem?_eq_getElem hk)
  obtain ⟨hsym, hfreq⟩ := holds_append.mp hentry
  obtain ⟨hsym, -⟩ := holds_cons.mp hsym
  refine ⟨hsym, ?_, hfreq⟩
  obtain ⟨c, -, hc⟩ := List.mem_map.mp (List.getElem_mem hk)
  rw [← hc]
  exact List.count_le_length.trans_lt hlen

end Histogram

/-- HENC's loop ends where every byte has a code. -/
theorem encodeBytes_of_codes {h : Huffman} {bs : List Byte} (hc : ∀ b ∈ bs, codeAt h b.toNat ≠ []) :
    (encodeBytes h bs).1 = some (bs.flatMap fun b => codeAt h b.toNat) := by
  induction bs with
  | nil => rfl
  | cons b bs ih =>
    obtain ⟨hb, hbs⟩ := List.forall_mem_cons.mp hc
    rw [encodeBytes, if_neg (mt List.length_eq_zero_iff.mp hb), ih hbs]
    rfl

theorem codeAt_ne_nil_of_mem {t : List (Byte × Nat)} (ht : IsTable t) {c : Byte} (h : c ∈ t.map Prod.fst) :
    codeAt (buildTree t) c.toNat ≠ [] := by
  obtain ⟨e, he, rfl⟩ := List.mem_map.mp h
  obtain ⟨k, hk, rfl⟩ := List.mem_iff_getElem.mp he
  exact codeAt_ne_nil ht hk

/-- A HIST writes the table of the bytes and leaves its number of entries in RES0. -/
theorem exec_hist_of_holds {s : State} {bs : List Byte} (hlen : bs.length = larg1 s) (hbs : s.holds (larg0 s) bs)
    (hr : InRange s (larg0 s) (larg1 s) ∧ InRange s (larg2 s) 2048) (ha : larg2 s % 4 = 0)
    (hap : Apart (larg0 s) (larg1 s) (larg2 s) 2048) :
    ∃ u, exec .hist s = .next u ∧ u.status.errCode = 0 ∧ u.res0.toNat = (histogramOf bs).length ∧
      u.lmem = s.lmem.put (larg2 s) (histogramBytes bs) := by
  obtain ⟨-, hhist⟩ := histResult
  obtain ⟨-, -, -, hrun⟩ := hhist s
  refine ⟨_, hrun hr ha hap bs hlen hbs, rfl, ?_, rfl⟩
  rw [histogramOf, List.length_map]
  exact Nat.mod_eq_of_lt ((occurring_length_le bs).trans_lt (by decide))

/-- A TBUILD without a code table installs the tree of a table LMEM holds, and writes no byte. -/
theorem exec_tbuild_of_holdsTable {s : State} {t : List (Byte × Nat)} (ht : IsTable t) (hlen : t.length = larg1 s)
    (htab : HoldsTable s (larg0 s) t) (hr : InRange s (larg0 s) (8 * larg1 s)) (ha : larg0 s % 4 = 0) :
    ∃ u, exec (.tbuild false) s = .next u ∧ u.status.errCode = 0 ∧ u.huffman = some (buildTree t) ∧
      u.lmem = s.lmem := by
  obtain ⟨-, -, htbuild⟩ := tbuildResult
  obtain ⟨-, -, -, -, -, hrun⟩ := htbuild s false
  obtain ⟨h1, h2, hnodup⟩ := ht
  obtain ⟨-, hok⟩ := hrun (hlen ▸ h1) (hlen ▸ h2) ⟨hr, nofun⟩ ⟨ha, nofun⟩ nofun t hlen htab
  exact ⟨_, hok hnodup, rfl, rfl, rfl⟩

/-- A HENC of bytes that all have codes succeeds where the codes fit its capacity. -/
theorem exec_henc_of_codes {s : State} {h : Huffman} {bs : List Byte} (hh : s.huffman = some h)
    (hc : ∀ b ∈ bs, codeAt h b.toNat ≠ []) (hlen : bs.length = larg1 s) (hbs : s.holds (larg0 s) bs)
    (hr : InRange s (larg0 s) (larg1 s) ∧ InRange s (larg2 s) (larg3 s))
    (hap : Apart (larg0 s) (larg1 s) (larg2 s) (larg3 s))
    (hcap : (bs.map fun b => (codeAt h b.toNat).length).sum ≤ 8 * larg3 s) :
    ∃ u, exec .henc s = .next u ∧ u.status.errCode = 0 ∧ (u.res1.toNat + 7) / 8 ≤ larg3 s := by
  obtain ⟨-, hhenc⟩ := hencResult
  obtain ⟨-, -, -, hrun⟩ := hhenc s
  obtain ⟨-, hsome⟩ := hrun hr hap h bs hh hlen (holds_take_of_holds _ hbs)
  obtain ⟨-, hok⟩ := hsome _ (encodeBytes_of_codes hc)
  rw [← List.length_flatMap] at hcap
  refine ⟨_, hok (by omega), rfl, ?_⟩
  rw [succeeded, BitVec.toNat_ofNat]
  have hres := Nat.mod_le (bs.flatMap fun b => codeAt h b.toNat).length (2 ^ 32)
  omega

/-- Settles O53: HIST's table has every byte of the stream, so HENC meets no byte without a code; then O52. -/
theorem byteStreamRoundTrip : Obligations.ByteStreamRoundTrip := by
  unfold Obligations.ByteStreamRoundTrip
  intro s bs src len tab pay payCap out outCap hp hlen hpos hbs hsrc htab halign hpay hout hst hsp hpo hcap hroom
  have ht := isTable_histogramOf hpos
  have hsize : (histogramBytes bs).length = 8 * (histogramOf bs).length := by
    rw [histogramBytes_length, histogramOf, List.length_map]
  have hfit : 8 * (histogramOf bs).length ≤ 2048 := Nat.mul_le_mul_left 8 ht.2.1
  obtain ⟨s1, h1, he1, hn, hm1⟩ := exec_hist_of_holds (s := holding s .hist src len tab 0) hlen.symm hbs
    ⟨hsrc, htab⟩ halign hst
  have hp1 : s1.platform = s.platform := (exec_platform h1 :)
  have hm1 : s1.lmem = s.lmem.put tab.toNat (histogramBytes bs) := hm1
  have htable : HoldsTable s1 tab.toNat (histogramOf bs) :=
    holdsTable_histogramOf (hlen ▸ len.isLt) (holds_of_put hm1)
  have hbs1 : s1.holds src.toNat bs := holds_put_apart hm1 (by omega) hbs
  have htab1 : InRange s1 tab.toNat (8 * s1.res0.toNat) := inRange_of_platform hp1 (by omega)
  obtain ⟨s2, h2, he2, htree, hm2⟩ := exec_tbuild_of_holdsTable
    (s := holding s1 (.tbuild false) tab s1.res0 0 0) ht hn.symm htable htab1 halign
  have hp2 : s2.platform = s.platform := (exec_platform h2).trans hp1
  have hbs2 : s2.holds src.toNat bs := by
    rw [State.holds, hm2]
    exact hbs1
  obtain ⟨s3, h3, he3, hbits⟩ := exec_henc_of_codes (s := holding s2 .henc src len pay payCap) htree
    (fun b hb => codeAt_ne_nil_of_mem ht (mem_histogramOf hb)) hlen.symm hbs2
    ⟨inRange_of_platform hp2 hsrc, inRange_of_platform hp2 hpay⟩ hsp hcap
  have hbits : (s3.res1.toNat + 7) / 8 ≤ payCap.toNat := hbits
  have hpo' : Apart pay.toNat ((s3.res1.toNat + 7) / 8) out.toNat outCap.toNat := by omega
  obtain ⟨s4, h4, he4, hres0, -, hout4⟩ := huffmanRoundTrip (holding s2 .henc src len pay payCap) s3 (histogramOf bs) bs
    out outCap (hp2.symm ▸ hp) ht htree hlen.symm hbs2 h3 he3 (inRange_of_platform hp2 hout) hpo' hroom
  exact ⟨s1, s2, s3, s4, h1, he1, h2, he2, h3, he3, h4, he4, hres0, hout4⟩

end Sys2Proof.Proofs
end

section
/-! Proofs for 44_chroma.md R300 to R304: the checks of SUBS and UPS; the samples each of them reads are those of the
rules' planes; and the average of a cell of equal samples is that sample, so SUBS undoes UPS. -/

namespace Sys2Proof.Proofs

open Sys2Proof.Machine Sys2Proof.Statements

/-! ### Planes (R300) -/

/-- The plane of width W and height H whose sample at (x, y) is f x y, row by row. -/
def planeOf (W H : Nat) (f : Nat → Nat → Byte) : List Byte :=
  (List.range H).flatMap fun y => (List.range W).map fun x => f x y

theorem planeOf_succ (W H : Nat) (f : Nat → Nat → Byte) :
    planeOf W (H + 1) f = planeOf W H f ++ (List.range W).map fun x => f x H := by
  simp [planeOf, List.range_succ]

/-- A plane by the index of the sample is the plane row by row. -/
theorem planeOf_eq_map (W H : Nat) (f : Nat → Nat → Byte) :
    planeOf W H f = (List.range (W * H)).map fun t => f (t % W) (t / W) := by
  induction H with
  | zero => rfl
  | succ H ih =>
    rw [planeOf_succ, ih, Nat.mul_succ, List.range_add, List.map_append, List.map_map]
    refine congrArg _ (List.map_congr_left fun x hx => ?_)
    have hx : x < W := List.mem_range.mp hx
    rw [Function.comp, Nat.mul_add_mod, Nat.mod_eq_of_lt hx, Nat.mul_add_div (by omega), Nat.div_eq_of_lt hx,
      Nat.add_zero]

theorem planeOf_length (W H : Nat) (f : Nat → Nat → Byte) : (planeOf W H f).length = W * H := by
  rw [planeOf_eq_map, List.length_map, List.length_range]

theorem planeOf_congr {W H : Nat} {f g : Nat → Nat → Byte} (h : ∀ x < W, ∀ y < H, f x y = g x y) :
    planeOf W H f = planeOf W H g :=
  List.flatMap_congr fun y hy => List.map_congr_left fun x hx => h x (List.mem_range.mp hx) y (List.mem_range.mp hy)

theorem sampleAt_planeOf {W H x y : Nat} (f : Nat → Nat → Byte) (hx : x < W) (hy : y < H) :
    sampleAt (planeOf W H f) W x y = (f x y).toNat := by
  have hlt : y * W + x < W * H := plane_index_lt hy hx
  have hrow : (y * W + x) / W = y := by
    rw [Nat.mul_comm, Nat.mul_add_div (by omega), Nat.div_eq_of_lt hx, Nat.add_zero]
  have hcol : (y * W + x) % W = x := by rw [Nat.mul_comm, Nat.mul_add_mod, Nat.mod_eq_of_lt hx]
  rw [sampleAt, planeOf_eq_map, List.getD_eq_getElem _ _ (by simpa using hlt), List.getElem_map, List.getElem_range,
    hrow, hcol]

theorem sampleAt_first_row (p : List Byte) (W x : Nat) : sampleAt p W x 0 = (p.getD x 0).toNat := by
  rw [sampleAt, Nat.zero_mul, Nat.zero_add]

/-- A plane is made of its samples. -/
theorem planeOf_sampleAt {W H : Nat} {p : List Byte} (h : p.length = W * H) :
    planeOf W H (fun x y => BitVec.ofNat 8 (sampleAt p W x y)) = p := by
  rw [planeOf_eq_map]
  refine List.ext_getElem (by simp [h]) fun t _ ht => ?_
  rw [List.getElem_map, List.getElem_range, sampleAt, Nat.div_add_mod', List.getD_eq_getElem _ _ ht, BitVec.ofNat_toNat,
    BitVec.setWidth_eq]

/-- The sum of R301 over the cell (i, j). -/
def cellSum (m : Mode) (p : List Byte) (W i j : Nat) : Nat :=
  ((List.range (factorY m)).map fun b =>
    ((List.range (factorX m)).map fun a => sampleAt p W (factorX m * i + a) (factorY m * j + b)).sum).sum

theorem factors_eq (m : Mode) : factors m = (factorX m, factorY m) := by cases m <;> rfl

theorem subsampled_eq_planeOf (m : Mode) (p : List Byte) (W H : Nat) :
    subsampled m p W H = planeOf (W / factorX m) (H / factorY m) fun i j =>
      BitVec.ofNat 8 (average (cellSum m p W i j) (factorX m * factorY m)) := by
  rw [subsampled, factors_eq]
  rfl

theorem upsampled_eq_planeOf (m : Mode) (p : List Byte) (w h : Nat) :
    upsampled m p w h = planeOf (w * factorX m) (h * factorY m) fun x y =>
      BitVec.ofNat 8 (sampleAt p w (x / factorX m) (y / factorY m)) := by
  rw [upsampled, factors_eq]
  rfl

theorem sampleAt_upsampled {m : Mode} {w h x y : Nat} (p : List Byte) (hx : x < w * factorX m)
    (hy : y < h * factorY m) :
    sampleAt (upsampled m p w h) (w * factorX m) x y = sampleAt p w (x / factorX m) (y / factorY m) := by
  rw [upsampled_eq_planeOf, sampleAt_planeOf _ hx hy, BitVec.toNat_ofNat]
  exact Nat.mod_eq_of_lt (BitVec.isLt _)

/-! ### The samples the commands read (R301, R303) -/

theorem readEach_eq_map {α : Type} {f : Nat → Except Stop α} {g : Nat → α} {ks : List Nat}
    (h : ∀ k ∈ ks, f k = .ok (g k)) : readEach f ks = .ok (ks.map g) :=
  readEach_ok_iff.mpr (List.forall₂_map_right_iff.mpr (List.forall₂_same.mpr h))

theorem readByte_of_holds {s : State} {a k : Nat} {p : List Byte} (hp : s.holds a p) (h1 : a ≤ k)
    (h2 : k < a + p.length) : s.readByte k = .ok (p.getD (k - a) 0) := by
  have hlt : k - a < p.length := by omega
  have hbyte := hp (k - a) hlt
  rw [Nat.add_sub_cancel' h1] at hbyte
  rw [readByte_ok_iff, hbyte, List.getD_eq_getElem _ _ hlt, List.getElem?_eq_getElem hlt]

/-- The samples at the addresses of a cell add up to the rule's sum. -/
theorem sum_cellAddrs (m : Mode) (p : List Byte) (src W i j : Nat) :
    (((cellAddrs m src W i j).map fun k => p.getD (k - src) 0).map BitVec.toNat).sum = cellSum m p W i j := by
  rw [List.map_map, cellAddrs, List.map_flatMap, List.flatMap_def, List.sum_flatten, List.map_map, cellSum]
  refine congrArg List.sum (List.map_congr_left fun b _ => ?_)
  rw [Function.comp, List.map_map]
  refine congrArg List.sum (List.map_congr_left fun a _ => ?_)
  rw [Function.comp, Function.comp, Nat.add_assoc, Nat.add_sub_cancel_left, sampleAt]

theorem subsBody_of_holds {m : Mode} {s : State} {p : List Byte} (hlen : p.length = larg1 s * larg2 s)
    (hp : s.holds (larg0 s) p) : commandBody (.subs m) s =
      .ok (plainEffect (larg1 s / factorX m) (larg2 s / factorY m) (larg3 s) (subsampled m p (larg1 s) (larg2 s))) := by
  have hread : readEach (fun t => subsSample m s (larg0 s) (larg1 s) (t % (larg1 s / factorX m))
      (t / (larg1 s / factorX m))) (List.range (larg1 s / factorX m * (larg2 s / factorY m))) =
        .ok (subsampled m p (larg1 s) (larg2 s)) := by
    rw [subsampled_eq_planeOf, planeOf_eq_map]
    refine readEach_eq_map fun t ht => ?_
    have hcell : readEach s.readByte (cellAddrs m (larg0 s) (larg1 s) (t % (larg1 s / factorX m))
        (t / (larg1 s / factorX m))) = .ok _ := readEach_eq_map fun k hk => by
      obtain ⟨h1, h2⟩ := cellAddrs_within (List.mem_range.mp ht) hk
      exact readByte_of_holds hp h1 (hlen ▸ h2)
    simp only [subsSample, hcell, sum_cellAddrs]
  simp only [commandBody, subsBody, hread]

theorem upsBody_of_holds {m : Mode} {s : State} {p : List Byte} (hlen : p.length = larg1 s * larg2 s)
    (hp : s.holds (larg0 s) p) : commandBody (.ups m) s =
      .ok (plainEffect (larg1 s * factorX m) (larg2 s * factorY m) (larg3 s) (upsampled m p (larg1 s) (larg2 s))) := by
  have hread : readEach (fun t => s.readByte (larg0 s + t / (larg1 s * factorX m) / factorY m * larg1 s +
      t % (larg1 s * factorX m) / factorX m)) (List.range (larg1 s * factorX m * (larg2 s * factorY m))) =
        .ok (upsampled m p (larg1 s) (larg2 s)) := by
    rw [upsampled_eq_planeOf, planeOf_eq_map]
    refine readEach_eq_map fun t ht => ?_
    obtain ⟨h1, h2⟩ := upsAddr_within (src := larg0 s) (List.mem_range.mp ht)
    rw [readByte_of_holds hp h1 (hlen ▸ h2), Nat.add_assoc, Nat.add_sub_cancel_left, sampleAt, BitVec.ofNat_toNat,
      BitVec.setWidth_eq]
  simp only [commandBody, upsBody, hread]

/-! ### The checks of the two commands (R83, R85, R301, R303, R351) -/

section PlaneChecks

variable {i : Instr} {s : State} {fits : Prop} [Decidable fits] {src w dst n : Nat}

theorem argError_geometry_iff (harg : argError i s.latch.args = if fits then none else some .geometry) :
    argError i s.latch.args = none ↔ fits := by
  rw [harg]
  split <;> simp_all

theorem srcDstOverlap_eq_false_iff {l : Args} {r q : Region} (hsrc : srcRegion i l = some r)
    (hdst : dstRegion i l = some q) : srcDstOverlap i l = false ↔ Apart r.start r.len q.start q.len := by
  rw [srcDstOverlap, hsrc, hdst]
  refine ⟨fun h => by_contra fun hap => ?_, overlaps_eq_false⟩
  exact Bool.false_ne_true (h.symm.trans (overlaps_eq_true hap))

/-- Every check of a command from one plane to another passes. -/
theorem precheck_plane_none_iff (harg : argError i s.latch.args = if fits then none else some .geometry)
    (hsrc : srcRegion i s.latch.args = some ⟨src, w, 1⟩) (hdst : dstRegion i s.latch.args = some ⟨dst, n, 1⟩)
    (href : refusesOverlap i = true) (htree : needsTree i = false) :
    precheck i s = none ↔ fits ∧ (InRange s src w ∧ InRange s dst n) ∧ Apart src w dst n := by
  rw [precheck_none_iff, argError_geometry_iff harg, forall_mem_regions_iff hsrc hdst,
    forall_mem_regions_iff hsrc hdst, srcDstOverlap_eq_false_iff hsrc hdst, href, htree]
  simp [Nat.mod_one]

/-- E_GEOMETRY, E_RANGE and E_OVERLAP, in that order, of a command from one plane to another. -/
theorem exec_plane_errors (harg : argError i s.latch.args = if fits then none else some .geometry)
    (hsrc : srcRegion i s.latch.args = some ⟨src, w, 1⟩) (hdst : dstRegion i s.latch.args = some ⟨dst, n, 1⟩)
    (href : refusesOverlap i = true) (hdrop : dropsTree i = false) :
    (¬ fits → exec i s = .next (failed s 0x03)) ∧
    (fits → ¬ (InRange s src w ∧ InRange s dst n) → exec i s = .next (failed s 0x04)) ∧
    (fits → InRange s src w ∧ InRange s dst n → ¬ Apart src w dst n → exec i s = .next (failed s 0x06)) := by
  have hin := forall_mem_regions_iff (P := fun r => r.start + r.len ≤ s.platform.lmemSize) hsrc hdst
  have hal : ∀ r ∈ regions i s.latch.args, r.start % r.align = 0 :=
    (forall_mem_regions_iff hsrc hdst).mpr ⟨Nat.mod_one _, Nat.mod_one _⟩
  refine ⟨fun hf => ?_, fun hf hr => ?_, fun hf hr hap => ?_⟩
  · have hp : precheck i s = some .geometry := by rw [precheck, harg, if_neg hf]
    exact exec_failed hdrop hp
  · exact exec_failed hdrop (precheck_range ((argError_geometry_iff harg).mpr hf) (hin.not.mpr hr))
  · have hov : srcDstOverlap i s.latch.args = true :=
      eq_true_of_ne_false ((srcDstOverlap_eq_false_iff hsrc hdst).not.mpr hap)
    exact exec_failed hdrop (precheck_overlap ((argError_geometry_iff harg).mpr hf) (hin.mpr hr) hal href hov)

end PlaneChecks

theorem precheck_subs_none_iff {m : Mode} {s : State} : precheck (.subs m) s = none ↔
    (0 < larg1 s ∧ 0 < larg2 s ∧ larg1 s % (8 * factorX m) = 0 ∧ larg2 s % (8 * factorY m) = 0) ∧
    (InRange s (larg0 s) (larg1 s * larg2 s) ∧
      InRange s (larg3 s) (larg1 s / factorX m * (larg2 s / factorY m))) ∧
    Apart (larg0 s) (larg1 s * larg2 s) (larg3 s) (larg1 s / factorX m * (larg2 s / factorY m)) :=
  precheck_plane_none_iff rfl rfl rfl rfl rfl

theorem precheck_ups_none_iff {m : Mode} {s : State} : precheck (.ups m) s = none ↔
    (0 < larg1 s ∧ 0 < larg2 s) ∧
    (InRange s (larg0 s) (larg1 s * larg2 s) ∧
      InRange s (larg3 s) (larg1 s * factorX m * (larg2 s * factorY m))) ∧
    Apart (larg0 s) (larg1 s * larg2 s) (larg3 s) (larg1 s * factorX m * (larg2 s * factorY m)) :=
  precheck_plane_none_iff rfl rfl rfl rfl rfl

/-- Settles O54: the checks of R301, and each cell's samples read from the plane LMEM holds. -/
theorem subsResult : Obligations.SubsResult := by
  unfold Obligations.SubsResult
  refine ⟨⟨rfl, rfl, rfl, rfl⟩, fun s m => ?_⟩
  simp only [factors_eq]
  obtain ⟨hgeometry, hrange, hoverlap⟩ := exec_plane_errors (i := .subs m) (s := s) rfl rfl rfl rfl rfl
  refine ⟨hgeometry, hrange, hoverlap, fun hf hr hap p hlen hp => ?_⟩
  exact exec_succeeded (precheck_subs_none_iff.mpr ⟨hf, hr, hap⟩) (subsBody_of_holds hlen hp)

/-- Settles O55: the checks of R303, and the samples read from the plane LMEM holds. -/
theorem upsResult : Obligations.UpsResult := by
  unfold Obligations.UpsResult
  refine ⟨⟨rfl, rfl, rfl, rfl⟩, fun s m => ?_⟩
  simp only [factors_eq]
  obtain ⟨hgeometry, hrange, hoverlap⟩ := exec_plane_errors (i := .ups m) (s := s) rfl rfl rfl rfl rfl
  refine ⟨hgeometry, fun hw hh => hrange ⟨hw, hh⟩, fun hw hh => hoverlap ⟨hw, hh⟩, fun hw hh hr hap p hlen hp => ?_⟩
  exact exec_succeeded (precheck_ups_none_iff.mpr ⟨⟨hw, hh⟩, hr, hap⟩) (upsBody_of_holds hlen hp)

/-! ### UPS and SUBS in turn (R304) -/

/-- A command that completes with ERRCODE 0 passed its checks and left what its execute phase gave (R355). -/
theorem exec_success {i : Instr} {s t : State} (h : exec i s = .next t) (he : t.status.errCode = 0) :
    ∃ eff, precheck i s = none ∧ commandBody i s = .ok eff ∧ t = s.succeed eff := by
  obtain ⟨e, hne, -, rfl⟩ | hok | ⟨e, -, -, hne, rfl⟩ := exec_next_cases h
  · exact absurd (by simpa [Status.complete] using he) (code_ne_zero hne)
  · exact hok
  · exact absurd (by simpa [Status.complete] using he) (code_ne_zero hne)

theorem subsBody_ok {m : Mode} {s : State} {eff : Effect} (h : commandBody (.subs m) s = .ok eff) :
    ∃ bs, bs.length = larg1 s / factorX m * (larg2 s / factorY m) ∧
      eff = plainEffect (larg1 s / factorX m) (larg2 s / factorY m) (larg3 s) bs := by
  simp only [commandBody, subsBody] at h
  split at h
  next => cases h
  next bs hb =>
    cases h
    exact ⟨bs, by simpa using readEach_length hb, rfl⟩

theorem toNat_ofNat_of_le {v : Nat} (w : Word) (h : v ≤ w.toNat) : (BitVec.ofNat 32 v).toNat = v :=
  Nat.mod_eq_of_lt (h.trans_lt w.isLt)

/-- The average of a cell whose samples are all v (R302). -/
theorem average_const (v : Nat) {n : Nat} (hn : 0 < n) : average (n * v) n = v := by
  rw [average, Nat.mul_add_div hn, Nat.div_eq_of_lt (Nat.div_lt_self hn (by decide)), Nat.add_zero]

theorem factor_mul_add_lt {f w i a : Nat} (hi : i < w) (ha : a < f) : f * i + a < w * f := by
  rw [Nat.mul_comm f i, Nat.mul_comm w f]
  exact plane_index_lt hi ha

theorem factor_mul_add_div {f a : Nat} (i : Nat) (ha : a < f) : (f * i + a) / f = i := by
  rw [Nat.mul_add_div (by omega), Nat.div_eq_of_lt ha, Nat.add_zero]

/-- Each sample of a cell of the plane UPS writes is the sample it was made from. -/
theorem cellSum_upsampled {m : Mode} {w h i j : Nat} (p : List Byte) (hi : i < w) (hj : j < h) :
    cellSum m (upsampled m p w h) (w * factorX m) i j = factorX m * factorY m * sampleAt p w i j := by
  have hcell : ∀ b ∈ List.range (factorY m), ((List.range (factorX m)).map fun a =>
      sampleAt (upsampled m p w h) (w * factorX m) (factorX m * i + a) (factorY m * j + b)).sum =
        factorX m * sampleAt p w i j := by
    intro b hb
    have hb : b < factorY m := List.mem_range.mp hb
    rw [List.map_congr_left (g := fun _ => sampleAt p w i j) fun a ha => ?_]
    · simp
    · have ha : a < factorX m := List.mem_range.mp ha
      rw [sampleAt_upsampled p (factor_mul_add_lt hi ha) (factor_mul_add_lt hj hb), factor_mul_add_div i ha,
        factor_mul_add_div j hb]
  rw [cellSum, List.map_congr_left hcell]
  simp [Nat.mul_assoc, Nat.mul_left_comm]

/-- SUBS undoes UPS on the planes of R301 and R303. -/
theorem subsampled_upsampled (m : Mode) {p : List Byte} {w h : Nat} (hlen : p.length = w * h) :
    subsampled m (upsampled m p w h) (w * factorX m) (h * factorY m) = p := by
  rw [subsampled_eq_planeOf, Nat.mul_div_cancel _ (factorX_pos m), Nat.mul_div_cancel _ (factorY_pos m)]
  calc _ = planeOf w h fun x y => BitVec.ofNat 8 (sampleAt p w x y) := planeOf_congr fun i hi j hj => by
        rw [cellSum_upsampled p hi hj, average_const _ (Nat.mul_pos (factorX_pos m) (factorY_pos m))]
    _ = p := planeOf_sampleAt hlen

/-- UPS to a plane of width W and height H, of a plane LMEM holds. -/
theorem exec_ups_of_holds {m : Mode} {s : State} {p : List Byte} {W H : Nat} (hW : larg1 s * factorX m = W)
    (hH : larg2 s * factorY m = H) (hpos : 0 < W ∧ 0 < H) (hlen : p.length = larg1 s * larg2 s)
    (hp : s.holds (larg0 s) p) (hr : InRange s (larg0 s) (larg1 s * larg2 s) ∧ InRange s (larg3 s) (W * H))
    (hap : Apart (larg0 s) (larg1 s * larg2 s) (larg3 s) (W * H)) :
    exec (.ups m) s = .next (succeeded s W H (larg3 s) (upsampled m p (larg1 s) (larg2 s))) := by
  subst hW hH
  have hfits : 0 < larg1 s ∧ 0 < larg2 s := hpos.imp Nat.pos_of_mul_pos_right Nat.pos_of_mul_pos_right
  exact exec_succeeded (precheck_ups_none_iff.mpr ⟨hfits, hr, hap⟩) (upsBody_of_holds hlen hp)

/-- SUBS to a plane of width w and height h, multiples of 8, of a plane LMEM holds. -/
theorem exec_subs_of_holds {m : Mode} {s : State} {p : List Byte} {w h : Nat} (hw : larg1 s = w * factorX m)
    (hh : larg2 s = h * factorY m) (hpos : 0 < w ∧ 0 < h) (h8 : w % 8 = 0 ∧ h % 8 = 0)
    (hlen : p.length = larg1 s * larg2 s) (hp : s.holds (larg0 s) p)
    (hr : InRange s (larg0 s) (larg1 s * larg2 s) ∧ InRange s (larg3 s) (w * h))
    (hap : Apart (larg0 s) (larg1 s * larg2 s) (larg3 s) (w * h)) :
    exec (.subs m) s = .next (succeeded s w h (larg3 s) (subsampled m p (w * factorX m) (h * factorY m))) := by
  rw [← hw, ← hh]
  obtain rfl : w = larg1 s / factorX m := by rw [hw, Nat.mul_div_cancel _ (factorX_pos m)]
  obtain rfl : h = larg2 s / factorY m := by rw [hh, Nat.mul_div_cancel _ (factorY_pos m)]
  have hfits : 0 < larg1 s ∧ 0 < larg2 s ∧ larg1 s % (8 * factorX m) = 0 ∧ larg2 s % (8 * factorY m) = 0 := by
    refine ⟨hpos.1.trans_le (Nat.div_le_self _ _), hpos.2.trans_le (Nat.div_le_self _ _), ?_, ?_⟩
    · rw [hw, Nat.mul_mod_mul_right, h8.1, Nat.zero_mul]
    · rw [hh, Nat.mul_mod_mul_right, h8.2, Nat.zero_mul]
  exact exec_succeeded (precheck_subs_none_iff.mpr ⟨hfits, hr, hap⟩) (subsBody_of_holds hlen hp)

theorem div_mul_of_mod_eight_mul {W f : Nat} (h : W % (8 * f) = 0) : W / f * f = W :=
  Nat.div_mul_cancel (dvd_of_mul_left_dvd (Nat.dvd_of_mod_eq_zero h))

/-- UPS of what SUBS wrote gives back the dimensions: SUBS's factors divide them. -/
theorem exec_ups_after_subs {s t : State} {m : Mode} {d : Word} (hx : exec (.subs m) s = .next t)
    (he : t.status.errCode = 0) (hd : InRange s d.toNat (larg1 s * larg2 s))
    (hap : Apart (larg3 s) (t.res0.toNat * t.res1.toNat) d.toNat (larg1 s * larg2 s)) :
    ∃ u, exec (.ups m) (holding t (.ups m) s.latch.args.a3 t.res0 t.res1 d) = .next u ∧ u.status.errCode = 0 ∧
      u.res0 = s.latch.args.a1 ∧ u.res1 = s.latch.args.a2 := by
  obtain ⟨eff, hp, hb, rfl⟩ := exec_success hx he
  obtain ⟨bs, hlen, rfl⟩ := subsBody_ok hb
  obtain ⟨⟨hW, hH, hWf, hHf⟩, ⟨-, hr⟩, -⟩ := precheck_subs_none_iff.mp hp
  have hw : larg1 s / factorX m * factorX m = larg1 s := div_mul_of_mod_eight_mul hWf
  have hh : larg2 s / factorY m * factorY m = larg2 s := div_mul_of_mod_eight_mul hHf
  have hres0 : (BitVec.ofNat 32 (larg1 s / factorX m)).toNat = larg1 s / factorX m :=
    toNat_ofNat_of_le s.latch.args.a1 (Nat.div_le_self _ _)
  have hres1 : (BitVec.ofNat 32 (larg2 s / factorY m)).toNat = larg2 s / factorY m :=
    toNat_ofNat_of_le s.latch.args.a2 (Nat.div_le_self _ _)
  refine ⟨_, exec_ups_of_holds (p := bs) (W := larg1 s) (H := larg2 s) ?_ ?_ ⟨hW, hH⟩ ?_ (holds_put s _ bs)
    ⟨?_, hd⟩ hap, rfl, BitVec.ofNat_toNat _ _, BitVec.ofNat_toNat _ _⟩
  · exact (congrArg (· * factorX m) hres0).trans hw
  · exact (congrArg (· * factorY m) hres1).trans hh
  · exact hlen.trans (congrArg₂ (· * ·) hres0 hres1).symm
  · exact (congrArg₂ (fun w h => larg3 s + w * h ≤ s.platform.lmemSize) hres0 hres1).mpr hr

/-- SUBS of what UPS wrote writes the plane back. -/
theorem exec_subs_after_ups {s t : State} {m : Mode} {d : Word} {p : List Byte} (hleg : s.platform.legal)
    (hlen : p.length = larg1 s * larg2 s) (hp : s.holds (larg0 s) p) (h1 : larg1 s % 8 = 0) (h2 : larg2 s % 8 = 0)
    (hx : exec (.ups m) s = .next t) (he : t.status.errCode = 0) (hd : InRange s d.toNat (larg1 s * larg2 s))
    (hap : Apart (larg3 s) (t.res0.toNat * t.res1.toNat) d.toNat (larg1 s * larg2 s)) :
    ∃ u, exec (.subs m) (holding t (.subs m) s.latch.args.a3 t.res0 t.res1 d) = .next u ∧ u.status.errCode = 0 ∧
      u.res0 = s.latch.args.a1 ∧ u.res1 = s.latch.args.a2 ∧ u.holds d.toNat p := by
  obtain ⟨eff, hpre, hb, rfl⟩ := exec_success hx he
  obtain rfl := Except.ok.inj ((upsBody_of_holds hlen hp).symm.trans hb)
  obtain ⟨⟨hw, hh⟩, ⟨-, hr⟩, -⟩ := precheck_ups_none_iff.mp hpre
  have hsize : larg1 s * factorX m * (larg2 s * factorY m) < 2 ^ 32 := by
    obtain ⟨-, hmax, -⟩ := hleg
    omega
  have hW : 0 < larg1 s * factorX m := Nat.mul_pos hw (factorX_pos m)
  have hH : 0 < larg2 s * factorY m := Nat.mul_pos hh (factorY_pos m)
  have hres0 : (BitVec.ofNat 32 (larg1 s * factorX m)).toNat = larg1 s * factorX m :=
    Nat.mod_eq_of_lt ((Nat.le_mul_of_pos_right _ hH).trans_lt hsize)
  have hres1 : (BitVec.ofNat 32 (larg2 s * factorY m)).toNat = larg2 s * factorY m :=
    Nat.mod_eq_of_lt ((Nat.le_mul_of_pos_left _ hW).trans_lt hsize)
  refine ⟨_, exec_subs_of_holds (p := upsampled m p (larg1 s) (larg2 s)) hres0 hres1 ⟨hw, hh⟩ ⟨h1, h2⟩ ?_
    (holds_put s _ _) ⟨?_, hd⟩ hap, rfl, BitVec.ofNat_toNat _ _, BitVec.ofNat_toNat _ _, ?_⟩
  · rw [upsampled_eq_planeOf, planeOf_length]
    exact (congrArg₂ (· * ·) hres0 hres1).symm
  · exact (congrArg₂ (fun w h => larg3 s + w * h ≤ s.platform.lmemSize) hres0 hres1).mpr hr
  · rw [subsampled_upsampled m hlen]
    exact holds_put _ _ _

theorem one_lt_factorX {m : Mode} (hm : m ≠ .m444) : 1 < factorX m := by
  cases m with
  | m444 => exact absurd rfl hm
  | _ => decide

/-- In every mode but 444 UPS repeats the first sample of the plane. -/
theorem upsampled_repeats {m : Mode} (hm : m ≠ .m444) (p : List Byte) {w h : Nat} (hw : 0 < w) (hh : 0 < h) :
    sampleAt (upsampled m p w h) (w * factorX m) 1 0 = sampleAt (upsampled m p w h) (w * factorX m) 0 0 := by
  have hx := one_lt_factorX hm
  have hy := Nat.mul_pos hh (factorY_pos m)
  have hrow : factorX m ≤ w * factorX m := Nat.le_mul_of_pos_left _ hw
  rw [sampleAt_upsampled p (hx.trans_le hrow) hy, sampleAt_upsampled p (by omega) hy, Nat.div_eq_of_lt hx,
    Nat.zero_div, Nat.zero_div]

/-- Settles O56: both commands' dimensions fit 32 bits, SUBS undoes UPS, and a plane whose first two samples differ is
not what UPS writes. -/
theorem chromaRoundTrip : Obligations.ChromaRoundTrip := by
  unfold Obligations.ChromaRoundTrip
  refine ⟨fun s t m d => exec_ups_after_subs, fun s t m d p => exec_subs_after_ups,
    fun m hm => ⟨1 :: List.replicate 511 0, by rw [List.length_cons, List.length_replicate], fun heq => ?_⟩⟩
  have hdims : 0 < 32 / (factors m).1 ∧ 0 < 16 / (factors m).2 := by cases m <;> decide
  have hrep := upsampled_repeats hm (subsampled m (1 :: List.replicate 511 0) 32 16) hdims.1 hdims.2
  rw [heq, sampleAt_first_row, sampleAt_first_row] at hrep
  exact absurd hrep (by decide)

end Sys2Proof.Proofs
end

section
/-! Proofs for 45_system.md R330: the zero word is the only legal one with OP = 0, and NOP passes every check and writes
no byte. -/

namespace Sys2Proof.Proofs

open Sys2Proof.Machine Sys2Proof.Statements

theorem eq_nop_of_opcode_eq_zero {i : Instr} (h : i.opcode = 0) : i = .nop := by
  cases i with
  | nop => rfl
  | _ => cases h

/-- OP = 0 is NOP's alone, and a command has one word, so only the zero word with OP = 0 is legal (R330). -/
theorem eq_zero_of_decode_ok {w : Word} {i : Instr} (hop : opField w = 0) (h : decode w = .ok i) : w = 0 := by
  obtain ⟨-, hopcode, -⟩ := decode_ok h
  obtain rfl := eq_nop_of_opcode_eq_zero (hopcode.trans hop)
  obtain ⟨-, hword⟩ := encodeInvertsDecode w .nop h
  exact hword.symm

/-- NOP has no operand, no argument to check and no need of a tree: no check of R351 fails it. -/
theorem precheck_nop (s : State) : precheck .nop s = none :=
  precheck_none_iff.mpr ⟨rfl, nofun, nofun, nofun, nofun⟩

/-- NOP's success writes no byte (R330). -/
theorem exec_nop (s : State) : exec .nop s =
    .next { s with status := ⟨false, true, false, s.status.wlost, 0x00⟩, res0 := 0, res1 := 0 } :=
  exec_succeeded (precheck_nop s) rfl

/-- Settles O32: NOP is the only command with OP = 0 and its word is 0, and no check stops it before it completes. -/
theorem nopResult : Obligations.NopResult := by
  unfold Obligations.NopResult
  refine ⟨decodeInvertsEncode .nop rfl, fun w hop hw => ?_, exec_nop, _, exec_nop _, by decide, rfl, rfl⟩
  have hop0 : opField w = 0 := (extractLsb'_op w).symm.trans (congrArg BitVec.toNat hop)
  cases hd : decode w with
  | error e => exact ⟨e, rfl⟩
  | ok i => exact absurd (eq_zero_of_decode_ok hop0 hd) hw

end Sys2Proof.Proofs
end

section
/-! Proofs for 60_exceptions.md: which check of R351 fails first, what an error leaves (R352, R353), why a command whose
src region holds values completes (R355), and the interrupt output (R360). -/

namespace Sys2Proof.Proofs

open Sys2Proof.Machine Sys2Proof.Statements

/-! ### Completion (R355, R401) -/

/-- Once the checks have passed, a command stops without completing only at a src byte that holds no value. -/
theorem exec_completes {i : Instr} {s : State}
    (hsrc : ∀ r, srcRegion i s.latch.args = some r →
      ∀ a, r.start ≤ a → a < r.start + r.len → s.lmem.get? a ≠ none) :
    ∃ t, exec i s = .next t := by
  rw [exec_eq]
  cases hp : precheck i s with
  | some e => exact ⟨_, runCommand_of_precheck hp⟩
  | none =>
    cases hb : commandBody i s with
    | ok eff => exact ⟨_, runCommand_of_ok hp hb (commandBody_within hp hb)⟩
    | error stop =>
      obtain ⟨r, hr, a, hlo, hhi, hnone, -⟩ | ⟨e, -, rfl⟩ := commandBody_error hp hb
      · exact absurd hnone (hsrc r hr a hlo hhi)
      · exact ⟨_, runCommand_of_raise hp hb⟩

/-- Settles O21: the command completes, and every completion leaves BUSY = 0 and DONE = 1. -/
theorem readableCommandsComplete : Obligations.ReadableCommandsComplete := by
  unfold Obligations.ReadableCommandsComplete
  intro s i hsrc
  obtain ⟨t, ht⟩ := exec_completes hsrc
  obtain ⟨-, -, -, -, -, -, -, -, -, hbusy, hdone⟩ := exec_frame ht
  exact ⟨t, ht, hbusy, hdone⟩

/-! ### The check order (R351) -/

/-- A failing check gives its code; nothing is written, and TBUILD loses its tree. -/
theorem exec_of_precheck {i : Instr} {s : State} {e : ErrCode} (hp : precheck i s = some e) :
    exec i s = .next (if dropsTree i then failedNoTree s e.code else failed s e.code) := by
  rw [exec_eq, runCommand_of_precheck hp, State.failCommand]
  split <;> rfl

theorem srcDstOverlap_eq_false_iff_forall {i : Instr} {l : Args} : srcDstOverlap i l = false ↔
    ∀ r q, srcRegion i l = some r → dstRegion i l = some q → Apart r.start r.len q.start q.len := by
  refine ⟨fun hov r q hsrc hdst => (srcDstOverlap_eq_false_iff hsrc hdst).mp hov, fun hap => ?_⟩
  cases hsrc : srcRegion i l with
  | none => rw [srcDstOverlap, hsrc]
  | some r =>
    cases hdst : dstRegion i l with
    | none => rw [srcDstOverlap, hsrc, hdst]
    | some q => exact (srcDstOverlap_eq_false_iff hsrc hdst).mpr (hap r q hsrc hdst)

/-- Settles O24: each step of the check order, once the steps before it have passed. -/
theorem checkOrder : Obligations.CheckOrder := by
  unfold Obligations.CheckOrder
  intro s i
  refine ⟨fun e he => exec_of_precheck (by rw [precheck, he]), fun harg => ⟨fun hr => ?_, fun hr ha => ?_,
    fun hr ha hap => ?_, fun hr ha hap hi ht => ?_⟩⟩
  · exact exec_of_precheck (precheck_range harg hr)
  · exact exec_of_precheck (precheck_align harg hr ha)
  · obtain ⟨href, hshare⟩ := Classical.not_imp.mp hap
    have hov : srcDstOverlap i s.latch.args = true :=
      eq_true_of_ne_false (srcDstOverlap_eq_false_iff_forall.not.mpr hshare)
    exact exec_of_precheck (precheck_overlap harg hr ha href hov)
  · obtain ⟨href, hneed⟩ : refusesOverlap i = true ∧ needsTree i = true := by rcases hi with rfl | rfl <;> decide
    have hov := srcDstOverlap_eq_false_iff_forall.mpr (hap href)
    exact exec_of_precheck (precheck_noTable harg hr ha hov hneed ht)

/-! ### The state after an error (R352) -/

/-- A completion with an error is a failed check, or a code raised in the execute phase. -/
theorem exec_error_cases {i : Instr} {s t : State} (h : exec i s = .next t) (he : t.status.errCode ≠ 0) :
    (∃ e, precheck i s = some e ∧ t = s.failCommand i e) ∨ (∃ e, precheck i s = none ∧ t = s.failExecute i e) := by
  obtain ⟨e, -, hp, rfl⟩ | ⟨eff, -, -, rfl⟩ | ⟨e, -, hp, -, rfl⟩ := exec_next_cases h
  · exact .inl ⟨e, hp, rfl⟩
  · exact absurd rfl he
  · exact .inr ⟨e, hp, rfl⟩

theorem exec_status_of_error {i : Instr} {s t : State} (h : exec i s = .next t) (he : t.status.errCode ≠ 0) :
    t.status = ⟨false, true, false, s.status.wlost, t.status.errCode⟩ := by
  obtain ⟨e, -, rfl⟩ | ⟨e, -, rfl⟩ := exec_error_cases h he
  · rw [State.failCommand_status]
    rfl
  · rw [State.failExecute_status]
    rfl

theorem exec_huffman_of_error {i : Instr} {s t : State} (h : exec i s = .next t) (he : t.status.errCode ≠ 0) :
    t.huffman = if dropsTree i then none else s.huffman := by
  obtain ⟨e, -, rfl⟩ | ⟨e, -, rfl⟩ := exec_error_cases h he
  · exact State.failCommand_huffman s i e
  · exact State.failExecute_huffman s i e

/-- A failing check writes nothing. -/
theorem exec_lmem_of_failed_check {i : Instr} {s t : State} (h : exec i s = .next t) (hp : precheck i s ≠ none) :
    t.lmem = s.lmem := by
  obtain ⟨e, -, -, rfl⟩ | ⟨eff, hnone, -⟩ | ⟨e, -, hnone, -⟩ := exec_next_cases h
  · exact State.failCommand_lmem s i e
  · exact absurd hnone hp
  · exact absurd hnone hp

/-- An error of a command that stages its output writes nothing. -/
theorem exec_lmem_of_error {i : Instr} {s t : State} (h : exec i s = .next t) (he : t.status.errCode ≠ 0)
    (h1 : i ≠ .henc) (h2 : i ≠ .hdec) : t.lmem = s.lmem := by
  obtain ⟨e, -, rfl⟩ | ⟨e, -, rfl⟩ := exec_error_cases h he
  · exact State.failCommand_lmem s i e
  · exact State.failExecute_lmem_of_not (drawsOnError_eq_false h1 h2)

/-- HENC and HDEC have one dst region. -/
theorem dstRegion_of_henc_or_hdec {i : Instr} (hi : i = .henc ∨ i = .hdec) (s : State) :
    dstRegion i s.latch.args = some ⟨larg2 s, larg3 s, 1⟩ := by
  rcases hi with rfl | rfl <;> rfl

/-- Whatever command ends with an error, LMEM stays as it was outside the dst region of HENC and HDEC. -/
theorem exec_lmem_outside_of_error {i : Instr} {s t : State} (h : exec i s = .next t) (he : t.status.errCode ≠ 0)
    {a : Nat} (ha : ¬ (larg2 s ≤ a ∧ a < larg2 s + larg3 s)) : t.lmem.get? a = s.lmem.get? a := by
  by_cases hi : i = .henc ∨ i = .hdec
  · refine commandsWriteOnlyTheirDst s t i h a fun r hr => ?_
    cases (dstRegion_of_henc_or_hdec hi s).symm.trans hr
    exact ha
  · obtain ⟨h1, h2⟩ := not_or.mp hi
    rw [exec_lmem_of_error h he h1 h2]

/-- Settles O25: an error of a command changes STATUS, RES0 and RES1, the tree of TBUILD and the draws' region; and a
completed command leaves the device ready. -/
theorem errorsLeaveTheirState : Obligations.ErrorsLeaveTheirState := by
  unfold Obligations.ErrorsLeaveTheirState
  refine ⟨fun s t i h he => ?_, fun s e => does_engine_illegal, fun s t i w h => ?_⟩
  · obtain ⟨-, hie, hcmd, hargs, -⟩ := exec_frame h
    obtain ⟨hres0, hres1⟩ := exec_results_of_error h he
    have herr : t.status.err = true := (status_err_eq t.status).trans (decide_eq_true he)
    have henc : t.prevDcEnc = s.prevDcEnc := by_contra fun hne => he (exec_prevDcEnc_changes h hne).2
    have hdec : t.prevDcDec = s.prevDcDec := by_contra fun hne => he (exec_prevDcDec_changes h hne).2
    exact ⟨exec_status_of_error h he, herr, hres0, hres1, henc, hdec, exec_huffman_of_error h he, hcmd, hargs, hie,
      exec_lmem_of_failed_check h, exec_lmem_of_error h he, fun a => exec_lmem_outside_of_error h he⟩
  · obtain ⟨-, -, -, -, -, -, -, -, -, hbusy, -⟩ := exec_frame h
    exact ⟨commandRegisters.1 t w hbusy, rfl⟩

/-! ### LMEM after an execute-phase error (R353) -/

/-- Once the checks have passed, an error is one of the command's own codes, raised in its execute phase. -/
theorem commandBody_of_error {i : Instr} {s t : State} (hp : precheck i s = none) (h : exec i s = .next t)
    (he : t.status.errCode ≠ 0) : ∃ e ∈ executeCodes i, commandBody i s = .error (.raise e) := by
  rw [exec_eq] at h
  cases hb : commandBody i s with
  | ok eff =>
    cases (runCommand_of_ok hp hb (commandBody_within hp hb)).symm.trans h
    exact absurd rfl he
  | error stop =>
    obtain ⟨r, -, a, -, -, -, rfl⟩ | ⟨e, hmem, rfl⟩ := commandBody_error hp hb
    · cases (runCommand_of_fault hp hb).symm.trans h
    · exact ⟨e, hmem, rfl⟩

/-- An execute-phase error of HENC or HDEC leaves draws in its dst region. -/
theorem exec_error_with_draws {i : Instr} {s t : State} (hi : i = .henc ∨ i = .hdec) (hp : precheck i s = none)
    (h : exec i s = .next t) (he : t.status.errCode ≠ 0) :
    ∃ e ∈ executeCodes i, t = failedWithDraws s e.code (larg2 s) (larg3 s) := by
  obtain ⟨hkeeps, hdraws⟩ : dropsTree i = false ∧ drawsOnError i = true := by rcases hi with rfl | rfl <;> decide
  obtain ⟨e, hmem, hb⟩ := commandBody_of_error hp h he
  have hraised := exec_raised_with_draws (dstRegion_of_henc_or_hdec hi s) hkeeps hdraws hp hb
  cases hraised.symm.trans h
  exact ⟨e, hmem, rfl⟩

theorem get?_failedWithDraws (s : State) (code : Byte) (a : Nat) {n j : Nat} (hj : j < n) :
    (failedWithDraws s code a n).lmem.get? (a + j) = some (Config.drawByte (s.drawCount + j)) := by
  have hlen : j < (drawBytes s.drawCount n).length := by rwa [drawBytes_length]
  rw [failedWithDraws, Memory.get?_put_inside _ hlen]
  simp [drawBytes, hj]

/-- Settles O26: the commands that stage their output write nothing, and HENC and HDEC leave draws in their dst region. -/
theorem memoryAfterExecuteError : Obligations.MemoryAfterExecuteError := by
  unfold Obligations.MemoryAfterExecuteError
  refine ⟨fun s t i h he h1 h2 => ⟨exec_lmem_of_error h he h1 h2, exec_drawCount h h1 h2⟩, fun s t i hi hp h he => ?_⟩
  have houtside := fun a => exec_lmem_outside_of_error h he (a := a)
  obtain ⟨e, hmem, rfl⟩ := exec_error_with_draws hi hp h he
  refine ⟨?_, ?_, fun j => get?_failedWithDraws s e.code (larg2 s), houtside, rfl⟩
  · rintro rfl
    obtain rfl | rfl : e = .noCode ∨ e = .capacity := by simpa [executeCodes] using hmem
    · exact .inl rfl
    · exact .inr rfl
  · rintro rfl
    obtain rfl | rfl | rfl : e = .corrupt ∨ e = .capacity ∨ e = .truncated := by simpa [executeCodes] using hmem
    · exact .inl rfl
    · exact .inr (.inl rfl)
    · exact .inr (.inr rfl)

/-! ### The interrupt output (R360) -/

theorem irq_of_done {s : State} (h : s.status.done = true) : s.irq = s.ie := by rw [State.irq, h, Bool.and_true]

theorem irq_of_not_done {s : State} (h : s.status.done = false) : s.irq = false := by
  rw [State.irq, h, Bool.and_false]

/-- Settles O27: a completion sets DONE; each write sets or clears IE, or clears DONE. -/
theorem interruptOutput : Obligations.InterruptOutput := by
  unfold Obligations.InterruptOutput
  refine ⟨fun s => rfl, fun s t i h => ?_, fun s => ⟨_, writes_eq s 1 (by decide) rfl, Bool.true_and _⟩,
    fun s => ⟨_, writes_eq s 2 (by decide) rfl, irq_of_not_done (Bool.and_false _)⟩,
    fun s w hb => ⟨_, commandRegisters.1 s w hb, irq_of_not_done rfl⟩,
    fun s => ⟨_, writes_eq s 0 (by decide) rfl, Bool.false_and _⟩,
    fun s => ⟨_, writes_ctrl_reset s rfl, irq_of_not_done rfl⟩, rfl⟩
  obtain ⟨-, hie, -, -, -, -, -, -, -, -, hdone⟩ := exec_frame h
  rw [irq_of_done hdone, hie]

end Sys2Proof.Proofs
end

section
/-! Proofs for 70_reset_and_hazards.md: when the engine moves (R412); power-on and soft reset (R400, R402); and the
bytes a command reads. A read of a byte that holds no value faults (R401), so each read is said to answer only if the
bytes it reads hold values. -/

namespace Sys2Proof.Proofs

open Sys2Proof.Machine Sys2Proof.Statements

/-! ### The engine's step (R412) -/

/-- A step is the move the schedule begins with. -/
theorem step_eq_does {s : State} {m : Move} {rest : List Move} (h : s.schedule = m :: rest) :
    step s = does { s with schedule := rest } m := by rw [does, ← h]

theorem step_of_nothing_scheduled {s : State} (h : s.schedule = []) : step s = engineStep s := by
  rw [step, nextMove, h]

theorem engineStep_of_idle {s : State} (h : s.status.busy = false) : engineStep s = .next s := by
  simp [engineStep, h]

theorem engineStep_of_decode {s : State} {i : Instr} (hi : decode s.latch.cmd = .ok i) (hb : s.status.busy = true) :
    engineStep s = exec i s := (engineStep_of_busy hb).trans (completion_of_decode hi)

/-- A move that is held back leaves the engine to move. -/
theorem step_of_stalls {s : State} {m : Move} {rest : List Move} (h : s.schedule = m :: rest)
    (hm : s.stalls m = true) : step s = engineStep s := by
  have hst : State.stalls { s with schedule := rest } m = true := by cases m <;> exact hm
  rw [step_eq_does h, does_of_stalls hst]
  exact congrArg (fun ms => engineStep (s.withSchedule ms)) h.symm

/-- The word withFetchWord places is accepted, and the engine moves next. -/
theorem step_withFetchWord (s : State) {nbits w : Nat} (hw : w < 2 ^ nbits) :
    step (s.withFetchWord nbits w) = engineStep (accepted s (BitVec.ofNat 32 w)) := by
  rw [State.withFetchWord, Nat.mod_eq_of_lt hw]
  rfl

/-- Settles O5: each place the engine's step can have in the schedule. -/
theorem stepRunsTheLatchedCommand : Obligations.StepRunsTheLatchedCommand := by
  unfold Obligations.StepRunsTheLatchedCommand
  refine ⟨fun s i hi hb => ⟨fun hs => ?_, fun rest hs => ?_, fun m rest hs hm => ?_⟩, fun s hb hs => ?_,
    fun s nbits w i _ hw hi => ?_⟩
  · rw [step_of_nothing_scheduled hs, engineStep_of_decode hi hb]
  · rw [step_eq_does hs, does_engine]
    exact engineStep_of_decode hi hb
  · rw [step_of_stalls hs hm, engineStep_of_decode hi hb]
  · rw [step_of_nothing_scheduled hs, engineStep_of_idle hb]
  · rw [step_withFetchWord s hw]
    exact engineStep_of_decode hi rfl

/-! ### Reset (R400 to R402) -/

/-- Settles O28: each field of the power-on state, and an idle device with nothing scheduled. -/
theorem resetValues : Obligations.ResetValues := by
  unfold Obligations.ResetValues
  exact ⟨fun p => ⟨rfl, rfl, rfl, rfl, rfl, rfl, rfl, rfl, rfl, rfl, rfl, rfl, fun a => rfl,
    (step_of_nothing_scheduled rfl).trans (engineStep_of_idle rfl)⟩, rfl, rfl⟩

/-- Settles O31: LMEM is empty, no tree is installed, and the default platform is legal. -/
theorem resetMeetsInvariant : Obligations.ResetMeetsInvariant := by
  unfold Obligations.ResetMeetsInvariant
  refine ⟨by decide, ⟨List.Pairwise.nil, ?_⟩, zero_status_inv rfl, rfl, nofun⟩
  exact List.forall_mem_nil _

theorem afterSoftReset_of_not_aborted {s : State} (h : abortedRegion s = none) :
    (afterSoftReset s).lmem = s.lmem ∧ (afterSoftReset s).drawCount = s.drawCount := by
  simp only [afterSoftReset, h, and_self]

theorem afterSoftReset_lmem_of_aborted {s : State} {r : Region} (h : abortedRegion s = some r) :
    (afterSoftReset s).lmem = s.lmem.put r.start (drawBytes s.drawCount (r.lenIn s.platform.lmemSize)) := by
  simp only [afterSoftReset, h]

/-- A soft reset changes no byte outside the aborted command's dst region (R402). -/
theorem get?_afterSoftReset_outside {s : State} {a : Nat}
    (h : ∀ r, abortedRegion s = some r → ¬ (r.start ≤ a ∧ a < r.start + r.len)) :
    (afterSoftReset s).lmem.get? a = s.lmem.get? a := by
  cases hr : abortedRegion s with
  | none => rw [(afterSoftReset_of_not_aborted hr).1]
  | some r =>
    have hout := h r hr
    have hlen := r.lenIn_le s.platform.lmemSize
    rw [afterSoftReset_lmem_of_aborted hr, Memory.get?_put_outside]
    rw [drawBytes_length]
    omega

/-- A soft reset leaves a draw in each byte of the aborted command's dst region (R402). -/
theorem get?_afterSoftReset_inside {s : State} {r : Region} (h : abortedRegion s = some r)
    (hin : r.start + r.len ≤ s.platform.lmemSize) {j : Nat} (hj : j < r.len) :
    (afterSoftReset s).lmem.get? (r.start + j) = some (Config.drawByte (s.drawCount + j)) := by
  have hlen : j < (drawBytes s.drawCount r.len).length := by rwa [drawBytes_length]
  rw [afterSoftReset_lmem_of_aborted h, Region.lenIn_of_le hin, Memory.get?_put_inside _ hlen]
  simp [drawBytes, hj]

/-- Settles O29: the write is one step, and LMEM changes only where a running command is aborted. -/
theorem softReset : Obligations.SoftReset := by
  unfold Obligations.SoftReset
  refine fun s v hv => ⟨writes_ctrl_reset s hv, fun hb => afterSoftReset_of_not_aborted ?_,
    fun a => get?_afterSoftReset_outside, fun r hr hin j => get?_afterSoftReset_inside hr hin, rfl, rfl⟩
  rw [abortedRegion, hb]
  rfl

/-! ### The bytes a read reads (R401) -/

/-- A read of the bytes at the addresses of P: it answers only if each of them holds a value, and stops only with a
fault. -/
def Reads {α : Type} (s : State) (P : Nat → Prop) : Except Stop α → Prop
  | .ok _ => ∀ k, P k → s.lmem.get? k ≠ none
  | .error (.fault _) => True
  | .error (.raise _) => False

section Reads

variable {α β : Type} {s : State} {P Q : Nat → Prop} {r : Except Stop α}

/-- A read faults where one of its bytes holds no value. -/
theorem Reads.fault_of_none (hr : Reads s P r) {a : Nat} (hP : P a) (ha : s.lmem.get? a = none) :
    ∃ f, r = .error (.fault f) := by
  cases r with
  | ok v => exact absurd ha (hr a hP)
  | error e =>
    cases e with
    | fault f => exact ⟨f, rfl⟩
    | raise e => exact hr.elim

theorem Reads.mono (hr : Reads s P r) (h : ∀ k, Q k → P k) : Reads s Q r := by
  cases r with
  | ok v => exact fun k hk => hr k (h k hk)
  | error e => cases e <;> exact hr

theorem Reads.map (hr : Reads s P r) (f : α → β) : Reads s P (r.map f) := by
  cases r with
  | ok v => exact hr
  | error e => cases e <;> exact hr

/-- A read after another one, which may depend on what the first answers. -/
theorem Reads.bind (hP : Reads s P r) {f : α → Except Stop β} (hQ : ∀ v, Reads s Q (f v)) :
    Reads s (fun k => P k ∨ Q k) (r.bind f) := by
  cases r with
  | error e => cases e <;> exact hP
  | ok v =>
    have hv := hQ v
    change Reads s _ (f v)
    cases hf : f v with
    | error e => rw [hf] at hv; cases e <;> exact hv
    | ok w => rw [hf] at hv; exact fun k hk => hk.elim (hP k) (hv k)

end Reads

theorem reads_readByte (s : State) (a : Nat) : Reads s (· = a) (s.readByte a) := by
  cases h : s.readByte a with
  | ok b =>
    rintro k rfl
    simp [readByte_ok_iff.mp h]
  | error e =>
    obtain ⟨-, rfl⟩ := readByte_error h
    trivial

theorem readEach_cons {α : Type} (f : Nat → Except Stop α) (t : Nat) (ts : List Nat) :
    readEach f (t :: ts) = (f t).bind fun v => (readEach f ts).map (v :: ·) := by
  rw [readEach]
  cases f t with
  | error e => rfl
  | ok v => cases readEach f ts <;> rfl

theorem readBytes_succ (s : State) (a n : Nat) :
    s.readBytes a (n + 1) = (s.readByte a).bind fun b => (s.readBytes (a + 1) n).map (b :: ·) := by
  rw [State.readBytes]
  cases s.readByte a with
  | error e => rfl
  | ok b => cases s.readBytes (a + 1) n <;> rfl

theorem readEntry_eq (s : State) (t : Nat) : readEntry s t =
    (s.readByte (larg0 s + 8 * t)).bind fun b => (s.readU32 (larg0 s + 8 * t + 4)).map (b, ·) := by
  rw [readEntry]
  cases s.readByte (larg0 s + 8 * t) with
  | error e => rfl
  | ok b => cases s.readU32 (larg0 s + 8 * t + 4) <;> rfl

/-- A read of an item for each index reads the bytes of every item. -/
theorem reads_readEach {α : Type} {s : State} {f : Nat → Except Stop α} {R : Nat → Nat → Prop} {ts : List Nat}
    (h : ∀ t ∈ ts, Reads s (R t) (f t)) : Reads s (fun k => ∃ t ∈ ts, R t k) (readEach f ts) := by
  induction ts with
  | nil => rintro k ⟨t, ht, -⟩; cases ht
  | cons t ts ih =>
    obtain ⟨ht, hts⟩ := List.forall_mem_cons.mp h
    rw [readEach_cons]
    exact (ht.bind fun v => (ih hts).map _).mono fun k => (List.exists_mem_cons_iff _ _ _).mp

theorem reads_readBytes (s : State) (a n : Nat) : Reads s (fun k => a ≤ k ∧ k < a + n) (s.readBytes a n) := by
  induction n generalizing a with
  | zero => exact fun k hk => by omega
  | succ n ih =>
    rw [readBytes_succ]
    exact ((reads_readByte s a).bind fun b => (ih (a + 1)).map _).mono fun k hk => by omega

/-- A block of 64 elements of w bytes. -/
theorem reads_block {α : Type} {s : State} {a w : Nat} {f : Nat → Except Stop α}
    (h : ∀ t, Reads s (fun k => a + w * t ≤ k ∧ k < a + w * t + w) (f t)) :
    Reads s (fun k => a ≤ k ∧ k < a + w * 64) (readEach f (List.range 64)) := by
  refine (reads_readEach fun t _ => h t).mono fun k ⟨hlo, hhi⟩ => ?_
  have hlt : k - a < w * 64 := by omega
  have hdiv := Nat.div_add_mod (k - a) w
  have hmod := Nat.mod_lt (k - a) (Nat.pos_of_lt_mul_right hlt)
  exact ⟨(k - a) / w, List.mem_range.mpr (Nat.div_lt_of_lt_mul hlt), by omega, by omega⟩

theorem reads_readI32Block (s : State) (a : Nat) : Reads s (fun k => a ≤ k ∧ k < a + 256) (s.readI32Block a) :=
  reads_block (w := 4) fun t => (reads_readBytes s (a + 4 * t) 4).map _

theorem reads_readF64Block (s : State) (a : Nat) : Reads s (fun k => a ≤ k ∧ k < a + 512) (s.readF64Block a) :=
  reads_block (w := 8) fun t => (reads_readBytes s (a + 8 * t) 8).map _

/-- An entry of a symbol table is read at its byte 0 and its bytes 4 to 7 (R252). -/
theorem reads_readEntry (s : State) (t : Nat) :
    Reads s (fun k => ∃ j, (j = 0 ∨ (4 ≤ j ∧ j < 8)) ∧ k = larg0 s + 8 * t + j) (readEntry s t) := by
  rw [readEntry_eq]
  refine ((reads_readByte s _).bind fun b => ((reads_readBytes s (larg0 s + 8 * t + 4) 4).map leValue).map _).mono ?_
  rintro k ⟨j, hj, rfl⟩
  omega

theorem subsSample_eq (m : Mode) (s : State) (src w i j : Nat) : subsSample m s src w i j =
    (readEach s.readByte (cellAddrs m src w i j)).map fun bs =>
      BitVec.ofNat 8 (average ((bs.map BitVec.toNat).sum) (factorX m * factorY m)) := by
  rw [subsSample]
  cases readEach s.readByte (cellAddrs m src w i j) <;> rfl

/-- A sample of SUBS is made of the bytes of its cell (R301). -/
theorem reads_subsSample (m : Mode) (s : State) (src w i j : Nat) :
    Reads s (· ∈ cellAddrs m src w i j) (subsSample m s src w i j) := by
  rw [subsSample_eq]
  exact ((reads_readEach fun k _ => reads_readByte s k).map _).mono fun k hk => ⟨k, hk, rfl⟩

/-! ### Planes (R301, R303) -/

/-- Every position of a plane has its index. -/
theorem exists_plane_index {w h x y : Nat} (hx : x < w) (hy : y < h) : ∃ t < w * h, t % w = x ∧ t / w = y := by
  refine ⟨y * w + x, plane_index_lt hy hx, ?_, ?_⟩
  · rw [Nat.mul_comm, Nat.mul_add_mod, Nat.mod_eq_of_lt hx]
  · rw [Nat.mul_comm, Nat.mul_add_div (by omega), Nat.div_eq_of_lt hx, Nat.add_zero]

/-- Every address of a plane is that of a sample. -/
theorem exists_sample {src w h k : Nat} (hlo : src ≤ k) (hhi : k < src + w * h) :
    ∃ x < w, ∃ y < h, k = src + y * w + x := by
  have hlt : k - src < w * h := by omega
  have hdiv := Nat.div_add_mod' (k - src) w
  have hmod := Nat.mod_lt (k - src) (Nat.pos_of_lt_mul_right hlt)
  exact ⟨(k - src) % w, hmod, (k - src) / w, Nat.div_lt_of_lt_mul hlt, by omega⟩

/-- The cells of SUBS cover its src plane, where its factors divide W and H. -/
theorem exists_cell {m : Mode} {src w h k : Nat} (hw : factorX m ∣ w) (hh : factorY m ∣ h) (hlo : src ≤ k)
    (hhi : k < src + w * h) : ∃ t < w / factorX m * (h / factorY m),
      k ∈ cellAddrs m src w (t % (w / factorX m)) (t / (w / factorX m)) := by
  obtain ⟨x, hx, y, hy, rfl⟩ := exists_sample hlo hhi
  obtain ⟨t, ht, hcol, hrow⟩ := exists_plane_index (Nat.div_lt_div_of_lt_of_dvd hw hx)
    (Nat.div_lt_div_of_lt_of_dvd hh hy)
  refine ⟨t, ht, List.mem_flatMap.mpr ⟨y % factorY m, List.mem_range.mpr (Nat.mod_lt _ (factorY_pos m)),
    List.mem_map.mpr ⟨x % factorX m, List.mem_range.mpr (Nat.mod_lt _ (factorX_pos m)), ?_⟩⟩⟩
  rw [hcol, hrow, Nat.div_add_mod, Nat.div_add_mod]

/-- Every source sample of UPS is that of an output sample. -/
theorem exists_output {src w h k : Nat} (m : Mode) (hlo : src ≤ k) (hhi : k < src + w * h) :
    ∃ t < w * factorX m * (h * factorY m),
      k = src + t / (w * factorX m) / factorY m * w + t % (w * factorX m) / factorX m := by
  obtain ⟨x, hx, y, hy, rfl⟩ := exists_sample hlo hhi
  obtain ⟨t, ht, hcol, hrow⟩ := exists_plane_index (Nat.mul_lt_mul_of_pos_right hx (factorX_pos m))
    (Nat.mul_lt_mul_of_pos_right hy (factorY_pos m))
  exact ⟨t, ht, by rw [hcol, hrow, Nat.mul_div_cancel _ (factorX_pos m), Nat.mul_div_cancel _ (factorY_pos m)]⟩

/-! ### Where a command faults (R401) -/

theorem exec_of_fault {i : Instr} {s : State} {f : Fault} (hp : precheck i s = none)
    (hb : commandBody i s = .error (.fault f)) : exec i s = .fault f := by rw [exec_eq, runCommand_of_fault hp hb]

/-- A command faults at a byte of its src region that holds no value, and nowhere else (R401). -/
theorem exec_fault {i : Instr} {s : State} {f : Fault} (h : exec i s = .fault f) :
    ∃ r a, srcRegion i s.latch.args = some r ∧ r.start ≤ a ∧ a < r.start + r.len ∧ s.lmem.get? a = none ∧
      f = .noValue a := by
  rw [exec_eq] at h
  obtain ⟨hp, hb | ⟨eff, hb, hout⟩⟩ := runCommand_fault h
  · obtain ⟨r, hr, a, hlo, hhi, hnone, he⟩ | ⟨c, -, hc⟩ := commandBody_error hp hb
    · cases he
      exact ⟨r, a, hr, hlo, hhi, hnone, rfl⟩
    · cases hc
  · exact absurd (commandBody_within hp hb) hout

/-- A fault of the execute phase is the command's, at a byte of its src region that holds no value. -/
theorem exec_of_body_fault {i : Instr} {s : State} {r : Region} (hp : precheck i s = none)
    (hr : srcRegion i s.latch.args = some r) (hb : ∃ f, commandBody i s = .error (.fault f)) :
    ∃ b, r.start ≤ b ∧ b < r.start + r.len ∧ s.lmem.get? b = none ∧ exec i s = .fault (.noValue b) := by
  obtain ⟨f, hf⟩ := hb
  have hx := exec_of_fault hp hf
  obtain ⟨q, b, hq, hlo, hhi, hnone, rfl⟩ := exec_fault hx
  cases hr.symm.trans hq
  exact ⟨b, hlo, hhi, hnone, hx⟩

/-! ### The commands that read their whole src region, and TBUILD -/

/-- A command that reads its whole src region faults where a byte of it holds no value. -/
theorem commandBody_of_unreadable_src {i : Instr} {s : State} {r : Region} {a : Nat} (hi : readsWholeSrc i = true)
    (hp : precheck i s = none) (hr : srcRegion i s.latch.args = some r) (hlo : r.start ≤ a)
    (hhi : a < r.start + r.len) (ha : s.lmem.get? a = none) : ∃ f, commandBody i s = .error (.fault f) := by
  cases i with
  | nop | qtab | zzdec | tbuild | henc | hdec => cases hi
  | fdct | dequant | zzenc =>
    cases hr
    obtain ⟨f, hf⟩ := (reads_readI32Block s (larg0 s)).fault_of_none ⟨hlo, hhi⟩ ha
    exact ⟨f, by simp only [commandBody, fdctBody, dequantBody, zzencBody, hf]⟩
  | idct | quant =>
    cases hr
    obtain ⟨f, hf⟩ := (reads_readF64Block s (larg0 s)).fault_of_none ⟨hlo, hhi⟩ ha
    exact ⟨f, by simp only [commandBody, idctBody, quantBody, hf]⟩
  | hist =>
    cases hr
    obtain ⟨f, hf⟩ := (reads_readBytes s (larg0 s) (larg1 s)).fault_of_none ⟨hlo, hhi⟩ ha
    exact ⟨f, by simp only [commandBody, histBody, hf]⟩
  | subs m =>
    cases hr
    obtain ⟨⟨-, -, hw, hh⟩, -, -⟩ := precheck_subs_none_iff.mp hp
    have hfx : factorX m ∣ larg1 s := dvd_of_mul_left_dvd (Nat.dvd_of_mod_eq_zero hw)
    have hfy : factorY m ∣ larg2 s := dvd_of_mul_left_dvd (Nat.dvd_of_mod_eq_zero hh)
    obtain ⟨t, ht, hmem⟩ := exists_cell hfx hfy hlo hhi
    have hread := reads_readEach fun t (_ : t ∈ List.range (larg1 s / factorX m * (larg2 s / factorY m))) =>
      reads_subsSample m s (larg0 s) (larg1 s) (t % (larg1 s / factorX m)) (t / (larg1 s / factorX m))
    obtain ⟨f, hf⟩ := hread.fault_of_none ⟨t, List.mem_range.mpr ht, hmem⟩ ha
    exact ⟨f, by simp only [commandBody, subsBody, hf]⟩
  | ups m =>
    cases hr
    obtain ⟨t, ht, hk⟩ := exists_output m hlo hhi
    have hread := reads_readEach fun t (_ : t ∈ List.range (larg1 s * factorX m * (larg2 s * factorY m))) =>
      reads_readByte s (larg0 s + t / (larg1 s * factorX m) / factorY m * larg1 s +
        t % (larg1 s * factorX m) / factorX m)
    obtain ⟨f, hf⟩ := hread.fault_of_none ⟨t, List.mem_range.mpr ht, hk⟩ ha
    exact ⟨f, by simp only [commandBody, upsBody, hf]⟩

/-- TBUILD faults where byte 0 or one of bytes 4 to 7 of an entry holds no value (R252). -/
theorem tbuildBody_of_unreadable_entry {s : State} {k j : Nat} (ct : Bool) (hk : k < larg1 s)
    (hj : j = 0 ∨ (4 ≤ j ∧ j < 8)) (hnone : s.lmem.get? (larg0 s + 8 * k + j) = none) :
    ∃ f, commandBody (.tbuild ct) s = .error (.fault f) := by
  have hread := reads_readEach fun t (_ : t ∈ List.range (larg1 s)) => reads_readEntry s t
  obtain ⟨f, hf⟩ := hread.fault_of_none ⟨k, List.mem_range.mpr hk, j, hj, rfl⟩ hnone
  exact ⟨f, by simp only [commandBody, tbuildBody, hf]⟩

/-! ### The next byte of ZZDEC, HENC and HDEC (R224, R256, R258) -/

theorem readByte_of_none {s : State} {a : Nat} (h : s.lmem.get? a = none) :
    s.readByte a = .error (.fault (.noValue a)) := by rw [State.readByte, h]

/-- The loop of ZZDEC faults at the first byte with no value, where the bytes before it have not ended the block. A
round that goes on moves cur, so the rounds last. -/
theorem decodePairs_of_none {s : State} {src len : Nat} (bs : List Byte) (cur : Nat) {rounds i : Nat} (z : List Int)
    (hcur : cur ≤ 64) (hrounds : 65 ≤ rounds + cur) (hlen : i + bs.length < len) (hh : s.holds (src + i) bs)
    (hgoes : bs.length < (placePairs (bs ++ [0]) cur).consumed) (hnone : s.lmem.get? (src + i + bs.length) = none) :
    decodePairs s src len rounds z i cur = .error (.fault (.noValue (src + i + bs.length))) := by
  obtain ⟨n, rfl⟩ : ∃ n, rounds = n + 1 := ⟨rounds - 1, by omega⟩
  induction bs using List.twoStepInduction generalizing n z i cur with
  | nil =>
    have hne : i ≠ len := hlen.ne
    have hread : s.readByte (src + i) = .error (.fault (.noValue (src + i))) := readByte_of_none hnone
    rw [decodePairs, if_neg hne, hread]
    rfl
  | singleton rb =>
    have hne : i ≠ len := by omega
    have hne' : i + 1 ≠ len := hlen.ne
    have hrb : s.lmem.get? (src + i) = some rb := (holds_cons.mp hh).1
    have hread : s.readByte (src + i + 1) = .error (.fault (.noValue (src + i + 1))) := readByte_of_none hnone
    rw [decodePairs, if_neg hne, readByte_ok_iff.mpr hrb, hread]
    exact if_neg hne'
  | cons_cons rb vb rest ih _ =>
    have haddr : src + i + (rb :: vb :: rest).length = src + (i + 2) + rest.length := by
      rw [List.length_cons, List.length_cons]
      omega
    rw [haddr] at hnone ⊢
    simp only [List.length_cons] at hlen hgoes
    obtain ⟨hrb, hbs⟩ := holds_cons.mp hh
    obtain ⟨hvb, hrest⟩ := holds_cons.mp hbs
    have hpair : s.holds (src + i) ((rb :: vb :: List.replicate (len - (i + 2)) 0).take (0 + 2)) :=
      holds_cons.mpr ⟨hrb, holds_cons.mpr ⟨hvb, nofun⟩⟩
    have hin : i + (rb :: vb :: List.replicate (len - (i + 2)) (0 : Byte)).length = len := by
      simp only [List.length_cons, List.length_replicate]
      omega
    rw [decodePairs_pair z cur hin hpair]
    rw [List.cons_append, List.cons_append, placePairs] at hgoes
    split_ifs at hgoes ⊢ with hend hfill hpast hpast
    · simp at hgoes
    · simp at hgoes
    · obtain ⟨m, rfl⟩ : ∃ m, n = m + 1 := ⟨n - 1, by omega⟩
      exact ih _ z (by omega) (by omega) hrest (by simpa using hgoes) hnone m (by omega)
    · simp at hgoes
    · obtain ⟨m, rfl⟩ : ∃ m, n = m + 1 := ⟨n - 1, by omega⟩
      exact ih _ _ (by omega) (by omega) hrest (by simpa using hgoes) hnone m (by omega)

theorem zzdecBody_of_none {s : State} {b : Byte} {bs : List Byte} (hh : s.holds (larg0 s) (b :: bs))
    (hlen : bs.length + 1 < larg1 s) (hgoes : bs.length < (placePairs (bs ++ [0]) 1).consumed)
    (hnone : s.lmem.get? (larg0 s + (bs.length + 1)) = none) :
    commandBody .zzdec s = .error (.fault (.noValue (larg0 s + (bs.length + 1)))) := by
  obtain ⟨hb, hbs⟩ := holds_cons.mp hh
  rw [Nat.add_comm bs.length, ← Nat.add_assoc] at hnone ⊢
  rw [Nat.add_comm] at hlen
  have hpairs := decodePairs_of_none bs 1 (rounds := 64) (sat32 (s.prevDcDec.toInt + b.toInt) :: List.replicate 63 0)
    (by decide) (by decide) hlen hbs hgoes hnone
  simp only [commandBody, zzdecBody, readByte_ok_iff.mpr hb, hpairs]

/-- The loop of HENC faults at the first byte with no value, where every byte before it has a code. -/
theorem encodeBits_of_none {h : Huffman} {s : State} {bs : List Byte} {a n : Nat} (hh : s.holds a bs)
    (hn : bs.length < n) (hc : (encodeBytes h bs).1 ≠ none) (hnone : s.lmem.get? (a + bs.length) = none) :
    encodeBits h s a n = .error (.fault (.noValue (a + bs.length))) := by
  induction bs generalizing a n with
  | nil =>
    obtain ⟨k, rfl⟩ : ∃ k, n = k + 1 := ⟨n - 1, (Nat.succ_pred_eq_of_pos hn).symm⟩
    have hread : s.readByte a = .error (.fault (.noValue a)) := readByte_of_none hnone
    rw [encodeBits, hread]
    rfl
  | cons b bs ih =>
    obtain ⟨k, rfl⟩ : ∃ k, n = k + 1 := ⟨n - 1, by omega⟩
    obtain ⟨hb, hbs⟩ := holds_cons.mp hh
    have haddr : a + (b :: bs).length = a + 1 + bs.length := by rw [List.length_cons]; omega
    rw [haddr] at hnone ⊢
    rw [encodeBytes] at hc
    split at hc
    · exact absurd rfl hc
    next hcode =>
      have hrest := ih hbs (Nat.lt_of_succ_lt_succ hn) (fun hno => hc (by rw [hno]; rfl)) hnone
      rw [encodeBits, readByte_ok_iff.mpr hb, hrest]
      exact if_neg hcode

theorem payloadBits_eq_bitsFrom (bs : List Byte) (n : Nat) : payloadBits bs n = bitsFrom bs 0 n := by
  rw [payloadBits, bitsFrom, List.range_eq_range']

/-- The loop of HDEC faults at the first bit of the first byte with no value, where the bits before it raise nothing. -/
theorem decodeBits_of_none {h : Huffman} {s : State} {src cap : Nat} {bs : List Byte} (j : Nat) {k n node m : Nat}
    (hh : s.holds src bs) (hnone : s.lmem.get? (src + bs.length) = none) (hj : k + j = 8 * bs.length) (hn : j < n)
    (hm : m ≤ cap) (hcorrupt : (decodeWalk h (bitsFrom bs k j) node (cap - m)).1 ≠ .raised 0x0E)
    (hfull : (decodeWalk h (bitsFrom bs k j) node (cap - m)).1 ≠ .raised 0x09) :
    decodeBits h s src cap n k node m = .error (.fault (.noValue (src + bs.length))) := by
  obtain ⟨n, rfl⟩ : ∃ i, n = i + 1 := ⟨n - 1, by omega⟩
  induction j generalizing k n node m with
  | zero =>
    have hk : k / 8 = bs.length := by omega
    rw [decodeBits, readBit, hk, readByte_of_none hnone]
  | succ j ih =>
    obtain ⟨n, rfl⟩ : ∃ i, n = i + 1 := ⟨n - 1, by omega⟩
    have hbit : readBit s src k = .ok (payloadBit bs k) :=
      readBit_of_holds (n := bs.length) (by rwa [List.take_length]) (by omega) (by omega)
    rw [bitsFrom_succ] at hcorrupt hfull
    rw [decodeBits_succ hbit]
    cases hc : childOf h node (payloadBit bs k) with
    | none =>
      rw [decodeWalk_corrupt _ _ hc] at hcorrupt
      exact absurd rfl hcorrupt
    | some nxt =>
      cases hl : leafAt h nxt with
      | none =>
        rw [decodeWalk_inner _ _ hc hl] at hcorrupt hfull
        simp only [hl]
        exact ih (by omega) hm hcorrupt hfull n (by omega)
      | some sym =>
        by_cases hroom : m = cap
        · rw [hroom, Nat.sub_self, decodeWalk_full _ hc hl] at hfull
          exact absurd rfl hfull
        · have hcap : cap - m = cap - (m + 1) + 1 := by omega
          rw [hcap, decodeWalk_symbol _ _ hc hl] at hcorrupt hfull
          have hrest := ih (k := k + 1) (node := h.root) (m := m + 1) (by omega) (by omega)
            (fun he => hcorrupt (by rw [he]; rfl)) (fun he => hfull (by rw [he]; rfl)) n (by omega)
          simp only [hl, if_neg hroom, hrest]
          rfl

/-- Settles O20: a command's fault is one of its reads', and each read faults at a byte with no value. -/
theorem faultsOnlyAtBytesWithNoValue : Obligations.FaultsOnlyAtBytesWithNoValue := by
  unfold Obligations.FaultsOnlyAtBytesWithNoValue
  refine ⟨fun s i => ⟨fun f => exec_fault, exec_not_refused i s⟩, fun s i r a hi hp hr hlo hhi ha => ?_,
    fun s ct k j hp hk hj hnone => ?_, fun s hp => ⟨fun hnone => ?_, fun b bs hh hlen hgoes hnone => ?_⟩,
    fun s h bs hp hh hbs hlen hc hnone => ?_, fun s h bs hp hh hbs hlen hcorrupt hfull hnone => ?_⟩
  · exact exec_of_body_fault hp hr (commandBody_of_unreadable_src hi hp hr hlo hhi ha)
  · exact exec_of_body_fault hp rfl (tbuildBody_of_unreadable_entry ct hk hj hnone)
  · refine exec_of_fault hp ?_
    simp only [commandBody, zzdecBody, readByte_of_none hnone]
  · exact exec_of_fault hp (zzdecBody_of_none hh hlen hgoes hnone)
  · refine exec_of_fault hp ?_
    simp only [commandBody, hencBody, hh, encodeBits_of_none hbs hlen hc hnone]
  · rw [payloadBits_eq_bitsFrom] at hcorrupt hfull
    have hloop := decodeBits_of_none (cap := larg3 s) (m := 0) (8 * bs.length) hbs hnone (Nat.zero_add _) hlen
      (Nat.zero_le _) hcorrupt hfull
    refine exec_of_fault hp ?_
    rw [hdecBody_eq hh, hloop]
    rfl

end Sys2Proof.Proofs
end
